-- ==== Sys2Proof/Word.lean ====
section
/-! DEFINITION. The words of the block: 32-bit command words and scalar registers (00_scope.md R7, R9),
8-bit codewords and field elements (20_memory.md R66, R67). -/

namespace Sys2Proof

/-- `XLEN` = 32: a scalar register, a command word, a register-window word (00_scope.md R7). -/
abbrev Word := BitVec 32

/-- A codeword or a GF(256) element, an integer 0 to 255 (20_memory.md R66, R67). -/
abbrev Byte := BitVec 8

end Sys2Proof
end

