-- ==== Sys2Proof/Syntax.lean ====
section
/-! DEFINITION. The thirty commands of the RSMS command set, version 1 (30_encoding.md R84), one
constructor per row of spec/opcode_table.json, with the operands of the formats of R81. -/

namespace Sys2Proof

/-- A scalar register number, `r0` to `r7` (30_encoding.md R82). -/
abbrev SReg := Fin 8

/-- A polynomial register number, `p0` to `p3` (30_encoding.md R82). -/
abbrev PReg := Fin 4

/-- One command. Operands stand in the order of the text form of 30_encoding.md R90. Scalar and
polynomial register numbers are exact by their type. MASK has format I, whose immediate is 8 bits wide
(R81), so the pattern number of `mask` is the one operand that needs a check (`Instr.wf`; log 12). -/
inductive Instr where
  | nop
  | li (rd : SReg) (imm16 : BitVec 16)
  | gflog (rd ra : SReg)
  | gfexp (rd ra : SReg)
  | gfmul (rd ra rb : SReg)
  | pclr (pd : PReg)
  | ppush (pd : PReg) (ra : SReg)
  | ppushi (pd : PReg) (imm8 : Byte)
  | plen (rd : SReg) (pa : PReg)
  | pget (rd : SReg) (pa : PReg) (rb : SReg)
  | pmul (pd pa pb : PReg)
  | pmod (pd pa pb : PReg)
  | rsgen (n : Byte)
  | rsenc (pd pa : PReg)
  | rsgetg (pd : PReg)
  | mnew (version : Byte)
  | mget (rd ra rb : SReg)
  | mset (ra rb : SReg) (v f : Bool)
  | mxor (ra rb : SReg) (v : Bool)
  | mrsv (ra rb : SReg) (v : Bool)
  | misr (rd ra rb : SReg)
  | mdark (rd : SReg)
  | mtot (rd : SReg)
  | mask (p : Byte)
  | pen1 (rd : SReg)
  | pen2 (rd : SReg)
  | pen3 (rd : SReg)
  | pen4 (rd : SReg)
  | pen (rd : SReg)
  | best (rd : SReg)
  deriving DecidableEq, Repr

end Sys2Proof
end

