-- ==== Sys2Proof/WellFormed.lean ====
section
/-! DEFINITION. Which terms of `Instr` are commands: the operand conditions of 30_encoding.md R81 that
the types of the operands do not already say. -/

namespace Sys2Proof

/-- A command that has an encoding. The one condition left is MASK's: "MASK also requires `I8[7:3]` = 0"
(30_encoding.md R81), that is, a pattern index 0 to 7. -/
def Instr.wf : Instr → Bool
  | .nop => true
  | .li _ _ => true
  | .gflog _ _ => true
  | .gfexp _ _ => true
  | .gfmul _ _ _ => true
  | .pclr _ => true
  | .ppush _ _ => true
  | .ppushi _ _ => true
  | .plen _ _ => true
  | .pget _ _ _ => true
  | .pmul _ _ _ => true
  | .pmod _ _ _ => true
  | .rsgen _ => true
  | .rsenc _ _ => true
  | .rsgetg _ => true
  | .mnew _ => true
  | .mget _ _ _ => true
  | .mset _ _ _ _ => true
  | .mxor _ _ _ => true
  | .mrsv _ _ _ => true
  | .misr _ _ _ => true
  | .mdark _ => true
  | .mtot _ => true
  | .mask p => decide (p.toNat < 8)
  | .pen1 _ => true
  | .pen2 _ => true
  | .pen3 _ => true
  | .pen4 _ => true
  | .pen _ => true
  | .best _ => true

end Sys2Proof
end

