-- ==== Sys2Proof/Decode.lean ====
section
/-! DEFINITION. Command words: their six fields (30_encoding.md R80), the fourteen formats (R81), the
decoder (R87), the encoder, and the (mask, match) table of R84 as the manual prints it. -/

namespace Sys2Proof

/-! ### The six fields -/

/-- The fields of a command word (30_encoding.md R80); `I16` overlays `c`, `z` and `i8`. -/
structure Fields where
  op : BitVec 8
  a : BitVec 4
  b : BitVec 4
  c : BitVec 4
  z : BitVec 4
  i8 : BitVec 8
  deriving DecidableEq, Repr

/-- The fields of `cw`, by the bit positions of 30_encoding.md R80. -/
def Fields.ofWord (cw : Word) : Fields where
  op := cw.extractLsb' 24 8
  a := cw.extractLsb' 20 4
  b := cw.extractLsb' 16 4
  c := cw.extractLsb' 12 4
  z := cw.extractLsb' 8 4
  i8 := cw.extractLsb' 0 8

/-- The word with these fields, `op` in the most significant place (30_encoding.md R80, R9 for `{a, b}`). -/
def Fields.toWord (f : Fields) : Word :=
  (f.op ++ f.a ++ f.b ++ f.c ++ f.z ++ f.i8 : BitVec (8 + 4 + 4 + 4 + 4 + 8))

/-- `I16` = `cw[15:0]` (30_encoding.md R80, R83). -/
def Fields.i16 (f : Fields) : BitVec 16 :=
  (f.c ++ f.z ++ f.i8 : BitVec (4 + 4 + 8))

/-- The fields all zero but the opcode; the formats fill in what they use. -/
def Fields.zeros (op : BitVec 8) : Fields := ⟨op, 0, 0, 0, 0, 0⟩

/-! ### Register fields -/

/-- "A scalar register number occupies the low 3 bits of its 4-bit field and the field's top bit must
be 0" (30_encoding.md R81). -/
def sregOf? (f : BitVec 4) : Option SReg :=
  if h : f.toNat < 8 then some ⟨f.toNat, h⟩ else none

/-- "a polynomial register number occupies the low 2 bits of its field and the field's top two bits
must be 0" (30_encoding.md R81). -/
def pregOf? (f : BitVec 4) : Option PReg :=
  if h : f.toNat < 4 then some ⟨f.toNat, h⟩ else none

/-- The field of a scalar register number. -/
def sregField (r : SReg) : BitVec 4 := BitVec.ofNat 4 r.val

/-- The field of a polynomial register number. -/
def pregField (p : PReg) : BitVec 4 := BitVec.ofNat 4 p.val

/-! ### The formats of 30_encoding.md R81, read -/

/-- Format Z. -/
def Fields.readZ (f : Fields) (k : Instr) : Option Instr :=
  if f.a = 0 ∧ f.b = 0 ∧ f.c = 0 ∧ f.z = 0 ∧ f.i8 = 0 then some k else none

/-- Format RI. -/
def Fields.readRI (f : Fields) (k : SReg → BitVec 16 → Instr) : Option Instr :=
  match sregOf? f.a with
  | some rd => if f.b = 0 then some (k rd f.i16) else none
  | none => none

/-- Format RR. -/
def Fields.readRR (f : Fields) (k : SReg → SReg → Instr) : Option Instr :=
  match sregOf? f.a, sregOf? f.b with
  | some rd, some ra => if f.c = 0 ∧ f.z = 0 ∧ f.i8 = 0 then some (k rd ra) else none
  | _, _ => none

/-- Format RRR. -/
def Fields.readRRR (f : Fields) (k : SReg → SReg → SReg → Instr) : Option Instr :=
  match sregOf? f.a, sregOf? f.b, sregOf? f.c with
  | some rd, some ra, some rb => if f.z = 0 ∧ f.i8 = 0 then some (k rd ra rb) else none
  | _, _, _ => none

/-- Format R. -/
def Fields.readR (f : Fields) (k : SReg → Instr) : Option Instr :=
  match sregOf? f.a with
  | some rd => if f.b = 0 ∧ f.c = 0 ∧ f.z = 0 ∧ f.i8 = 0 then some (k rd) else none
  | none => none

/-- Format P. -/
def Fields.readP (f : Fields) (k : PReg → Instr) : Option Instr :=
  match pregOf? f.a with
  | some pd => if f.b = 0 ∧ f.c = 0 ∧ f.z = 0 ∧ f.i8 = 0 then some (k pd) else none
  | none => none

/-- Format PR. -/
def Fields.readPR (f : Fields) (k : PReg → SReg → Instr) : Option Instr :=
  match pregOf? f.a, sregOf? f.b with
  | some pd, some ra => if f.c = 0 ∧ f.z = 0 ∧ f.i8 = 0 then some (k pd ra) else none
  | _, _ => none

/-- Format PI. -/
def Fields.readPI (f : Fields) (k : PReg → Byte → Instr) : Option Instr :=
  match pregOf? f.a with
  | some pd => if f.b = 0 ∧ f.c = 0 ∧ f.z = 0 then some (k pd f.i8) else none
  | none => none

/-- Format RP. -/
def Fields.readRP (f : Fields) (k : SReg → PReg → Instr) : Option Instr :=
  match sregOf? f.a, pregOf? f.b with
  | some rd, some pa => if f.c = 0 ∧ f.z = 0 ∧ f.i8 = 0 then some (k rd pa) else none
  | _, _ => none

/-- Format RPR. -/
def Fields.readRPR (f : Fields) (k : SReg → PReg → SReg → Instr) : Option Instr :=
  match sregOf? f.a, pregOf? f.b, sregOf? f.c with
  | some rd, some pa, some rb => if f.z = 0 ∧ f.i8 = 0 then some (k rd pa rb) else none
  | _, _, _ => none

/-- Format PPP. -/
def Fields.readPPP (f : Fields) (k : PReg → PReg → PReg → Instr) : Option Instr :=
  match pregOf? f.a, pregOf? f.b, pregOf? f.c with
  | some pd, some pa, some pb => if f.z = 0 ∧ f.i8 = 0 then some (k pd pa pb) else none
  | _, _, _ => none

/-- Format PP. -/
def Fields.readPP (f : Fields) (k : PReg → PReg → Instr) : Option Instr :=
  match pregOf? f.a, pregOf? f.b with
  | some pd, some pa => if f.c = 0 ∧ f.z = 0 ∧ f.i8 = 0 then some (k pd pa) else none
  | _, _ => none

/-- Format I. -/
def Fields.readI (f : Fields) (k : Byte → Instr) : Option Instr :=
  if f.a = 0 ∧ f.b = 0 ∧ f.c = 0 ∧ f.z = 0 then some (k f.i8) else none

/-- Format I with MASK's proviso, `I8[7:3]` = 0. -/
def Fields.readI3 (f : Fields) (k : Byte → Instr) : Option Instr :=
  if f.i8.toNat < 8 then f.readI k else none

/-- Format FRR: `v` = `A[0]`, `f` = `A[1]`, `A[3:2]` = 0. -/
def Fields.readFRR (f : Fields) (k : SReg → SReg → Bool → Bool → Instr) : Option Instr :=
  match sregOf? f.b, sregOf? f.c with
  | some ra, some rb =>
    if f.a.toNat < 4 ∧ f.z = 0 ∧ f.i8 = 0 then
      some (k ra rb (f.a.getLsbD 0) (f.a.getLsbD 1)) else none
  | _, _ => none

/-- Format FRR with `A[1]` required 0 (MXOR, MRSV). -/
def Fields.readFRR0 (f : Fields) (k : SReg → SReg → Bool → Instr) : Option Instr :=
  if f.a.toNat < 2 then f.readFRR (fun ra rb v _ => k ra rb v) else none

/-! ### The decoder -/

/-- Why a word is no command. 30_encoding.md R87 calls both `illegal`; both raise `E_ILLEGAL` (R85). -/
inductive Reject where
  /-- An opcode outside the table of R84. -/
  | unknownOpcode
  /-- A known opcode with a nonzero must-be-zero bit or a register or pattern field out of range. -/
  | malformed
  deriving DecidableEq, Repr

/-- A format's reading, its failure named. -/
def orMalformed : Option Instr → Except Reject Instr
  | some i => .ok i
  | none => .error .malformed

/-- The opcode map of 30_encoding.md R84, each opcode with its format. -/
def decodeFields (f : Fields) : Except Reject Instr :=
  match f.op.toNat with
  | 0x00 => orMalformed (f.readZ .nop)
  | 0x01 => orMalformed (f.readRI .li)
  | 0x10 => orMalformed (f.readRR .gflog)
  | 0x11 => orMalformed (f.readRR .gfexp)
  | 0x12 => orMalformed (f.readRRR .gfmul)
  | 0x20 => orMalformed (f.readP .pclr)
  | 0x21 => orMalformed (f.readPR .ppush)
  | 0x22 => orMalformed (f.readPI .ppushi)
  | 0x23 => orMalformed (f.readRP .plen)
  | 0x24 => orMalformed (f.readRPR .pget)
  | 0x25 => orMalformed (f.readPPP .pmul)
  | 0x26 => orMalformed (f.readPPP .pmod)
  | 0x30 => orMalformed (f.readI .rsgen)
  | 0x31 => orMalformed (f.readPP .rsenc)
  | 0x32 => orMalformed (f.readP .rsgetg)
  | 0x40 => orMalformed (f.readI .mnew)
  | 0x41 => orMalformed (f.readRRR .mget)
  | 0x42 => orMalformed (f.readFRR .mset)
  | 0x43 => orMalformed (f.readFRR0 .mxor)
  | 0x44 => orMalformed (f.readFRR0 .mrsv)
  | 0x45 => orMalformed (f.readRRR .misr)
  | 0x46 => orMalformed (f.readR .mdark)
  | 0x47 => orMalformed (f.readR .mtot)
  | 0x50 => orMalformed (f.readI3 .mask)
  | 0x51 => orMalformed (f.readR .pen1)
  | 0x52 => orMalformed (f.readR .pen2)
  | 0x53 => orMalformed (f.readR .pen3)
  | 0x54 => orMalformed (f.readR .pen4)
  | 0x55 => orMalformed (f.readR .pen)
  | 0x56 => orMalformed (f.readR .best)
  | _ => .error .unknownOpcode

/-- `decode(cw)`: one command with its operands, or illegal. Total, and a function of the word alone
(30_encoding.md R87). -/
def decode (cw : Word) : Except Reject Instr := decodeFields (Fields.ofWord cw)

/-! ### The encoder -/

/-- The fields of a command, from the pictures of 30_encoding.md R81 and the opcodes of R84. -/
def Instr.fields : Instr → Fields
  | .nop => Fields.zeros 0x00
  | .li rd imm =>
    { op := 0x01, a := sregField rd, b := 0, c := imm.extractLsb' 12 4, z := imm.extractLsb' 8 4,
      i8 := imm.extractLsb' 0 8 }
  | .gflog rd ra => { Fields.zeros 0x10 with a := sregField rd, b := sregField ra }
  | .gfexp rd ra => { Fields.zeros 0x11 with a := sregField rd, b := sregField ra }
  | .gfmul rd ra rb =>
    { Fields.zeros 0x12 with a := sregField rd, b := sregField ra, c := sregField rb }
  | .pclr pd => { Fields.zeros 0x20 with a := pregField pd }
  | .ppush pd ra => { Fields.zeros 0x21 with a := pregField pd, b := sregField ra }
  | .ppushi pd imm => { Fields.zeros 0x22 with a := pregField pd, i8 := imm }
  | .plen rd pa => { Fields.zeros 0x23 with a := sregField rd, b := pregField pa }
  | .pget rd pa rb =>
    { Fields.zeros 0x24 with a := sregField rd, b := pregField pa, c := sregField rb }
  | .pmul pd pa pb =>
    { Fields.zeros 0x25 with a := pregField pd, b := pregField pa, c := pregField pb }
  | .pmod pd pa pb =>
    { Fields.zeros 0x26 with a := pregField pd, b := pregField pa, c := pregField pb }
  | .rsgen n => { Fields.zeros 0x30 with i8 := n }
  | .rsenc pd pa => { Fields.zeros 0x31 with a := pregField pd, b := pregField pa }
  | .rsgetg pd => { Fields.zeros 0x32 with a := pregField pd }
  | .mnew v => { Fields.zeros 0x40 with i8 := v }
  | .mget rd ra rb =>
    { Fields.zeros 0x41 with a := sregField rd, b := sregField ra, c := sregField rb }
  | .mset ra rb v f =>
    { Fields.zeros 0x42 with
      a := BitVec.ofNat 4 (2 * f.toNat + v.toNat), b := sregField ra, c := sregField rb }
  | .mxor ra rb v =>
    { Fields.zeros 0x43 with a := BitVec.ofNat 4 v.toNat, b := sregField ra, c := sregField rb }
  | .mrsv ra rb v =>
    { Fields.zeros 0x44 with a := BitVec.ofNat 4 v.toNat, b := sregField ra, c := sregField rb }
  | .misr rd ra rb =>
    { Fields.zeros 0x45 with a := sregField rd, b := sregField ra, c := sregField rb }
  | .mdark rd => { Fields.zeros 0x46 with a := sregField rd }
  | .mtot rd => { Fields.zeros 0x47 with a := sregField rd }
  | .mask p => { Fields.zeros 0x50 with i8 := p }
  | .pen1 rd => { Fields.zeros 0x51 with a := sregField rd }
  | .pen2 rd => { Fields.zeros 0x52 with a := sregField rd }
  | .pen3 rd => { Fields.zeros 0x53 with a := sregField rd }
  | .pen4 rd => { Fields.zeros 0x54 with a := sregField rd }
  | .pen rd => { Fields.zeros 0x55 with a := sregField rd }
  | .best rd => { Fields.zeros 0x56 with a := sregField rd }

/-- The command word of a well-formed command. -/
def encode (i : Instr) : Word := i.fields.toWord

/-! ### The table of 30_encoding.md R84 as printed -/

/-- One row: a word `cw` is the command of the row if and only if `cw & mask == match` (30_encoding.md R84).
`bits` is the `match` column. -/
structure OpcodeRow where
  mnemonic : String
  bits : Word
  mask : Word
  deriving DecidableEq, Repr

/-- `cw & mask == match`. -/
def OpcodeRow.accepts (r : OpcodeRow) (cw : Word) : Bool := cw &&& r.mask == r.bits

/-- Rows of system, scalar, GF and polynomial commands. -/
def opcodeRowsLow : List OpcodeRow :=
  [⟨"NOP", 0x00000000, 0xFFFFFFFF⟩, ⟨"LI", 0x01000000, 0xFF8F0000⟩,
   ⟨"GFLOG", 0x10000000, 0xFF88FFFF⟩, ⟨"GFEXP", 0x11000000, 0xFF88FFFF⟩,
   ⟨"GFMUL", 0x12000000, 0xFF888FFF⟩, ⟨"PCLR", 0x20000000, 0xFFCFFFFF⟩,
   ⟨"PPUSH", 0x21000000, 0xFFC8FFFF⟩, ⟨"PPUSHI", 0x22000000, 0xFFCFFF00⟩,
   ⟨"PLEN", 0x23000000, 0xFF8CFFFF⟩, ⟨"PGET", 0x24000000, 0xFF8C8FFF⟩,
   ⟨"PMUL", 0x25000000, 0xFFCCCFFF⟩, ⟨"PMOD", 0x26000000, 0xFFCCCFFF⟩]

/-- Rows of Reed-Solomon, matrix, mask and penalty commands. -/
def opcodeRowsHigh : List OpcodeRow :=
  [⟨"RSGEN", 0x30000000, 0xFFFFFF00⟩, ⟨"RSENC", 0x31000000, 0xFFCCFFFF⟩,
   ⟨"RSGETG", 0x32000000, 0xFFCFFFFF⟩, ⟨"MNEW", 0x40000000, 0xFFFFFF00⟩,
   ⟨"MGET", 0x41000000, 0xFF888FFF⟩, ⟨"MSET", 0x42000000, 0xFFC88FFF⟩,
   ⟨"MXOR", 0x43000000, 0xFFE88FFF⟩, ⟨"MRSV", 0x44000000, 0xFFE88FFF⟩,
   ⟨"MISR", 0x45000000, 0xFF888FFF⟩, ⟨"MDARK", 0x46000000, 0xFF8FFFFF⟩,
   ⟨"MTOT", 0x47000000, 0xFF8FFFFF⟩, ⟨"MASK", 0x50000000, 0xFFFFFFF8⟩,
   ⟨"PEN1", 0x51000000, 0xFF8FFFFF⟩, ⟨"PEN2", 0x52000000, 0xFF8FFFFF⟩,
   ⟨"PEN3", 0x53000000, 0xFF8FFFFF⟩, ⟨"PEN4", 0x54000000, 0xFF8FFFFF⟩,
   ⟨"PEN", 0x55000000, 0xFF8FFFFF⟩, ⟨"BEST", 0x56000000, 0xFF8FFFFF⟩]

/-- The thirty rows of 30_encoding.md R84. -/
def opcodeRows : List OpcodeRow := opcodeRowsLow ++ opcodeRowsHigh

/-- The mnemonic of a command (30_encoding.md R84, R90). -/
def Instr.mnemonic : Instr → String
  | .nop => "NOP"
  | .li _ _ => "LI"
  | .gflog _ _ => "GFLOG"
  | .gfexp _ _ => "GFEXP"
  | .gfmul _ _ _ => "GFMUL"
  | .pclr _ => "PCLR"
  | .ppush _ _ => "PPUSH"
  | .ppushi _ _ => "PPUSHI"
  | .plen _ _ => "PLEN"
  | .pget _ _ _ => "PGET"
  | .pmul _ _ _ => "PMUL"
  | .pmod _ _ _ => "PMOD"
  | .rsgen _ => "RSGEN"
  | .rsenc _ _ => "RSENC"
  | .rsgetg _ => "RSGETG"
  | .mnew _ => "MNEW"
  | .mget _ _ _ => "MGET"
  | .mset _ _ _ _ => "MSET"
  | .mxor _ _ _ => "MXOR"
  | .mrsv _ _ _ => "MRSV"
  | .misr _ _ _ => "MISR"
  | .mdark _ => "MDARK"
  | .mtot _ => "MTOT"
  | .mask _ => "MASK"
  | .pen1 _ => "PEN1"
  | .pen2 _ => "PEN2"
  | .pen3 _ => "PEN3"
  | .pen4 _ => "PEN4"
  | .pen _ => "PEN"
  | .best _ => "BEST"

/-! ### The host's question about one word of the table -/

/-- What the decoder reads from an instruction of `nbits` bits whose bits are `w`, bits above `nbits`
being zero. A command is one whole 32-bit word (30_encoding.md R80) with no byte order
(20_memory.md R69). -/
def decodeTableWord (nbits w : Nat) : Option Instr :=
  (decode (BitVec.ofNat 32 (w % 2 ^ nbits))).toOption

end Sys2Proof
end

