-- ==== Sys2Proof/Config.lean ====
section
/-! DEFINITION. The parameters of 00_scope.md R7 that the rules name, the identification word, and the
one free value of the model. -/

namespace Sys2Proof

/-- `PCAP`: capacity of a polynomial register in coefficients (00_scope.md R7). -/
def Config.pcap : Nat := 256

/-- `VER_MIN`: the smallest symbol version (00_scope.md R7). -/
def Config.verMin : Nat := 1

/-- `VER_MAX`: the largest symbol version (00_scope.md R7). -/
def Config.verMax : Nat := 40

/-- `NPAT`: the number of mask patterns (00_scope.md R7). -/
def Config.npat : Nat := 8

/-- `FIELD_ORDER`: the multiplicative order, modulus of `exp` operands (00_scope.md R7). -/
def Config.fieldOrder : Nat := 255

/-- The `ID` word, the ASCII bytes "RSM1" (10_state.md R39). -/
def Config.idWord : Word := 0x52534D31

/-- FREE VALUE (log 3): what the k-th host read of a result word made while `BUSY` = 1 returns. 70_reset_and_hazards.md
R285: such a read "returns an unspecified 32-bit value". Nothing is known of it. -/
opaque Config.busyRead : Nat → Word

end Sys2Proof
end

