-- ==== Sys2Proof/Machine/State.lean ====
section
/-! DEFINITION. The state of the block (10_state.md), the host accesses it will meet, and the reasons a
step could stop. -/

namespace Sys2Proof.Machine

/-- One cell of the matrix store, "a two-field record {value: bool, reserved: bool}" (10_state.md R26).
`value` is `V[r][c]`, true = dark = 1 (00_scope.md R16); `reserved` is `RSV[r][c]`. -/
structure GridCell where
  value : Bool
  reserved : Bool
  deriving DecidableEq, Repr

/-- The matrix store's two planes, row by row: the cell at row `r`, column `c` (20_memory.md R68) is the
`c`-th entry of the `r`-th list (log 10). -/
abbrev Grid := List (List GridCell)

/-- A polynomial value: coefficients, index 0 (the most significant) first (20_memory.md R65). Its
length is the `len` field of 10_state.md R24. -/
abbrev Poly := List Byte

/-- An input of the block, 45_system.md R246. `write` and `read` are whole-word accesses by window index
(20_memory.md R61); `WriteCmd w` is `write 0 w`, `WriteCtrl w` is `write 4 w`; `reset` is the `rst` pin
and `finish` the block's internal event. -/
inductive Event where
  | write (index : BitVec 5) (w : Word)
  | read (index : BitVec 5)
  | reset
  | finish
  deriving DecidableEq, Repr

/-- The causes of 60_exceptions.md R251. -/
inductive Cause where
  | illegal
  | noGen
  | noMat
  | range
  | logZero
  | len
  | divisor
  | oob
  deriving DecidableEq, Repr

/-- Everything 10_state.md gives the block, and, last, three fields of the model's own. -/
structure State where
  /-- `x[0]` to `x[7]` (R21). -/
  regs : Vector Word 8
  /-- `P[0]` to `P[3]` (R24). -/
  polys : Vector Poly 4
  /-- `G` (R25). -/
  gen : Poly
  /-- `GN` (R25). -/
  gn : Byte
  /-- Flag `GVALID` (R23). -/
  gvalid : Bool
  /-- Flag `MVALID` (R23). -/
  mvalid : Bool
  /-- `MSIZE` (R26). -/
  msize : Byte
  /-- The planes `V` and `RSV` (R26). -/
  grid : Grid
  /-- `MINPEN` (R27). -/
  minpen : Word
  /-- Flag `BUSY` (R23). -/
  busy : Bool
  /-- Flag `FAULT` (R23). -/
  fault : Bool
  /-- Flag `OVR` (R23). -/
  ovr : Bool
  /-- `FCAUSE` (R33). -/
  fcause : Byte
  /-- `FINFO` (R34). -/
  finfo : Word
  /-- The command word the block holds while `BUSY` = 1 (R41; 45_system.md R241; log 6). -/
  held : Word
  /-- The model's own: the events still to come, oldest first (45_system.md R246; log 1). -/
  schedule : List Event
  /-- The model's own: what host reads have returned, newest first (45_system.md R244; log 4). -/
  answers : List Word
  /-- The model's own: how many free values have been drawn (20_memory.md R75; log 5). -/
  draws : Nat
  deriving DecidableEq, Repr

/-- No step of this machine ends in a fault, and the type has no constructor: the eight faults of
60_exceptions.md R251 have an entry the spec describes (R260), so raising one is a next state, and
70_reset_and_hazards.md R288 says "there is no undefined behaviour" (log 7). -/
inductive Fault : Type
  deriving DecidableEq, Repr

/-- Reasons for which the MODEL has no meaning to give. Safe: nothing is claimed of such a step. -/
inductive Refusal where
  /-- An arm of `exec` without a meaning answers this; no arm does now. Safe. -/
  | notModelled (mnemonic : String)
  deriving DecidableEq, Repr

/-- What a command or a step answers. -/
abbrev Result := Host.Outcome State Fault Refusal

/-- The machine right after reset, 10_state.md R43. `held` (log 6) and the model's own three fields
(log 2, log 4, log 5) are the values the log names. -/
def State.reset : State where
  regs := Vector.replicate 8 0
  polys := Vector.replicate 4 []
  gen := []
  gn := 0
  gvalid := false
  mvalid := false
  msize := 0
  grid := []
  minpen := 0
  busy := false
  fault := false
  ovr := false
  fcause := 0
  finfo := 0
  held := 0
  schedule := []
  answers := []
  draws := 0

end Sys2Proof.Machine
end

