-- ==== Sys2Proof/Machine/Ops.lean ====
section
/-! DEFINITION. The named operations every command is made of: registers, coefficients, cells, fault
entry and the way out of it, completion, acceptance. -/

namespace Sys2Proof.Machine

/-! ### Scalar and polynomial registers (00_scope.md R10) -/

/-- `x[i]`. -/
def State.getReg (s : State) (i : SReg) : Word := s.regs[i]

/-- `x[i] <- v`. -/
def State.setReg (s : State) (i : SReg) (v : Word) : State := { s with regs := s.regs.set i v }

/-- `P[k]`. -/
def State.getPoly (s : State) (k : PReg) : Poly := s.polys[k]

/-- `P[k] <- L`, length and coefficients. -/
def State.setPoly (s : State) (k : PReg) (l : Poly) : State := { s with polys := s.polys.set k l }

/-- A natural number as a 32-bit register value; every value a command writes fits (R8, 44_mask.md R209). -/
def wordOfNat (n : Nat) : Word := BitVec.ofNat 32 n

/-- `zext_32` of an 8-bit value (00_scope.md R9). -/
def wordOfByte (b : Byte) : Word := b.zeroExtend 32

/-- `zext_32` of a one-bit value, 1 for true (00_scope.md R9, R16). -/
def wordOfBool (b : Bool) : Word := if b then 1 else 0

/-! ### The matrix cell space (20_memory.md R63) -/

/-- The record at row `r`, column `c`. A cell outside the grid does not exist (10_state.md R26) and no
command reads one: the bounds check comes first. The value given for one is never used (log 10). -/
def Grid.cell (g : Grid) (r c : Nat) : GridCell :=
  (g[r]?.getD [])[c]?.getD { value := false, reserved := false }

/-- The grid with the record at row `r`, column `c` changed by `f`; nothing where no such cell exists. -/
def Grid.modifyCell (g : Grid) (r c : Nat) (f : GridCell → GridCell) : Grid :=
  g.modify r (fun row => row.modify c f)

/-- `cell_get` (43_matrix.md R172). -/
def cellGet (g : Grid) (r c : Nat) : Bool := (g.cell r c).value

/-- `cell_isrsv` (43_matrix.md R172). -/
def cellIsRsv (g : Grid) (r c : Nat) : Bool := (g.cell r c).reserved

/-- What `cell_set(r, c, v, f)` does to a cell: the test is on the reserved bit as it was, and a set can
reserve, never unreserve (43_matrix.md R173). -/
def GridCell.set (x : GridCell) (v f : Bool) : GridCell where
  value := if x.reserved then x.value else v
  reserved := x.reserved || f

/-- What `cell_xor(r, c, v)` does to a cell (43_matrix.md R173). -/
def GridCell.xor (x : GridCell) (v : Bool) : GridCell where
  value := if x.reserved then x.value else x.value ^^ v
  reserved := x.reserved

/-- What `cell_mark(r, c, f)` does to a cell (43_matrix.md R173). -/
def GridCell.mark (x : GridCell) (f : Bool) : GridCell where
  value := x.value
  reserved := f

/-- `cell_set` (43_matrix.md R173). -/
def cellSet (g : Grid) (r c : Nat) (v f : Bool) : Grid := g.modifyCell r c (·.set v f)

/-- `cell_xor` (43_matrix.md R173). -/
def cellXor (g : Grid) (r c : Nat) (v : Bool) : Grid := g.modifyCell r c (·.xor v)

/-- `cell_mark` (43_matrix.md R173). -/
def cellMark (g : Grid) (r c : Nat) (f : Bool) : Grid := g.modifyCell r c (·.mark f)

/-- `4*version + 17` (43_matrix.md R174). -/
def sizeOfVersion (version : Nat) : Nat := 4 * version + 17

/-- All light, none reserved (43_matrix.md R174). -/
def freshGrid (size : Nat) : Grid :=
  List.replicate size (List.replicate size { value := false, reserved := false })

/-- The canonical form of the cell space: `MSIZE` rows of `MSIZE` cells while a matrix exists, no cell at
all otherwise (10_state.md R26), so that equal matrices are equal data. -/
def Memory.wf (mvalid : Bool) (msize : Byte) (g : Grid) : Bool :=
  if mvalid then g.length == msize.toNat && g.all (fun row => row.length == msize.toNat)
  else g == []

/-! ### Faults (60_exceptions.md R251, R260) -/

/-- The code `FCAUSE` receives (60_exceptions.md R251). -/
def Cause.code : Cause → Byte
  | .illegal => 1
  | .noGen => 2
  | .noMat => 3
  | .range => 4
  | .logZero => 5
  | .len => 6
  | .divisor => 7
  | .oob => 8

/-- FAULT ENTRY, the one way every fault is taken (60_exceptions.md R260): `FAULT`, `FCAUSE`, `FINFO` (the
command word the block holds) and `BUSY` change, and nothing else does. -/
def State.raise (s : State) (k : Cause) : State :=
  { s with fault := true, fcause := k.code, finfo := s.held, busy := false }

/-- THE ONLY RETURN from the fault state (60_exceptions.md R261): reset, by `rst` or by `CTRL.SRST`, with
the effect of 70_reset_and_hazards.md R280. Every piece of the block's state takes its value of 10_state.md
R43. What belongs to the host (the events to come, the answers it has had) stays (log 13). -/
def State.resetBlock (s : State) : State :=
  { State.reset with schedule := s.schedule, answers := s.answers, draws := s.draws }

/-- Completion of a command (45_system.md R242 a): `BUSY <- 0`. -/
def State.complete (s : State) : State := { s with busy := false }

/-- A command that completes with the state `s`. -/
def done (s : State) : Result := .next s.complete

/-- A command that raises `k` in the state `s`. -/
def trap (k : Cause) (s : State) : Result := .next (s.raise k)

/-! ### Submission and the held command (45_system.md R241) -/

/-- A write of `w` to `CMD`: ignored under `FAULT`, dropped with `OVR` under `BUSY`, else accepted, tested in
this order (45_system.md R241). -/
def State.submit (s : State) (w : Word) : State :=
  if s.fault then s
  else if s.busy then { s with ovr := true }
  else { s with busy := true, held := w }

/-- The command in execution: the held word, decoded when it is executed (45_system.md R242). -/
def State.command (s : State) : Except Reject Instr := decode s.held

/-- The state just after the host's `CMD` write of the word with bits `w` was accepted, with `Finish` as the
next event (45_system.md R241, R246; log 8). -/
def State.accepted (s : State) (nbits w : Nat) : State :=
  { s with busy := true, held := BitVec.ofNat 32 (w % 2 ^ nbits), schedule := .finish :: s.schedule }

end Sys2Proof.Machine
end

