-- ==== Sys2Proof/Machine/Flags.lean ====
section
/-! DEFINITION. The five flags of 10_state.md R23 and the `STATUS` word that shows them (R32). No
command reads a flag as a data operand and there are no condition codes. -/

namespace Sys2Proof.Machine

/-- `STATUS`: bit 0 `BUSY`, bit 1 `FAULT`, bit 2 `OVR`, bit 3 `GVALID`, bit 4 `MVALID`, the rest 0
(10_state.md R32). -/
def State.statusWord (s : State) : Word :=
  wordOfBool s.busy ||| wordOfBool s.fault <<< 1 ||| wordOfBool s.ovr <<< 2
    ||| wordOfBool s.gvalid <<< 3 ||| wordOfBool s.mvalid <<< 4

/-- What RSGEN writes: `G`, `GN` and `GVALID <- 1` (42_rs.md R153). -/
def State.setGen (s : State) (g : Poly) (n : Byte) : State :=
  { s with gen := g, gn := n, gvalid := true }

/-- What MNEW writes: `MSIZE`, every cell and `MVALID <- 1` (43_matrix.md R174). -/
def State.setMatrix (s : State) (size : Nat) : State :=
  { s with msize := BitVec.ofNat 8 size, grid := freshGrid size, mvalid := true }

/-- A write to the planes of the matrix in place. -/
def State.setGrid (s : State) (g : Grid) : State := { s with grid := g }

/-- `MINPEN <- v` (44_mask.md R216). -/
def State.setMinpen (s : State) (v : Word) : State := { s with minpen := v }

end Sys2Proof.Machine
end

