-- ==== Sys2Proof/Machine/Operands.lean ====
section
/-! DEFINITION. The operand checks the commands share, each raising the fault the spec names. -/

namespace Sys2Proof.Machine

/-- `if GVALID = 0 then raise E_NOGEN` (42_rs.md R154, R155). -/
def needGen (s : State) (k : Result) : Result := if s.gvalid then k else trap .noGen s

/-- `if MVALID = 0 then raise E_NOMAT` (43_matrix.md R171). -/
def needMat (s : State) (k : Result) : Result := if s.mvalid then k else trap .noMat s

/-- Both coordinates in range (43_matrix.md R171), compared as unsigned 32-bit numbers. -/
def State.inBounds (s : State) (r c : Word) : Bool :=
  decide (r.toNat < s.msize.toNat) && decide (c.toNat < s.msize.toNat)

/-- The checks of 43_matrix.md R171 for a command that names the cell (`x[ra]`, `x[rb]`): a matrix first, then
both coordinates. -/
def needCell (s : State) (ra rb : SReg) (k : Nat → Nat → Result) : Result :=
  needMat s (if s.inBounds (s.getReg ra) (s.getReg rb) then
    k (s.getReg ra).toNat (s.getReg rb).toNat else trap .oob s)

/-- A register value that is a field element: not above 255 (40_gf.md R105, 41_poly.md R124). -/
def elementOf? (v : Word) : Option Byte := if v.toNat ≤ 255 then some (v.setWidth 8) else none

end Sys2Proof.Machine
end

