-- ==== Sys2Proof/Machine/Matrix.lean ====
section
/-! DEFINITION. Matrix commands MNEW, MGET, MSET, MXOR, MRSV, MISR, MDARK, MTOT (43_matrix.md). -/

namespace Sys2Proof.Machine

/-- The number of dark cells of a row. -/
def rowDark : List GridCell → Nat
  | [] => 0
  | x :: xs => x.value.toNat + rowDark xs

/-- `darkCount` (43_matrix.md R180): the number of cells with V = 1, reserved or not. -/
def darkCount : Grid → Nat
  | [] => 0
  | row :: rows => rowDark row + darkCount rows

/-- MNEW (43_matrix.md R174). -/
def execMnew (version : Byte) (s : State) : Result :=
  if version.toNat < Config.verMin ∨ Config.verMax < version.toNat then trap .range s
  else done (s.setMatrix (sizeOfVersion version.toNat))

/-- MGET (43_matrix.md R175). -/
def execMget (rd ra rb : SReg) (s : State) : Result :=
  needCell s ra rb fun r c => done (s.setReg rd (wordOfBool (cellGet s.grid r c)))

/-- MSET (43_matrix.md R176). -/
def execMset (ra rb : SReg) (v f : Bool) (s : State) : Result :=
  needCell s ra rb fun r c => done (s.setGrid (cellSet s.grid r c v f))

/-- MXOR (43_matrix.md R177). -/
def execMxor (ra rb : SReg) (v : Bool) (s : State) : Result :=
  needCell s ra rb fun r c => done (s.setGrid (cellXor s.grid r c v))

/-- MRSV (43_matrix.md R178). -/
def execMrsv (ra rb : SReg) (v : Bool) (s : State) : Result :=
  needCell s ra rb fun r c => done (s.setGrid (cellMark s.grid r c v))

/-- MISR (43_matrix.md R179). -/
def execMisr (rd ra rb : SReg) (s : State) : Result :=
  needCell s ra rb fun r c => done (s.setReg rd (wordOfBool (cellIsRsv s.grid r c)))

/-- MDARK (43_matrix.md R180). -/
def execMdark (rd : SReg) (s : State) : Result :=
  needMat s (done (s.setReg rd (wordOfNat (darkCount s.grid))))

/-- MTOT (43_matrix.md R181). -/
def execMtot (rd : SReg) (s : State) : Result :=
  needMat s (done (s.setReg rd (wordOfNat (s.msize.toNat * s.msize.toNat))))

end Sys2Proof.Machine
end

