-- ==== Sys2Proof/Machine/Mask.lean ====
section
/-! DEFINITION. Mask and penalty commands MASK, PEN1, PEN2, PEN3, PEN4, PEN, BEST (44_mask.md). -/

namespace Sys2Proof.Machine

/-! ### Mask patterns -/

/-- `MASKFN`, the table of 44_mask.md R201: `mask_bit(p, i, j)` with i the row and j the column. ONE value,
so that another table can be put in its place (log 11). There are no patterns above 7 (log 12). -/
def maskFn (p i j : Nat) : Bool :=
  match p with
  | 0 => (i + j) % 2 == 0
  | 1 => i % 2 == 0
  | 2 => j % 3 == 0
  | 3 => (i + j) % 3 == 0
  | 4 => (i / 2 + j / 3) % 2 == 0
  | 5 => (i * j) % 2 + (i * j) % 3 == 0
  | 6 => ((i * j) % 2 + (i * j) % 3) % 2 == 0
  | 7 => ((i + j) % 2 + (i * j) % 3) % 2 == 0
  | _ => false

/-- One cell under `apply_mask` (44_mask.md R202): `cell_xor(r, c, 1)` where the formula holds. -/
def maskCell (p r c : Nat) (x : GridCell) : GridCell := if maskFn p r c then x.xor true else x

/-- A row under `apply_mask`, from column `c` on. -/
def maskRow (p r : Nat) : Nat → List GridCell → List GridCell
  | _, [] => []
  | c, x :: xs => maskCell p r c x :: maskRow p r (c + 1) xs

/-- The rows under `apply_mask`, from row `r` on. -/
def maskRows (p : Nat) : Nat → Grid → Grid
  | _, [] => []
  | r, row :: rows => maskRow p r 0 row :: maskRows p (r + 1) rows

/-- `apply_mask(p)` (44_mask.md R202), on every cell of the matrix. -/
def applyMask (p : Nat) (g : Grid) : Grid := maskRows p 0 g

/-! ### Lines (44_mask.md R204) -/

/-- The value plane, row by row: the lines `V[r][0], V[r][1], …`. -/
def valueRows (g : Grid) : List (List Bool) := g.map (fun row => row.map (·.value))

/-- The first `n` columns of the rows: the lines `V[0][c], V[1][c], …`. -/
def columnsOf : Nat → List (List Bool) → List (List Bool)
  | 0, _ => []
  | n + 1, rows => rows.map (·.headD false) :: columnsOf n (rows.map List.tail)

/-- The `2·S` lines. -/
def linesOf (size : Nat) (g : Grid) : List (List Bool) :=
  valueRows g ++ columnsOf size (valueRows g)

/-! ### Penalty rules -/

/-- Lengths of the maximal runs of a line of which `n` cells of value `b` have been read. -/
def runsFrom (b : Bool) (n : Nat) : List Bool → List Nat
  | [] => [n]
  | x :: xs => if x == b then runsFrom b (n + 1) xs else n :: runsFrom x 1 xs

/-- Lengths of the maximal runs of a line, in order (44_mask.md R205). -/
def runLengths : List Bool → List Nat
  | [] => []
  | x :: xs => runsFrom x 1 xs

/-- What one maximal run adds (44_mask.md R205). -/
def runScore (len : Nat) : Nat := if 5 ≤ len then 3 + (len - 5) else 0

/-- N1 of one line. -/
def lineN1 (l : List Bool) : Nat := ((runLengths l).map runScore).sum

/-- `n1()` (44_mask.md R205). -/
def n1 (size : Nat) (g : Grid) : Nat := ((linesOf size g).map lineN1).sum

/-- N2 of two adjacent rows: 3 for every 2×2 block of one colour. -/
def rowPairN2 : List Bool → List Bool → Nat
  | a :: a' :: as, b :: b' :: bs =>
    (if a == a' && a == b && a == b' then 3 else 0) + rowPairN2 (a' :: as) (b' :: bs)
  | _, _ => 0

/-- N2 of a stack of rows. -/
def rowsN2 : List (List Bool) → Nat
  | a :: b :: rows => rowPairN2 a b + rowsN2 (b :: rows)
  | _ => 0

/-- `n2()` (44_mask.md R206). -/
def n2 (g : Grid) : Nat := rowsN2 (valueRows g)

/-- `A` = the digits of `0b10111010000`, 1 = dark (44_mask.md R207). -/
def finderA : List Bool := [true, false, true, true, true, false, true, false, false, false, false]

/-- `B` = the digits of `0b00001011101` (44_mask.md R207). -/
def finderB : List Bool := [false, false, false, false, true, false, true, true, true, false, true]

/-- N3 of one line: 40 for every window of 11 cells that reads `A` or `B`. -/
def lineN3 : List Bool → Nat
  | [] => 0
  | x :: xs => (if finderA.isPrefixOf (x :: xs) || finderB.isPrefixOf (x :: xs) then 40 else 0) + lineN3 xs

/-- `n3()` (44_mask.md R207). -/
def n3 (size : Nat) (g : Grid) : Nat := ((linesOf size g).map lineN3).sum

/-- The score of `n4()` for `d` dark cells of `t` (44_mask.md R208): k = ceil(20·d/t), then 10·|k − 10|. -/
def ratioScore (d t : Nat) : Nat :=
  let k := (20 * d + t - 1) / t
  10 * (((k : Int) - 10).natAbs)

/-- `n4()` (44_mask.md R208). -/
def n4 (size : Nat) (g : Grid) : Nat := ratioScore (darkCount g) (size * size)

/-- `penalty()` (44_mask.md R209), in unbounded integers. -/
def penalty (size : Nat) (g : Grid) : Nat := n1 size g + n2 g + n3 size g + n4 size g

/-! ### Best-mask search (44_mask.md R215) -/

/-- What the search carries: the matrix, and the best pattern so far with its score. -/
structure Search where
  grid : Grid
  bestP : Nat
  bestS : Nat
  deriving DecidableEq, Repr

/-- One pass: apply, score, revert, and keep the first strict minimum. -/
def Search.pass (size : Nat) (b : Search) (p : Nat) : Search :=
  let masked := applyMask p b.grid
  let s := penalty size masked
  let reverted := applyMask p masked
  if p = 0 ∨ s < b.bestS then { grid := reverted, bestP := p, bestS := s }
  else { b with grid := reverted }

/-- `best_mask()`: the patterns 0 to 7 in this order. -/
def bestMask (size : Nat) (g : Grid) : Search :=
  (List.range Config.npat).foldl (Search.pass size) { grid := g, bestP := 0, bestS := 0 }

/-! ### Commands -/

/-- A scoring command: the score of the matrix as it stands, into `x[rd]`. -/
def scoreInto (rd : SReg) (score : Nat) (s : State) : Result :=
  needMat s (done (s.setReg rd (wordOfNat score)))

/-- MASK (44_mask.md R203). -/
def execMask (p : Byte) (s : State) : Result :=
  needMat s (done (s.setGrid (applyMask p.toNat s.grid)))

/-- PEN1 (44_mask.md R210). -/
def execPen1 (rd : SReg) (s : State) : Result := scoreInto rd (n1 s.msize.toNat s.grid) s

/-- PEN2 (44_mask.md R211). -/
def execPen2 (rd : SReg) (s : State) : Result := scoreInto rd (n2 s.grid) s

/-- PEN3 (44_mask.md R212). -/
def execPen3 (rd : SReg) (s : State) : Result := scoreInto rd (n3 s.msize.toNat s.grid) s

/-- PEN4 (44_mask.md R213). -/
def execPen4 (rd : SReg) (s : State) : Result := scoreInto rd (n4 s.msize.toNat s.grid) s

/-- PEN (44_mask.md R214). -/
def execPen (rd : SReg) (s : State) : Result := scoreInto rd (penalty s.msize.toNat s.grid) s

/-- BEST (44_mask.md R216): the pattern into `x[rd]`, its score into `MINPEN`, the matrix as the search leaves
it. -/
def execBest (rd : SReg) (s : State) : Result :=
  needMat s (
    let b := bestMask s.msize.toNat s.grid
    done (((s.setGrid b.grid).setReg rd (wordOfNat b.bestP)).setMinpen (wordOfNat b.bestS)))

end Sys2Proof.Machine
end

