-- ==== Sys2Proof/Machine/Gf.lean ====
section
/-! DEFINITION. Scalar and GF(256) commands LI, GFLOG, GFEXP, GFMUL (40_gf.md), over the constant tables of
10_state.md R28. -/

namespace Sys2Proof.Machine

/-! ### The constant tables (10_state.md R28) -/

/-- The `EXP` table as printed in 10_state.md R28, one 16-byte row a numeral, first entry leftmost. Entry
255 does not exist; the 00 in its place is never read (log 15). -/
def expRom : List Nat :=
  [0x01020408102040801D3A74E8CD871326,
   0x4C982D5AB475EAC98F03060C183060C0,
   0x9D274E9C254A94356AD4B577EEC19F23,
   0x468C050A142850A05DBA69D2B96FDEA1,
   0x5FBE61C2992F5EBC65CA890F1E3C78F0,
   0xFDE7D3BB6BD6B17FFEE1DFA35BB671E2,
   0xD9AF4386112244880D1A3468D0BD67CE,
   0x811F3E7CF8EDC7933B76ECC5973366CC,
   0x85172E5CB86DDAA94F9E214284152A54,
   0xA84D9A2952A455AA49923972E4D5B773,
   0xE6D1BF63C6913F7EFCE5D7B37BF6F1FF,
   0xE3DBAB4B963162C495376EDCA557AE41,
   0x82193264C88D070E1C3870E0DDA753A6,
   0x51A259B279F2F9EFC39B2B56AC458A09,
   0x122448903D7AF4F5F7F3FBEBCB8B0B16,
   0x2C58B07DFAE9CF831B366CD8AD478E00]

/-- The `LOG` table as printed in 10_state.md R28, in the same layout. Entry 0 does not exist; the 00 in its
place is never read (log 15). -/
def logRom : List Nat :=
  [0x0000011902321AC603DF33EE1B68C74B,
   0x0464E00E348DEF811CC169F8C8084C71,
   0x058A652FE1240F2135938EDAF0128245,
   0x1DB5C27D6A27F9B9C99A09784DE472A6,
   0x06BF8B6266DD30FDE29825B310912288,
   0x36D094CE8F96DBBDF1D2135C83384640,
   0x1E42B6A3C3487E6E6B3A2854FA85BA3D,
   0xCA5E9B9F0A15792B4ED4E5AC73F3A757,
   0x0770C0F78C80630D674ADEED31C5FE18,
   0xE3A5997726B8B47C114492D92320892E,
   0x373FD15B95BCCFCD908797B2DCFCBE61,
   0xF256D3AB142A5D9E843C3953476D41A2,
   0x1F2D43D8B77BA476C41749EC7F0C6FF6,
   0x6CA13B52299D55AAFB6086B1BBCC3E5A,
   0xCB595FB09CA9A0510BF516EB7A752CD7,
   0x4FAED5E9E6E7ADE874D6F4EAA85058AF]

/-- Entry `i` of a table in the layout of `expRom`. -/
def romByte (rom : List Nat) (i : Nat) : Byte :=
  BitVec.ofNat 8 (rom[i / 16]?.getD 0 >>> (8 * (15 - i % 16)))

/-! ### The three functions (40_gf.md R101) -/

/-- `gf_exp(n)` = `EXP[n mod 255]`, for any n. -/
def gfExp (n : Nat) : Byte := romByte expRom (n % Config.fieldOrder)

/-- `gf_log(a)` = `LOG[a]` for a in 1..255; the logarithm of 0 does not exist. -/
def gfLog? (a : Byte) : Option Nat := if a = 0 then none else some (romByte logRom a.toNat).toNat

/-- `gf_mul(a, b)`: 0 if an operand is 0, tested before any lookup, else `EXP[(LOG[a] + LOG[b]) mod 255]`. -/
def gfMul (a b : Byte) : Byte :=
  match gfLog? a, gfLog? b with
  | some i, some j => gfExp (i + j)
  | _, _ => 0

/-! ### Commands -/

/-- LI (40_gf.md R102). -/
def execLi (rd : SReg) (imm : BitVec 16) (s : State) : Result :=
  done (s.setReg rd (imm.zeroExtend 32))

/-- GFLOG (40_gf.md R103): the operand is `x[ra] mod 256`. -/
def execGflog (rd ra : SReg) (s : State) : Result :=
  match gfLog? ((s.getReg ra).setWidth 8) with
  | some l => done (s.setReg rd (wordOfNat l))
  | none => trap .logZero s

/-- GFEXP (40_gf.md R104): the modulus is 255, of the full 32-bit value. -/
def execGfexp (rd ra : SReg) (s : State) : Result :=
  done (s.setReg rd (wordOfByte (gfExp (s.getReg ra).toNat)))

/-- GFMUL (40_gf.md R105). -/
def execGfmul (rd ra rb : SReg) (s : State) : Result :=
  match elementOf? (s.getReg ra), elementOf? (s.getReg rb) with
  | some a, some b => done (s.setReg rd (wordOfByte (gfMul a b)))
  | _, _ => trap .range s

end Sys2Proof.Machine
end

