-- ==== Sys2Proof/Machine/Poly.lean ====
section
/-! DEFINITION. Polynomial commands PCLR, PPUSH, PPUSHI, PLEN, PGET, PMUL, PMOD (41_poly.md). Lists are
polynomials, most significant coefficient first (20_memory.md R65). -/

namespace Sys2Proof.Machine

/-! ### The two functions -/

/-- The xor of two lists aligned at index 0; the longer list's remaining entries stay. -/
def xorHead : Poly → Poly → Poly
  | x :: xs, y :: ys => (x ^^^ y) :: xorHead xs ys
  | [], ys => ys
  | xs, [] => xs

/-- `poly_mul(a, b)` (41_poly.md R121): the convolution, row by row. The row of `a[i]` is `b` scaled by
`a[i]`, standing at index `i`. Defined for nonempty operands; PMUL and RSGEN pass no other (log 16). -/
def polyMul : Poly → Poly → Poly
  | [], _ => []
  | a :: as, b => xorHead (b.map (gfMul a)) (0 :: polyMul as b)

/-- "remove r[0] from r" while it is 0 (41_poly.md R122). -/
def stripZeros (r : Poly) : Poly := r.dropWhile (fun c => c == 0)

/-- One pass of the loop of `poly_mod` on a nonempty result: the divisor scaled by the leading coefficient is
xored in at the leading end, then leading zeros are stripped (41_poly.md R122). -/
def polyModStep (d r : Poly) : Poly :=
  stripZeros (xorHead r (d.map (fun c => gfMul c (r.headD 0))))

/-- The loop of `poly_mod`, at most `n` passes (log 16). -/
def polyModLoop : Nat → Poly → Poly → Poly
  | 0, _, r => r
  | n + 1, d, r => if d.length ≤ r.length then polyModLoop n d (polyModStep d r) else r

/-- `poly_mod(s, d)` (41_poly.md R122), for a monic divisor `d`. Every pass removes at least one coefficient
(its note a), so `len(s)` passes are enough. -/
def polyMod (s d : Poly) : Poly := polyModLoop s.length d s

/-! ### Commands that move coefficients -/

/-- Append a coefficient at the least significant end, or raise `E_LEN` on a full register (41_poly.md R124,
R125). -/
def pushCoeff (pd : PReg) (v : Byte) (s : State) : Result :=
  if (s.getPoly pd).length = Config.pcap then trap .len s
  else done (s.setPoly pd (s.getPoly pd ++ [v]))

/-- PCLR (41_poly.md R123). -/
def execPclr (pd : PReg) (s : State) : Result := done (s.setPoly pd [])

/-- PPUSH (41_poly.md R124): the value is checked before the length. -/
def execPpush (pd : PReg) (ra : SReg) (s : State) : Result :=
  match elementOf? (s.getReg ra) with
  | some v => pushCoeff pd v s
  | none => trap .range s

/-- PPUSHI (41_poly.md R125). -/
def execPpushi (pd : PReg) (imm : Byte) (s : State) : Result := pushCoeff pd imm s

/-- PLEN (41_poly.md R126). -/
def execPlen (rd : SReg) (pa : PReg) (s : State) : Result :=
  done (s.setReg rd (wordOfNat (s.getPoly pa).length))

/-- PGET (41_poly.md R127): the index is the full value of `x[rb]`. -/
def execPget (rd : SReg) (pa : PReg) (rb : SReg) (s : State) : Result :=
  match (s.getPoly pa)[(s.getReg rb).toNat]? with
  | some c => done (s.setReg rd (wordOfByte c))
  | none => trap .len s

/-! ### Multiply and reduce -/

/-- PMUL (41_poly.md R128). -/
def execPmul (pd pa pb : PReg) (s : State) : Result :=
  let a := s.getPoly pa
  let b := s.getPoly pb
  if a.length = 0 ∨ b.length = 0 then trap .len s
  else if Config.pcap < a.length + b.length - 1 then trap .len s
  else done (s.setPoly pd (polyMul a b))

/-- PMOD (41_poly.md R129): the divisor must be nonempty and monic. -/
def execPmod (pd pa pb : PReg) (s : State) : Result :=
  let d := s.getPoly pb
  if d.head? = some 1 then done (s.setPoly pd (polyMod (s.getPoly pa) d))
  else trap .divisor s

end Sys2Proof.Machine
end

