-- ==== Sys2Proof/Machine/Rs.lean ====
section
/-! DEFINITION. Reed-Solomon commands RSGEN, RSENC, RSGETG (42_rs.md). -/

namespace Sys2Proof.Machine

/-- `rs_gen(N)` (42_rs.md R151): the product of `[1, gf_exp(i)]` for i from 0 to N − 1, starting from `[1]`. -/
def rsGen : Nat → Poly
  | 0 => [1]
  | n + 1 => polyMul (rsGen n) [1, gfExp n]

/-- `rs_encode` with the generator `g` given (42_rs.md R152): N zeros behind the data, the remainder by `g`,
and zeros in FRONT of a short remainder. -/
def rsEncodeBy (g data : Poly) (n : Nat) : Poly :=
  let r := polyMod (data ++ List.replicate n 0) g
  List.replicate (n - r.length) 0 ++ r

/-- `rs_encode(data, N)` (42_rs.md R152). -/
def rsEncode (data : Poly) (n : Nat) : Poly := rsEncodeBy (rsGen n) data n

/-- RSGEN (42_rs.md R153). -/
def execRsgen (n : Byte) (s : State) : Result := done (s.setGen (rsGen n.toNat) n)

/-- RSENC (42_rs.md R154). It "uses G, which equals rs_gen(GN)": the divisor is the generator register
(10_state.md R25; log 9). -/
def execRsenc (pd pa : PReg) (s : State) : Result :=
  needGen s (
    if Config.pcap < (s.getPoly pa).length + s.gn.toNat then trap .len s
    else done (s.setPoly pd (rsEncodeBy s.gen (s.getPoly pa) s.gn.toNat)))

/-- RSGETG (42_rs.md R155). -/
def execRsgetg (pd : PReg) (s : State) : Result := needGen s (done (s.setPoly pd s.gen))

end Sys2Proof.Machine
end

