-- ==== Sys2Proof/Machine/System.lean ====
section
/-! DEFINITION. The system command NOP (45_system.md R240) and the host's accesses to the register window
(R241, R244, R245; 10_state.md R30 to R40). -/

namespace Sys2Proof.Machine

/-- NOP (45_system.md R240): nothing. -/
def execNop (s : State) : Result := done s

/-! ### The register window -/

/-- The content of window word `i` (10_state.md R30), 0 where the word is write-only or unmapped. -/
def State.windowWord (s : State) (i : BitVec 5) : Word :=
  match i.toNat with
  | 1 => s.statusWord
  | 2 => wordOfByte s.fcause
  | 3 => s.finfo
  | 5 => wordOfByte s.gn
  | 6 => wordOfByte s.msize
  | 7 => s.minpen
  | 8 => s.getReg 0
  | 9 => s.getReg 1
  | 10 => s.getReg 2
  | 11 => s.getReg 3
  | 12 => s.getReg 4
  | 13 => s.getReg 5
  | 14 => s.getReg 6
  | 15 => s.getReg 7
  | 16 => Config.idWord
  | _ => 0

/-- The words 70_reset_and_hazards.md R285 and 45_system.md R244 list: `FCAUSE`, `FINFO`, `GN`, `MSIZE`, `MINPEN` and
`R0` to `R7`. They are the words that show what a command writes. -/
def isResultWord (i : BitVec 5) : Bool :=
  i == 2 || i == 3 || (decide (5 ≤ i.toNat) && decide (i.toNat ≤ 15))

/-- A host read (45_system.md R244). While `BUSY` = 1 a result word reads as an unspecified value (R285), here a fresh
free value; that every other word but `STATUS` reads as it stands then too is the model's reading of R244 and R285
against 20_memory.md R75 (log 3, DEDUCED). Every word reads as it stands while `BUSY` = 0. The block's state does not
change. -/
def State.hostRead (s : State) (i : BitVec 5) : State :=
  if s.busy ∧ isResultWord i then
    { s with answers := Config.busyRead s.draws :: s.answers, draws := s.draws + 1 }
  else { s with answers := s.windowWord i :: s.answers }

/-- A host write: to `CMD` a submission, to `CTRL` with bit 0 = 1 a reset, to any other word ignored
(45_system.md R241, R245; 10_state.md R31, R35, R40; 20_memory.md R71). -/
def State.hostWrite (s : State) (i : BitVec 5) (w : Word) : State :=
  if i = 0 then s.submit w
  else if i = 4 ∧ w.getLsbD 0 then s.resetBlock
  else s

end Sys2Proof.Machine
end

