-- ==== Sys2Proof/Machine/Dispatch.lean ====
section
/-! DEFINITION. One arm per command: the atomic state change of 45_system.md R242 for the command `i`,
completion or fault entry, with `BUSY <- 0`. -/

namespace Sys2Proof.Machine

def exec (i : Instr) (s : State) : Host.Outcome State Fault Refusal :=
  match i with
  | .nop => Sys2Proof.Machine.execNop s
  | .li rd imm16 => Sys2Proof.Machine.execLi rd imm16 s
  | .gflog rd ra => Sys2Proof.Machine.execGflog rd ra s
  | .gfexp rd ra => Sys2Proof.Machine.execGfexp rd ra s
  | .gfmul rd ra rb => Sys2Proof.Machine.execGfmul rd ra rb s
  | .pclr pd => Sys2Proof.Machine.execPclr pd s
  | .ppush pd ra => Sys2Proof.Machine.execPpush pd ra s
  | .ppushi pd imm8 => Sys2Proof.Machine.execPpushi pd imm8 s
  | .plen rd pa => Sys2Proof.Machine.execPlen rd pa s
  | .pget rd pa rb => Sys2Proof.Machine.execPget rd pa rb s
  | .pmul pd pa pb => Sys2Proof.Machine.execPmul pd pa pb s
  | .pmod pd pa pb => Sys2Proof.Machine.execPmod pd pa pb s
  | .rsgen n => Sys2Proof.Machine.execRsgen n s
  | .rsenc pd pa => Sys2Proof.Machine.execRsenc pd pa s
  | .rsgetg pd => Sys2Proof.Machine.execRsgetg pd s
  | .mnew version => Sys2Proof.Machine.execMnew version s
  | .mget rd ra rb => Sys2Proof.Machine.execMget rd ra rb s
  | .mset ra rb v f => Sys2Proof.Machine.execMset ra rb v f s
  | .mxor ra rb v => Sys2Proof.Machine.execMxor ra rb v s
  | .mrsv ra rb v => Sys2Proof.Machine.execMrsv ra rb v s
  | .misr rd ra rb => Sys2Proof.Machine.execMisr rd ra rb s
  | .mdark rd => Sys2Proof.Machine.execMdark rd s
  | .mtot rd => Sys2Proof.Machine.execMtot rd s
  | .mask p => Sys2Proof.Machine.execMask p s
  | .pen1 rd => Sys2Proof.Machine.execPen1 rd s
  | .pen2 rd => Sys2Proof.Machine.execPen2 rd s
  | .pen3 rd => Sys2Proof.Machine.execPen3 rd s
  | .pen4 rd => Sys2Proof.Machine.execPen4 rd s
  | .pen rd => Sys2Proof.Machine.execPen rd s
  | .best rd => Sys2Proof.Machine.execBest rd s

end Sys2Proof.Machine
end

