-- ==== Sys2Proof/Machine/Step.lean ====
section
/-! DEFINITION. One step of the machine: one event of 45_system.md R246. -/

namespace Sys2Proof.Machine

/-- The internal event `Finish` of a busy block (45_system.md R242): the held word is decoded and executed; a
word that decodes to illegal raises `E_ILLEGAL`. -/
def finish (s : State) : Result :=
  match s.command with
  | .ok i => exec i s
  | .error _ => trap .illegal s

/-- What one event does (45_system.md R246). `Finish` is "enabled only when `BUSY` = 1"; where it is not, it
does nothing (log 2). -/
def State.onEvent (s : State) : Event → Result
  | .write i w => .next (s.hostWrite i w)
  | .read i => .next (s.hostRead i)
  | .reset => .next s.resetBlock
  | .finish => if s.busy then finish s else .next s

/-- One step: the next event of the schedule. With no event left a busy block finishes
(70_reset_and_hazards.md R287) and an idle block "does nothing and changes no state" (60_exceptions.md R268;
log 2). -/
def step (s : State) : Host.Outcome State Fault Refusal :=
  match s.schedule with
  | e :: rest => { s with schedule := rest }.onEvent e
  | [] => if s.busy then finish s else .next s

/-- `s` with the command word `w` accepted and its `Finish` next (log 8). -/
def State.withFetchWord (s : State) (nbits w : Nat) : State := s.accepted nbits w

end Sys2Proof.Machine
end

