-- ==== Sys2Proof/Machine/Asm.lean ====
section
/-! DEFINITION. The text form of commands (30_encoding.md R90) and the pseudo-instructions (R91), which the
block knows nothing of (log 20). -/

namespace Sys2Proof.Machine

/-- An operand as written: `r<n>`, `p<n>`, `#<n>` (30_encoding.md R90). -/
inductive Operand where
  | r (n : Nat)
  | p (n : Nat)
  | imm (n : Nat)
  deriving DecidableEq, Repr

/-- The operands of a command in the order of the text column of 30_encoding.md R90. -/
def operandsOf : Instr → List Operand
  | .nop => []
  | .li rd imm => [.r rd, .imm imm.toNat]
  | .gflog rd ra => [.r rd, .r ra]
  | .gfexp rd ra => [.r rd, .r ra]
  | .gfmul rd ra rb => [.r rd, .r ra, .r rb]
  | .pclr pd => [.p pd]
  | .ppush pd ra => [.p pd, .r ra]
  | .ppushi pd imm => [.p pd, .imm imm.toNat]
  | .plen rd pa => [.r rd, .p pa]
  | .pget rd pa rb => [.r rd, .p pa, .r rb]
  | .pmul pd pa pb => [.p pd, .p pa, .p pb]
  | .pmod pd pa pb => [.p pd, .p pa, .p pb]
  | .rsgen n => [.imm n.toNat]
  | .rsenc pd pa => [.p pd, .p pa]
  | .rsgetg pd => [.p pd]
  | .mnew v => [.imm v.toNat]
  | .mget rd ra rb => [.r rd, .r ra, .r rb]
  | .mset ra rb v f => [.r ra, .r rb, .imm v.toNat, .imm f.toNat]
  | .mxor ra rb v => [.r ra, .r rb, .imm v.toNat]
  | .mrsv ra rb v => [.r ra, .r rb, .imm v.toNat]
  | .misr rd ra rb => [.r rd, .r ra, .r rb]
  | .mdark rd => [.r rd]
  | .mtot rd => [.r rd]
  | .mask p => [.imm p.toNat]
  | .pen1 rd => [.r rd]
  | .pen2 rd => [.r rd]
  | .pen3 rd => [.r rd]
  | .pen4 rd => [.r rd]
  | .pen rd => [.r rd]
  | .best rd => [.r rd]

/-- `r0` to `r7`. -/
def sregNamed? (n : Nat) : Option SReg := if h : n < 8 then some ⟨n, h⟩ else none

/-- `p0` to `p3`. -/
def pregNamed? (n : Nat) : Option PReg := if h : n < 4 then some ⟨n, h⟩ else none

/-- An immediate of `w` bits. -/
def immNamed? (w n : Nat) : Option (BitVec w) := if n < 2 ^ w then some (BitVec.ofNat w n) else none

/-- A one-bit immediate. -/
def flagNamed? (n : Nat) : Option Bool := if n = 0 then some false else if n = 1 then some true else none

/-- `rd`. -/
def asmR (k : SReg → Instr) : List Operand → Option Instr
  | [.r a] => (sregNamed? a).map k
  | _ => none

/-- `rd, ra`. -/
def asmRR (k : SReg → SReg → Instr) : List Operand → Option Instr
  | [.r a, .r b] => (sregNamed? a).bind fun a => (sregNamed? b).map (k a)
  | _ => none

/-- `rd, ra, rb`. -/
def asmRRR (k : SReg → SReg → SReg → Instr) : List Operand → Option Instr
  | [.r a, .r b, .r c] =>
    (sregNamed? a).bind fun a => (sregNamed? b).bind fun b => (sregNamed? c).map (k a b)
  | _ => none

/-- `pd`. -/
def asmP (k : PReg → Instr) : List Operand → Option Instr
  | [.p a] => (pregNamed? a).map k
  | _ => none

/-- `pd, pa`. -/
def asmPP (k : PReg → PReg → Instr) : List Operand → Option Instr
  | [.p a, .p b] => (pregNamed? a).bind fun a => (pregNamed? b).map (k a)
  | _ => none

/-- `pd, pa, pb`. -/
def asmPPP (k : PReg → PReg → PReg → Instr) : List Operand → Option Instr
  | [.p a, .p b, .p c] =>
    (pregNamed? a).bind fun a => (pregNamed? b).bind fun b => (pregNamed? c).map (k a b)
  | _ => none

/-- `#imm8`. -/
def asmI (k : Byte → Instr) : List Operand → Option Instr
  | [.imm n] => (immNamed? 8 n).map k
  | _ => none

/-- `ra, rb, #v`. -/
def asmCellV (k : SReg → SReg → Bool → Instr) : List Operand → Option Instr
  | [.r a, .r b, .imm v] =>
    (sregNamed? a).bind fun a => (sregNamed? b).bind fun b => (flagNamed? v).map (k a b)
  | _ => none

/-- A mnemonic and its operands, assembled. "MSET's reserve flag may be omitted and then is 0"
(30_encoding.md R90). -/
def assembleOps (mnemonic : String) (ops : List Operand) : Option Instr :=
  match mnemonic with
  | "NOP" => if ops = [] then some .nop else none
  | "LI" =>
    match ops with
    | [.r a, .imm n] => (sregNamed? a).bind fun a => (immNamed? 16 n).map (.li a)
    | _ => none
  | "GFLOG" => asmRR .gflog ops
  | "GFEXP" => asmRR .gfexp ops
  | "GFMUL" => asmRRR .gfmul ops
  | "PCLR" => asmP .pclr ops
  | "PPUSH" =>
    match ops with
    | [.p a, .r b] => (pregNamed? a).bind fun a => (sregNamed? b).map (.ppush a)
    | _ => none
  | "PPUSHI" =>
    match ops with
    | [.p a, .imm n] => (pregNamed? a).bind fun a => (immNamed? 8 n).map (.ppushi a)
    | _ => none
  | "PLEN" =>
    match ops with
    | [.r a, .p b] => (sregNamed? a).bind fun a => (pregNamed? b).map (.plen a)
    | _ => none
  | "PGET" =>
    match ops with
    | [.r a, .p b, .r c] =>
      (sregNamed? a).bind fun a => (pregNamed? b).bind fun b => (sregNamed? c).map (.pget a b)
    | _ => none
  | "PMUL" => asmPPP .pmul ops
  | "PMOD" => asmPPP .pmod ops
  | "RSGEN" => asmI .rsgen ops
  | "RSENC" => asmPP .rsenc ops
  | "RSGETG" => asmP .rsgetg ops
  | "MNEW" => asmI .mnew ops
  | "MGET" => asmRRR .mget ops
  | "MSET" =>
    match ops with
    | [.r a, .r b, .imm v] =>
      (sregNamed? a).bind fun a => (sregNamed? b).bind fun b =>
        (flagNamed? v).map (fun v => .mset a b v false)
    | [.r a, .r b, .imm v, .imm f] =>
      (sregNamed? a).bind fun a => (sregNamed? b).bind fun b =>
        (flagNamed? v).bind fun v => (flagNamed? f).map (.mset a b v)
    | _ => none
  | "MXOR" => asmCellV .mxor ops
  | "MRSV" => asmCellV .mrsv ops
  | "MISR" => asmRRR .misr ops
  | "MDARK" => asmR .mdark ops
  | "MTOT" => asmR .mtot ops
  | "MASK" =>
    match ops with
    | [.imm n] => if n < 8 then some (.mask (BitVec.ofNat 8 n)) else none
    | _ => none
  | "PEN1" => asmR .pen1 ops
  | "PEN2" => asmR .pen2 ops
  | "PEN3" => asmR .pen3 ops
  | "PEN4" => asmR .pen4 ops
  | "PEN" => asmR .pen ops
  | "BEST" => asmR .best ops
  | _ => none

/-! ### Characters -/

/-- A decimal digit. -/
def decDigit? (ch : Char) : Option Nat :=
  if '0'.toNat ≤ ch.toNat ∧ ch.toNat ≤ '9'.toNat then some (ch.toNat - '0'.toNat) else none

/-- A hexadecimal digit, in either case. -/
def hexDigit? (ch : Char) : Option Nat :=
  if '0'.toNat ≤ ch.toNat ∧ ch.toNat ≤ '9'.toNat then some (ch.toNat - '0'.toNat)
  else if 'A'.toNat ≤ ch.toNat ∧ ch.toNat ≤ 'F'.toNat then some (ch.toNat - 'A'.toNat + 10)
  else if 'a'.toNat ≤ ch.toNat ∧ ch.toNat ≤ 'f'.toNat then some (ch.toNat - 'a'.toNat + 10)
  else none

/-- The digits of a number in `base`, after the value `acc` read so far. -/
def digitsFrom (digit? : Char → Option Nat) (base : Nat) : Nat → List Char → Option Nat
  | acc, [] => some acc
  | acc, ch :: rest =>
    match digit? ch with
    | some d => digitsFrom digit? base (acc * base + d) rest
    | none => none

/-- A number "in decimal or with `0x` in hexadecimal" (30_encoding.md R90), at least one digit. -/
def number? : List Char → Option Nat
  | [] => none
  | '0' :: 'x' :: d :: rest => digitsFrom hexDigit? 16 0 (d :: rest)
  | d :: rest => digitsFrom decDigit? 10 0 (d :: rest)

/-- `r0`, `p3`, `#12`, `#0x1F`. A register number is one digit. -/
def operand? : List Char → Option Operand
  | ['r', d] => (decDigit? d).map .r
  | ['p', d] => (decDigit? d).map .p
  | '#' :: rest => (number? rest).map .imm
  | _ => none

/-- A space or a tab. -/
def isBlank (ch : Char) : Bool := ch == ' ' || ch == '\t'

/-- The characters without blanks at either end. -/
def trimBlanks (cs : List Char) : List Char :=
  ((cs.dropWhile isBlank).reverse.dropWhile isBlank).reverse

/-- The pieces between commas. -/
def splitCommas : List Char → List Char → List (List Char)
  | acc, [] => [acc.reverse]
  | acc, ch :: rest => if ch == ',' then acc.reverse :: splitCommas [] rest else splitCommas (ch :: acc) rest

/-- Every piece read as an operand, or none. -/
def operands? : List (List Char) → Option (List Operand)
  | [] => some []
  | piece :: rest =>
    match operand? (trimBlanks piece), operands? rest with
    | some o, some os => some (o :: os)
    | _, _ => none

/-- One line of text, its comment dropped, assembled (30_encoding.md R90). -/
def assembleChars (line : List Char) : Option Instr :=
  let body := trimBlanks (line.takeWhile (fun ch => ch != ';'))
  let mnemonic := body.takeWhile (fun ch => !isBlank ch)
  let rest := trimBlanks (body.dropWhile (fun ch => !isBlank ch))
  let pieces := if rest.isEmpty then some [] else operands? (splitCommas [] rest)
  pieces.bind (assembleOps (String.ofList mnemonic))

/-- An operand written out, an immediate in decimal. -/
def operandText : Operand → String
  | .r n => "r" ++ toString n
  | .p n => "p" ++ toString n
  | .imm n => "#" ++ toString n

/-- The text of a command (30_encoding.md R90). -/
def textOf (i : Instr) : String :=
  match operandsOf i with
  | [] => i.mnemonic
  | ops => i.mnemonic ++ " " ++ String.intercalate ", " (ops.map operandText)

/-! ### Pseudo-instructions (30_encoding.md R91) -/

/-- The four pseudo-instructions. -/
inductive Pseudo where
  | pload (pd : PReg) (bs : List Byte)
  | rsblk (pd pa : PReg) (n : Byte)
  | munrsv (ra rb : SReg)
  | munmask (p : Byte)
  deriving DecidableEq, Repr

/-- "each a fixed expansion into commands" (30_encoding.md R91). -/
def expand : Pseudo → List Instr
  | .pload pd bs => .pclr pd :: bs.map (.ppushi pd)
  | .rsblk pd pa n => [.rsgen n, .rsenc pd pa]
  | .munrsv ra rb => [.mrsv ra rb false]
  | .munmask p => [.mask p]

end Sys2Proof.Machine
end

