-- ==== Sys2Proof/Machine/HostProgram.lean ====
section
/-! DEFINITION. The well-behaved host of 45_system.md R246: it writes a command and polls until the block has
finished it, so the block is a function from the list of command words to the final state; and D0's calls as
command sequences with the read-out of their results (R247). -/

namespace Sys2Proof.Machine

/-- One command word issued and finished: the `CMD` write and, if it was accepted, the block's `Finish`. -/
def issue (w : Word) (s : State) : Result :=
  if (s.submit w).busy then finish (s.submit w) else .next (s.submit w)

/-- What follows a next state. -/
def andThen (r : Result) (k : State → Result) : Result :=
  match r with
  | .next t => k t
  | .fault e => .fault e
  | .refused e => .refused e

/-- One act after the other. -/
def inTurn {α : Type} (f : α → State → Result) : List α → State → Result
  | [], s => .next s
  | a :: as, s => andThen (f a s) (inTurn f as)

/-- A list of command words issued one after the other (20_memory.md R74). -/
def issueAll : List Word → State → Result := inTurn issue

/-- A list of commands run on the block: their words issued one after the other, as the expansions of
pseudo-instructions (30_encoding.md R91) and the command sequences of 45_system.md R247 are. After a fault the later
words are ignored (45_system.md R241). -/
def execAll (is : List Instr) : State → Result := issueAll (is.map encode)

/-- One command of a polling host: the window words it reads before it writes the command word (the poll that found
`BUSY` = 0, and the results of the command before), the word, and the window words it reads before the block's
`Finish` (polls that find `BUSY` = 1, or any other read). -/
structure Round where
  before : List (BitVec 5)
  word : Word
  during : List (BitVec 5)
  deriving DecidableEq, Repr

/-- The events of one command: reads, `WriteCmd`, reads, `Finish` (45_system.md R246). -/
def Round.events (r : Round) : List Event :=
  r.before.map .read ++ .write 0 r.word :: (r.during.map .read ++ [.finish])

/-- The events of a polling host: every `WriteCmd` comes after the `Finish` of the command before (45_system.md R246). -/
def pollingSchedule : List Round → List Event
  | [] => []
  | r :: rs => r.events ++ pollingSchedule rs

/-! ### D0's calls (45_system.md R247) -/

/-- D0's operations in scope (45_system.md R247), a number that `LI` loads given in 16 bits (log 21). `encode` carries
the N its ReedSolomon object was constructed with, which the host needs to read the codewords. -/
inductive D0Call where
  | log (n : BitVec 16)
  | exp (n : BitVec 16)
  | mul (a b : BitVec 16)
  | polyMul (a b : List Byte)
  | polyMod (s d : List Byte)
  | reedSolomon (n : Byte)
  | encode (n : Byte) (data : List Byte)
  | newMatrix (version : Byte)
  | get (r c : BitVec 16)
  | set (r c : BitVec 16) (v reserve : Bool)
  | xor (r c : BitVec 16) (v : Bool)
  | markReserved (r c : BitVec 16) (v : Bool)
  | isReserved (r c : BitVec 16)
  | counts
  | applyMask (p : Byte)
  | getBestMask
  | size
  deriving DecidableEq, Repr

/-- The command sequences of 45_system.md R247. DESIGN CHOICE (log 21): the rows of `markReserved` and `isReserved` list
only `MRSV r1, r2, #v` and `MISR r0, r1, r2`; the two `LI` in front of them, which put the row in `r1` and the column in
`r2` as in the rows of `get`, `set` and `xor`, are the model's. So is the 16-bit width of the numbers `LI` loads where a
row gives no bound. The sequence of `encode` finds the generator that `ReedSolomon(N)` made. -/
def D0Call.commands : D0Call → List Instr
  | .log n => [.li 1 n, .gflog 0 1]
  | .exp n => [.li 1 n, .gfexp 0 1]
  | .mul a b => [.li 1 a, .li 2 b, .gfmul 0 1 2]
  | .polyMul a b => expand (.pload 0 a) ++ expand (.pload 1 b) ++ [.pmul 2 0 1]
  | .polyMod s d => expand (.pload 0 s) ++ expand (.pload 1 d) ++ [.pmod 2 0 1]
  | .reedSolomon n => [.rsgen n]
  | .encode _ data => expand (.pload 0 data) ++ [.rsenc 1 0]
  | .newMatrix v => [.mnew v]
  | .get r c => [.li 1 r, .li 2 c, .mget 0 1 2]
  | .set r c v f => [.li 1 r, .li 2 c, .mset 1 2 v f]
  | .xor r c v => [.li 1 r, .li 2 c, .mxor 1 2 v]
  | .markReserved r c v => [.li 1 r, .li 2 c, .mrsv 1 2 v]
  | .isReserved r c => [.li 1 r, .li 2 c, .misr 0 1 2]
  | .counts => [.mdark 0, .mtot 1]
  | .applyMask p => [.mask p]
  | .getBestMask => [.best 0]
  | .size => []

/-- Where a result is read from: the column "result read from" of 45_system.md R247. -/
inductive Readout where
  /-- A window word by its index. -/
  | word (index : BitVec 5)
  /-- `PLEN`, then `PGET` per index, of this register. -/
  | polynomial (pa : PReg)
  /-- `PGET` for index 0 to N - 1, of this register. -/
  | codewords (pa : PReg) (n : Byte)
  deriving DecidableEq, Repr

/-- The column "result read from" of 45_system.md R247, row by row: `R0` and `R1` are words 8 and 9, `GN` word 5,
`STATUS` (for `GVALID`) word 1, `MSIZE` word 6, `MINPEN` word 7 (10_state.md R30). The rows whose cell is empty read
nothing. -/
def D0Call.results : D0Call → List Readout
  | .log _ => [.word 8]
  | .exp _ => [.word 8]
  | .mul _ _ => [.word 8]
  | .polyMul _ _ => [.polynomial 2]
  | .polyMod _ _ => [.polynomial 2]
  | .reedSolomon _ => [.word 5, .word 1]
  | .encode n _ => [.codewords 1 n]
  | .newMatrix _ => [.word 6]
  | .get _ _ => [.word 8]
  | .set _ _ _ _ => []
  | .xor _ _ _ => []
  | .markReserved _ _ _ => []
  | .isReserved _ _ => [.word 8]
  | .counts => [.word 8, .word 9]
  | .applyMask _ => []
  | .getBestMask => [.word 8, .word 7]
  | .size => [.word 6]

/-- Commands issued and then the window word `R0` read, where the last leaves its result. -/
def askR0 (is : List Instr) (s : State) : Result :=
  andThen (execAll is s) fun t => .next (t.hostRead 8)

/-- "one `LI` and one `PGET` per coefficient, because PGET takes its index from a register" (45_system.md R247). That
the index goes through `r1` and the coefficient through `r0` is the model's choice (DESIGN CHOICE, log 21). -/
def askCoeff (pa : PReg) (j : Nat) : State → Result := askR0 [.li 1 (BitVec.ofNat 16 j), .pget 0 pa 1]

/-- A result read out: what the host learns is added to its answers (log 4). The length that `PLEN r0, pa` leaves (through
`r0` by the model's choice, log 21) tells the host how many coefficients to ask for. -/
def readOut : Readout → State → Result
  | .word i, s => .next (s.hostRead i)
  | .polynomial pa, s =>
    andThen (askR0 [.plen 0 pa] s) fun t => inTurn (askCoeff pa) (List.range (t.answers.headD 0).toNat) t
  | .codewords pa n, s => inTurn (askCoeff pa) (List.range n.toNat) s

/-- One of D0's calls carried out on the block (45_system.md R247): its commands, and then, by the host's protocol of
R244, `FCAUSE` and `FINFO` if they ended in a fault, its results otherwise. -/
def D0Call.perform (c : D0Call) (s : State) : Result :=
  andThen (execAll c.commands s) fun t =>
    inTurn readOut (if t.fault then [.word 2, .word 3] else c.results) t

end Sys2Proof.Machine
end

