-- ==== Sys2Proof/Safety.lean ====
section
/-! DEFINITION. The terms claims are made in: the invariants of 10_state.md R42, which faults a command can
raise (60_exceptions.md R252), what it writes, and when nothing has gone wrong. -/

namespace Sys2Proof.Machine

/-! ### Invariants of every reachable state (10_state.md R42) -/

/-- R42 (a): no polynomial register exceeds its capacity. (Coefficients are bytes by their type.) -/
def State.PolysOk (s : State) : Prop := ∀ k : PReg, (s.getPoly k).length ≤ Config.pcap

/-- R42 (b) and 10_state.md R25: the generator is `rs_gen(GN)`; without one, `GN` = 0 and `G` is empty. -/
def State.GenOk (s : State) : Prop :=
  if s.gvalid then s.gen = rsGen s.gn.toNat else s.gn = 0 ∧ s.gen = []

/-- R42 (c): the size is that of a version; without a matrix it is 0. -/
def State.SizeOk (s : State) : Prop :=
  if s.mvalid then ∃ v, Config.verMin ≤ v ∧ v ≤ Config.verMax ∧ s.msize.toNat = sizeOfVersion v
  else s.msize = 0

/-- 10_state.md R26: `MSIZE` by `MSIZE` cells, or none without a matrix. -/
def State.GridOk (s : State) : Prop := Memory.wf s.mvalid s.msize s.grid = true

/-- R42 (d), 10_state.md R33 and R34: `FAULT` exactly when `FCAUSE` is not 0, the cause at most 8, `FINFO` 0
without a fault; and a block in the fault state is not busy (R260, R241). -/
def State.FaultOk (s : State) : Prop :=
  (s.fault = true ↔ s.fcause ≠ 0) ∧ s.fcause.toNat ≤ 8 ∧ (s.fault = false → s.finfo = 0) ∧
    (s.fault = true → s.busy = false)

/-- The matrix part: size and shape. -/
def State.MatrixOk (s : State) : Prop := s.SizeOk ∧ s.GridOk

/-- All of them. -/
def State.Inv (s : State) : Prop := s.PolysOk ∧ s.GenOk ∧ s.MatrixOk ∧ s.FaultOk

/-! ### What a safe run is -/

/-- Nothing has gone wrong: no fault, and no command word lost (70_reset_and_hazards.md R289). -/
def State.Quiet (s : State) : Prop := s.fault = false ∧ s.ovr = false

/-- Idle and without a fault: the next `CMD` write is accepted (45_system.md R241). -/
def State.Ready (s : State) : Prop := s.fault = false ∧ s.busy = false

/-- `fault(k, w)` of 60_exceptions.md R260 with the code `k`, written out: the four pieces it changes. -/
def State.faulted (s : State) (k : Byte) : State :=
  { s with fault := true, fcause := k, finfo := s.held, busy := false }

/-- The same block, whatever the host has still to do and has been told: the fields of 10_state.md agree, but
for `OVR` (45_system.md R241: a dropped write changes it alone). -/
def State.SameBlock (s t : State) : Prop :=
  { s with ovr := false, schedule := [], answers := [], draws := 0 } =
    { t with ovr := false, schedule := [], answers := [], draws := 0 }

/-! ### Which fault a command raises (60_exceptions.md R252, in check order) -/

/-- The first condition that holds, in the order of the list. -/
def firstCause : List (Bool × Cause) → Option Cause
  | [] => none
  | (true, k) :: _ => some k
  | (false, _) :: rest => firstCause rest

/-- `GVALID` = 0 (R271). -/
def State.lacksGen (s : State) : Bool × Cause := (!s.gvalid, .noGen)

/-- `MVALID` = 0 (R272). -/
def State.lacksMat (s : State) : Bool × Cause := (!s.mvalid, .noMat)

/-- A register value that is no field element (R273). -/
def State.tooBig (s : State) (r : SReg) : Bool × Cause := (decide (255 < (s.getReg r).toNat), .range)

/-- A coordinate at or beyond `MSIZE` (R277). -/
def State.outOfBounds (s : State) (ra rb : SReg) : Bool × Cause :=
  (decide (s.msize.toNat ≤ (s.getReg ra).toNat ∨ s.msize.toNat ≤ (s.getReg rb).toNat), .oob)

/-- The faults of a command with their conditions, in the order of 60_exceptions.md R252; the conditions are
those of R271 to R277. -/
def faultChecks (s : State) : Instr → List (Bool × Cause)
  | .nop => []
  | .li _ _ => []
  | .gflog _ ra => [(decide ((s.getReg ra).toNat % 256 = 0), .logZero)]
  | .gfexp _ _ => []
  | .gfmul _ ra rb => [s.tooBig ra, s.tooBig rb]
  | .pclr _ => []
  | .ppush pd ra => [s.tooBig ra, (decide ((s.getPoly pd).length = 256), .len)]
  | .ppushi pd _ => [(decide ((s.getPoly pd).length = 256), .len)]
  | .plen _ _ => []
  | .pget _ pa rb => [(decide ((s.getPoly pa).length ≤ (s.getReg rb).toNat), .len)]
  | .pmul _ pa pb =>
    [(decide ((s.getPoly pa).length = 0 ∨ (s.getPoly pb).length = 0), .len),
     (decide (256 < (s.getPoly pa).length + (s.getPoly pb).length - 1), .len)]
  | .pmod _ _ pb => [(decide (¬ (s.getPoly pb)[0]? = some 1), .divisor)]
  | .rsgen _ => []
  | .rsenc _ pa => [s.lacksGen, (decide (256 < (s.getPoly pa).length + s.gn.toNat), .len)]
  | .rsgetg _ => [s.lacksGen]
  | .mnew v => [(decide (v.toNat < 1 ∨ 40 < v.toNat), .range)]
  | .mget _ ra rb => [s.lacksMat, s.outOfBounds ra rb]
  | .mset ra rb _ _ => [s.lacksMat, s.outOfBounds ra rb]
  | .mxor ra rb _ => [s.lacksMat, s.outOfBounds ra rb]
  | .mrsv ra rb _ => [s.lacksMat, s.outOfBounds ra rb]
  | .misr _ ra rb => [s.lacksMat, s.outOfBounds ra rb]
  | .mdark _ => [s.lacksMat]
  | .mtot _ => [s.lacksMat]
  | .mask _ => [s.lacksMat]
  | .pen1 _ => [s.lacksMat]
  | .pen2 _ => [s.lacksMat]
  | .pen3 _ => [s.lacksMat]
  | .pen4 _ => [s.lacksMat]
  | .pen _ => [s.lacksMat]
  | .best _ => [s.lacksMat]

/-- The fault the command raises in `s`, if any. -/
def faultOf (s : State) (i : Instr) : Option Cause := firstCause (faultChecks s i)

/-! ### What a command may write (the "written by" lists of 10_state.md R21, R24, R25, R26, R27) -/

/-- Which pieces of state a command may write. -/
structure Writes where
  reg : Option SReg := none
  poly : Option PReg := none
  generator : Bool := false
  /-- `MVALID` and `MSIZE`. -/
  matrix : Bool := false
  /-- The value plane. -/
  values : Bool := false
  /-- The reserved plane. -/
  reserved : Bool := false
  minpen : Bool := false
  deriving DecidableEq, Repr

/-- The lists of 10_state.md R21 (scalar registers), R24 (polynomial registers), R25 (generator), R26 (matrix
store; BEST restores what it writes) and R27 (`MINPEN`), with 43_matrix.md R182 (c) for the reserved plane. -/
def writesOf : Instr → Writes
  | .nop => {}
  | .li rd _ => { reg := rd }
  | .gflog rd _ => { reg := rd }
  | .gfexp rd _ => { reg := rd }
  | .gfmul rd _ _ => { reg := rd }
  | .pclr pd => { poly := pd }
  | .ppush pd _ => { poly := pd }
  | .ppushi pd _ => { poly := pd }
  | .plen rd _ => { reg := rd }
  | .pget rd _ _ => { reg := rd }
  | .pmul pd _ _ => { poly := pd }
  | .pmod pd _ _ => { poly := pd }
  | .rsgen _ => { generator := true }
  | .rsenc pd _ => { poly := pd }
  | .rsgetg pd => { poly := pd }
  | .mnew _ => { matrix := true, values := true, reserved := true }
  | .mget rd _ _ => { reg := rd }
  | .mset _ _ _ f => { values := true, reserved := f }
  | .mxor _ _ _ => { values := true }
  | .mrsv _ _ _ => { reserved := true }
  | .misr rd _ _ => { reg := rd }
  | .mdark rd => { reg := rd }
  | .mtot rd => { reg := rd }
  | .mask _ => { values := true }
  | .pen1 rd => { reg := rd }
  | .pen2 rd => { reg := rd }
  | .pen3 rd => { reg := rd }
  | .pen4 rd => { reg := rd }
  | .pen rd => { reg := rd }
  | .best rd => { reg := rd, minpen := true }

end Sys2Proof.Machine
end

