-- ==== Sys2Proof/Safety/Reference.lean ====
section
/-! DEFINITION. Readings of the rules that do not go through the machine's own functions: the field without tables,
polynomials by coefficients and values, lines, runs, blocks and windows by their places. Claims compare the
machine with these. -/

namespace Sys2Proof.Machine.Ref

/-! ### Operands in the word -/

/-- The number in bits `lo + n - 1` down to `lo` of a word (00_scope.md R9). -/
def bitsAt (w : Word) (lo n : Nat) : Nat := w.toNat / 2 ^ lo % 2 ^ n

/-- Each operand is the number in the bits that 30_encoding.md R81 gives it: the first register in bits 23 to 20, the
second in bits 19 to 16, the third in bits 15 to 12 (in FRR row and column are the second and third, `v` is bit 20 and
`f` bit 21), immediates from bit 0 up (R83). -/
def operandsAt (w : Word) : Instr → Prop
  | .nop => True
  | .li rd imm => bitsAt w 20 3 = rd ∧ bitsAt w 0 16 = imm.toNat
  | .gflog rd ra => bitsAt w 20 3 = rd ∧ bitsAt w 16 3 = ra
  | .gfexp rd ra => bitsAt w 20 3 = rd ∧ bitsAt w 16 3 = ra
  | .gfmul rd ra rb => bitsAt w 20 3 = rd ∧ bitsAt w 16 3 = ra ∧ bitsAt w 12 3 = rb
  | .pclr pd => bitsAt w 20 2 = pd
  | .ppush pd ra => bitsAt w 20 2 = pd ∧ bitsAt w 16 3 = ra
  | .ppushi pd imm => bitsAt w 20 2 = pd ∧ bitsAt w 0 8 = imm.toNat
  | .plen rd pa => bitsAt w 20 3 = rd ∧ bitsAt w 16 2 = pa
  | .pget rd pa rb => bitsAt w 20 3 = rd ∧ bitsAt w 16 2 = pa ∧ bitsAt w 12 3 = rb
  | .pmul pd pa pb => bitsAt w 20 2 = pd ∧ bitsAt w 16 2 = pa ∧ bitsAt w 12 2 = pb
  | .pmod pd pa pb => bitsAt w 20 2 = pd ∧ bitsAt w 16 2 = pa ∧ bitsAt w 12 2 = pb
  | .rsgen n => bitsAt w 0 8 = n.toNat
  | .rsenc pd pa => bitsAt w 20 2 = pd ∧ bitsAt w 16 2 = pa
  | .rsgetg pd => bitsAt w 20 2 = pd
  | .mnew v => bitsAt w 0 8 = v.toNat
  | .mget rd ra rb => bitsAt w 20 3 = rd ∧ bitsAt w 16 3 = ra ∧ bitsAt w 12 3 = rb
  | .mset ra rb v f => bitsAt w 16 3 = ra ∧ bitsAt w 12 3 = rb ∧ bitsAt w 20 1 = v.toNat ∧ bitsAt w 21 1 = f.toNat
  | .mxor ra rb v => bitsAt w 16 3 = ra ∧ bitsAt w 12 3 = rb ∧ bitsAt w 20 1 = v.toNat
  | .mrsv ra rb v => bitsAt w 16 3 = ra ∧ bitsAt w 12 3 = rb ∧ bitsAt w 20 1 = v.toNat
  | .misr rd ra rb => bitsAt w 20 3 = rd ∧ bitsAt w 16 3 = ra ∧ bitsAt w 12 3 = rb
  | .mdark rd => bitsAt w 20 3 = rd
  | .mtot rd => bitsAt w 20 3 = rd
  | .mask p => bitsAt w 0 3 = p.toNat
  | .pen1 rd => bitsAt w 20 3 = rd
  | .pen2 rd => bitsAt w 20 3 = rd
  | .pen3 rd => bitsAt w 20 3 = rd
  | .pen4 rd => bitsAt w 20 3 = rd
  | .pen rd => bitsAt w 20 3 = rd
  | .best rd => bitsAt w 20 3 = rd

/-! ### The field without tables -/

/-- Multiplication by x: "shifted left by one bit, and if the result has bit 8 set, xor `0x11D`" (10_state.md
R28). -/
def timesX (a : Nat) : Nat := if 256 ≤ 2 * a then (2 * a) ^^^ 0x11D else 2 * a

/-- x^i by the recurrence of 10_state.md R28. -/
def powX : Nat → Nat
  | 0 => 1
  | i + 1 => timesX (powX i)

/-- The loop of 40_gf.md R106 (e), `n` times, on the running result `r`. -/
def carrylessLoop : Nat → Nat → Nat → Nat → Nat
  | 0, r, _, _ => r
  | n + 1, r, a, b => carrylessLoop n (if b % 2 = 1 then r ^^^ a else r) (timesX a) (b / 2)

/-- "the carry-less product of a and b reduced modulo `0x11D`" (40_gf.md R106 e). -/
def carryless (a b : Nat) : Nat := carrylessLoop 8 0 a b

/-! ### Polynomials -/

/-- The coefficient at index `k` of a product: the xor of `gf_mul(a[i], b[j])` "for all `i+j` equal to that
index" (41_poly.md R121). -/
def productCoeff (a b : Poly) (k : Nat) : Byte :=
  (List.range a.length).foldl
    (fun acc i => if i ≤ k ∧ k - i < b.length then acc ^^^ gfMul (a.getD i 0) (b.getD (k - i) 0) else acc) 0

/-- The value of a polynomial at a field element, by Horner's rule (95_test_vectors.md section 4). -/
def valueAt (p : Poly) (x : Byte) : Byte := p.foldl (fun acc c => gfMul acc x ^^^ c) 0

/-- The list with zeros in front, to length `n` (41_poly.md R130 e). -/
def padFront (n : Nat) (p : Poly) : Poly := List.replicate (n - p.length) 0 ++ p

/-- The sum of two lists of one length. -/
def addPoly (a b : Poly) : Poly := List.zipWith (· ^^^ ·) a b

/-- `∏ (x − exp(i))` accumulated in the order of 42_rs.md R151. -/
def generatorProduct (n : Nat) : Poly := (List.range n).foldl (fun g i => polyMul g [1, gfExp i]) [1]

/-! ### The mask formulas -/

/-- The column "`mask_bit(p, i, j)` is true when" of 44_mask.md R201, row by row; i the row, j the column. -/
abbrev MaskBit (p i j : Nat) : Prop :=
  (p = 0 ∧ (i + j) % 2 = 0) ∨
  (p = 1 ∧ i % 2 = 0) ∨
  (p = 2 ∧ j % 3 = 0) ∨
  (p = 3 ∧ (i + j) % 3 = 0) ∨
  (p = 4 ∧ (i / 2 + j / 3) % 2 = 0) ∨
  (p = 5 ∧ i * j % 2 + i * j % 3 = 0) ∨
  (p = 6 ∧ (i * j % 2 + i * j % 3) % 2 = 0) ∨
  (p = 7 ∧ ((i + j) % 2 + i * j % 3) % 2 = 0)

/-! ### The matrix -/

/-- The dark cells of an S × S matrix, by their places (43_matrix.md R180). -/
def darkCells (size : Nat) (g : Grid) : Finset (Nat × Nat) :=
  (Finset.range size ×ˢ Finset.range size).filter (fun p => cellGet g p.1 p.2 = true)

/-- Cell `k` of line `n` (44_mask.md R204): of row `n` read left to right, or of column `n` read top to bottom. -/
def lineCell (g : Grid) (isRow : Bool) (n k : Nat) : Bool :=
  if isRow then cellGet g n k else cellGet g k n

/-- `L[k..e]` is a run of equal cells that "cannot be extended at either end within its line" (44_mask.md R205). -/
abbrev MaximalRun (l : Nat → Bool) (size k e : Nat) : Prop :=
  k ≤ e ∧ e < size ∧ (∀ j < size, k ≤ j → j ≤ e → l j = l k) ∧ (k = 0 ∨ l (k - 1) ≠ l k) ∧
    (e + 1 = size ∨ l (e + 1) ≠ l k)

/-- "Each maximal run of length L ≥ 5 adds L − 2, once" (44_mask.md R205). -/
def lineRuns (l : Nat → Bool) (size : Nat) : Nat :=
  ∑ k ∈ Finset.range size, ∑ e ∈ Finset.range size,
    if MaximalRun l size k e ∧ 5 ≤ e - k + 1 then e - k + 1 - 2 else 0

/-- A sum over the `2·S` lines. -/
def overLines (size : Nat) (g : Grid) (score : (Nat → Bool) → Nat) : Nat :=
  (∑ n ∈ Finset.range size, score (lineCell g true n)) +
    ∑ n ∈ Finset.range size, score (lineCell g false n)

/-- N1 by places (44_mask.md R205). -/
def runPenalty (size : Nat) (g : Grid) : Nat := overLines size g (fun l => lineRuns l size)

/-- N2 by places: the double loop of 44_mask.md R206. -/
def blockPenalty (size : Nat) (g : Grid) : Nat :=
  ∑ r ∈ Finset.range (size - 1), ∑ c ∈ Finset.range (size - 1),
    if cellGet g r c = cellGet g r (c + 1) ∧ cellGet g r c = cellGet g (r + 1) c ∧
        cellGet g r c = cellGet g (r + 1) (c + 1) then 3 else 0

/-- The window of 11 cells of a line at `k` (44_mask.md R207). -/
def windowAt (l : Nat → Bool) (k : Nat) : List Bool := (List.range 11).map (fun j => l (k + j))

/-- The digits of an 11-digit binary literal, left to right. -/
def digits11 (n : Nat) : List Bool := (List.range 11).map (fun j => n.testBit (10 - j))

/-- N3 of a line by places: the loop of 44_mask.md R207 with the two literals of D0. -/
def lineWindows (l : Nat → Bool) (size : Nat) : Nat :=
  ∑ k ∈ Finset.range (size - 10),
    if windowAt l k = digits11 0b10111010000 ∨ windowAt l k = digits11 0b00001011101 then 40 else 0

/-- N3 by places (44_mask.md R207). -/
def windowPenalty (size : Nat) (g : Grid) : Nat := overLines size g (fun l => lineWindows l size)

/-- N4 as the formula stands, "in exact rational arithmetic with a single rounding, the `ceil`" (44_mask.md
R208): `10 * |ceil(ratio/5)*5 - 50| / 5` with `ratio = 100 * d / t`. -/
def ratioPenalty (d t : Nat) : ℚ :=
  10 * |(⌈(100 * (d : ℚ) / t) / 5⌉ : ℚ) * 5 - 50| / 5

end Sys2Proof.Machine.Ref
end

