-- ==== Sys2Proof/Certificates/Slice0/Obligations.lean ====
section
/-! DEFINITION. Statements about the machine for the provers. `s.faulted k` is the fault entry of 60_exceptions.md R260
written out (Sys2Proof/Safety.lean); the names under `Ref` are the readings of Sys2Proof/Safety/Reference.lean. -/

open Sys2Proof Sys2Proof.Machine

/-! ### Encoding -/

/-- 30_encoding.md R80 to R85: for each of the thirty commands a word written out from the bit pictures, its operand
numbers distinct, decodes to it; malformed and unassigned words decode to none (95_test_vectors.md section 9). -/
def Obligations.DecoderReadsSpecWords : Prop :=
  decode 0x00000000 = .ok .nop ∧ decode 0x0130011D = .ok (.li 3 0x011D) ∧
  decode 0x10010000 = .ok (.gflog 0 1) ∧ decode 0x11260000 = .ok (.gfexp 2 6) ∧
  decode 0x12012000 = .ok (.gfmul 0 1 2) ∧ decode 0x20200000 = .ok (.pclr 2) ∧
  decode 0x21050000 = .ok (.ppush 0 5) ∧ decode 0x221000EC = .ok (.ppushi 1 236) ∧
  decode 0x23130000 = .ok (.plen 1 3) ∧ decode 0x24012000 = .ok (.pget 0 1 2) ∧
  decode 0x25201000 = .ok (.pmul 2 0 1) ∧ decode 0x26302000 = .ok (.pmod 3 0 2) ∧
  decode 0x3000000A = .ok (.rsgen 10) ∧ decode 0x31100000 = .ok (.rsenc 1 0) ∧
  decode 0x32300000 = .ok (.rsgetg 3) ∧ decode 0x40000028 = .ok (.mnew 40) ∧
  decode 0x41012000 = .ok (.mget 0 1 2) ∧ decode 0x42112000 = .ok (.mset 1 2 true false) ∧
  decode 0x42212000 = .ok (.mset 1 2 false true) ∧ decode 0x43112000 = .ok (.mxor 1 2 true) ∧
  decode 0x44112000 = .ok (.mrsv 1 2 true) ∧ decode 0x45312000 = .ok (.misr 3 1 2) ∧
  decode 0x46400000 = .ok (.mdark 4) ∧ decode 0x47500000 = .ok (.mtot 5) ∧
  decode 0x50000007 = .ok (.mask 7) ∧ decode 0x51600000 = .ok (.pen1 6) ∧
  decode 0x52100000 = .ok (.pen2 1) ∧ decode 0x53200000 = .ok (.pen3 2) ∧
  decode 0x54300000 = .ok (.pen4 3) ∧ decode 0x55400000 = .ok (.pen 4) ∧ decode 0x56700000 = .ok (.best 7) ∧
  decode 0x00000001 = .error .malformed ∧ decode 0x43312000 = .error .malformed ∧
  decode 0x50000008 = .error .malformed ∧ decode 0x02000000 = .error .unknownOpcode

/-- Every well-formed command is what its word decodes to. -/
def Obligations.DecodeEncodeRoundTrip : Prop :=
  ∀ i : Instr, i.wf = true → decode (encode i) = .ok i

/-- Every word that decodes is the word of its command, which is well-formed: no two words are one command. Each
operand is the number in the bits 30_encoding.md R81 and R83 give it. -/
def Obligations.DecodedWordIsItsEncoding : Prop :=
  ∀ (w : Word) (i : Instr), decode w = .ok i → encode i = w ∧ i.wf = true ∧ Ref.operandsAt w i

/-- 30_encoding.md R84: a word is the command of a row exactly when `cw & mask == match` for that row, rows are
exclusive, and a word that matches no row is illegal. -/
def Obligations.DecoderAgreesWithOpcodeTable : Prop :=
  ∀ w : Word,
    (∀ i, decode w = .ok i → ∀ r ∈ opcodeRows, (r.accepts w = true ↔ r.mnemonic = i.mnemonic)) ∧
    ((∃ e, decode w = .error e) ↔ ∀ r ∈ opcodeRows, r.accepts w = false) ∧
    (∀ r ∈ opcodeRows, ∀ r' ∈ opcodeRows, r.accepts w = true → r'.accepts w = true → r = r')

/-- 30_encoding.md R90: mnemonic and operands written in the order of the text form assemble to the command, and
MSET's reserve flag defaults to 0. -/
def Obligations.TextFormNamesOneCommand : Prop :=
  (∀ i : Instr, i.wf = true → assembleOps i.mnemonic (operandsOf i) = some i) ∧
  (∀ (ra rb : SReg) (v : Bool),
    assembleOps "MSET" [.r ra, .r rb, .imm v.toNat] = some (.mset ra rb v false))

/-! ### Steps and the command protocol -/

/-- A busy block's `Finish` runs the command the held word decodes to; so does a step with no event left. -/
def Obligations.FinishRunsHeldCommand : Prop :=
  ∀ (s : State) (i : Instr), s.busy = true → decode s.held = .ok i →
    (∀ rest, s.schedule = .finish :: rest → step s = exec i { s with schedule := rest }) ∧
    (s.schedule = [] → step s = exec i s)

/-- 60_exceptions.md R270: a held word that decodes to illegal raises `E_ILLEGAL`, code 1, whatever the state. -/
def Obligations.IllegalWordRaisesIllegal : Prop :=
  ∀ (s : State) (e : Reject) (rest : List Event), s.busy = true → decode s.held = .error e →
    s.schedule = .finish :: rest → step s = .next (({ s with schedule := rest } : State).faulted 1)

/-- 45_system.md R241: the three outcomes of a write to `CMD`, tested in this order. -/
def Obligations.SubmissionHasThreeOutcomes : Prop :=
  ∀ (s : State) (w : Word) (rest : List Event), s.schedule = .write 0 w :: rest →
    (s.fault = true → step s = .next { s with schedule := rest }) ∧
    (s.fault = false → s.busy = true → step s = .next { s with schedule := rest, ovr := true }) ∧
    (s.fault = false → s.busy = false →
      step s = .next { s with schedule := rest, busy := true, held := w })

/-- 70_reset_and_hazards.md R280: `rst` and a write to `CTRL` with bit 0 = 1 have the same effect in every state;
a write to `CTRL` with bit 0 = 0 has none (10_state.md R35). The host's own three fields stay (log 13). -/
def Obligations.BothResetsGiveTheResetState : Prop :=
  ∀ (s : State) (rest : List Event) (w : Word),
    (s.schedule = .reset :: rest →
      step s = .next { State.reset with schedule := rest, answers := s.answers, draws := s.draws }) ∧
    (s.schedule = .write 4 w :: rest → w.getLsbD 0 = true →
      step s = .next { State.reset with schedule := rest, answers := s.answers, draws := s.draws }) ∧
    (s.schedule = .write 4 w :: rest → w.getLsbD 0 = false → step s = .next { s with schedule := rest })

/-- 70_reset_and_hazards.md R281: the state after reset, piece by piece; `STATUS` reads 0 and any command word is
accepted at once. -/
def Obligations.ResetStateIsAllZero : Prop :=
  (∀ i, State.reset.getReg i = 0) ∧ (∀ k, State.reset.getPoly k = []) ∧
  State.reset.gen = [] ∧ State.reset.gn = 0 ∧ State.reset.gvalid = false ∧
  State.reset.mvalid = false ∧ State.reset.msize = 0 ∧ State.reset.grid = [] ∧ State.reset.minpen = 0 ∧
  State.reset.busy = false ∧ State.reset.fault = false ∧ State.reset.ovr = false ∧
  State.reset.fcause = 0 ∧ State.reset.finfo = 0 ∧ State.reset.windowWord 1 = 0 ∧
  (∀ w, (State.reset.submit w).busy = true ∧ (State.reset.submit w).held = w)

/-- An idle block with no access to come "does nothing and changes no state" (60_exceptions.md R268); that a run goes
on by steps that change nothing is the model's convention (log 2). A write to a read-only or unmapped word is
ignored (10_state.md R40). -/
def Obligations.IdleBlockAndIgnoredWritesChangeNothing : Prop :=
  ∀ s : State,
    (s.schedule = [] → s.busy = false → step s = .next s) ∧
    (∀ (i : BitVec 5) (w : Word) (rest : List Event), s.schedule = .write i w :: rest → i ≠ 0 → i ≠ 4 →
      step s = .next { s with schedule := rest })

/-- 45_system.md R244 with 10_state.md R27 and R30 to R40: what a host read returns while `BUSY` = 0, word by word; the
read changes nothing but the host's list of answers (log 4). -/
def Obligations.IdleReadReturnsWindowWord : Prop :=
  ∀ (s : State) (i : BitVec 5) (rest : List Event), s.schedule = .read i :: rest → s.busy = false →
    ∃ w : Word, step s = .next { s with schedule := rest, answers := w :: s.answers } ∧
      (i = 1 → w.getLsbD 0 = s.busy ∧ w.getLsbD 1 = s.fault ∧ w.getLsbD 2 = s.ovr ∧
        w.getLsbD 3 = s.gvalid ∧ w.getLsbD 4 = s.mvalid ∧ ∀ k, 5 ≤ k → w.getLsbD k = false) ∧
      (i = 2 → w.toNat = s.fcause.toNat) ∧ (i = 3 → w = s.finfo) ∧ (i = 5 → w.toNat = s.gn.toNat) ∧
      (i = 6 → w.toNat = s.msize.toNat) ∧ (i = 7 → w = s.minpen) ∧
      (∀ r : SReg, i.toNat = 8 + r.val → w = s.getReg r) ∧ (i = 16 → w = 0x52534D31) ∧
      (i = 0 ∨ i = 4 ∨ 17 ≤ i.toNat → w = 0)

/-- 70_reset_and_hazards.md R285 and 45_system.md R244: while `BUSY` = 1 a read of `FCAUSE`, `FINFO`, `GN`, `MSIZE`, `MINPEN`
or `R0` to `R7` returns some value, free in the model (log 3, log 5), and `STATUS` is exact (10_state.md R32). No read
changes the block. THE MODEL'S READING (log 3, DEDUCED): that `ID` reads its constant and that the write-only and the
unmapped words read 0 while `BUSY` = 1 follows the list of R244 and R285 against 20_memory.md R75, 10_state.md R32 and
70_reset_and_hazards.md R288 (a), which open every word but `STATUS`. -/
def Obligations.BusyReadChangesOnlyTheAnswer : Prop :=
  ∀ (s : State) (i : BitVec 5) (rest : List Event), s.schedule = .read i :: rest → s.busy = true →
    (i = 1 → ∃ w : Word, step s = .next { s with schedule := rest, answers := w :: s.answers } ∧
      w.getLsbD 0 = true ∧ w.getLsbD 1 = s.fault ∧ w.getLsbD 2 = s.ovr ∧ w.getLsbD 3 = s.gvalid ∧
      w.getLsbD 4 = s.mvalid ∧ ∀ k, 5 ≤ k → w.getLsbD k = false) ∧
    (i = 16 → step s = .next { s with schedule := rest, answers := 0x52534D31 :: s.answers }) ∧
    (i = 0 ∨ i = 4 ∨ 17 ≤ i.toNat → step s = .next { s with schedule := rest, answers := 0 :: s.answers }) ∧
    (i = 2 ∨ i = 3 ∨ (5 ≤ i.toNat ∧ i.toNat ≤ 15) → ∃ w : Word, step s =
      .next { s with schedule := rest, answers := w :: s.answers, draws := s.draws + 1 })

/-- 60_exceptions.md R252 (with R251, R259, R260, R262): a command whose first condition of the table holds takes exactly
that fault and changes nothing else; a command with no condition holding completes, and leaves the fault state, `OVR`
and the host's side as they were. -/
def Obligations.FaultsAreThoseOfTheTable : Prop :=
  ∀ (i : Instr) (s : State),
    (∀ k, faultOf s i = some k → exec i s = .next (s.faulted k.code)) ∧
    (faultOf s i = none → ∃ t, exec i s = .next t ∧ t.busy = false ∧ t.fault = s.fault ∧
      t.fcause = s.fcause ∧ t.finfo = s.finfo ∧ t.ovr = s.ovr ∧ t.held = s.held ∧
      t.schedule = s.schedule ∧ t.answers = s.answers ∧ t.draws = s.draws)

/-- 60_exceptions.md R261: in the fault state (where the block is not busy) no event but a reset changes the block. -/
def Obligations.FaultStateIsLeftOnlyByReset : Prop :=
  ∀ (s : State) (e : Event) (rest : List Event), s.fault = true → s.busy = false → s.schedule = e :: rest →
    e ≠ .reset → (∀ w, e = .write 4 w → w.getLsbD 0 = false) →
    ∃ a, step s = .next { s with schedule := rest, answers := a }

/-- 10_state.md R42 (e) and R23: `FAULT`, `OVR`, `GVALID` and `MVALID`, once 1, stay 1 over every step that is no reset. -/
def Obligations.StickyFlagsStaySet : Prop :=
  ∀ s t : State, step s = .next t → (∀ rest, s.schedule ≠ .reset :: rest) →
    (∀ w rest, s.schedule = .write 4 w :: rest → w.getLsbD 0 = false) →
    (s.fault = true → t.fault = true) ∧ (s.ovr = true → t.ovr = true) ∧
    (s.gvalid = true → t.gvalid = true) ∧ (s.mvalid = true → t.mvalid = true)

/-- 10_state.md R42 (a) to (d): every step, from every state that meets the invariant, gives a state that meets it. -/
def Obligations.EveryStepKeepsTheInvariant : Prop :=
  ∀ s t : State, s.Inv → step s = .next t → t.Inv

/-- The reset state meets the invariant of 10_state.md R42. -/
def Obligations.ResetStateMeetsTheInvariant : Prop := State.reset.Inv

/-- 45_system.md R246: for a host that writes each `CMD` after the `Finish` of the command before, whatever it reads before,
during and after each command, the block is a function of the list of command words. The scheduled run ends in the
block the fold `issueAll` gives, and no command word is lost (70_reset_and_hazards.md R289 a). -/
def Obligations.PollingHostRunsItsCommandList : Prop :=
  ∀ (rounds : List Round) (after : List (BitVec 5)) (s : State), s.busy = false →
    s.schedule = pollingSchedule rounds ++ after.map .read →
    ∃ t u, core.run s.schedule.length s = .next t ∧
      issueAll (rounds.map Round.word) { s with schedule := [] } = .next u ∧ t.SameBlock u ∧
      t.busy = false ∧ t.ovr = s.ovr ∧ u.ovr = s.ovr ∧ t.schedule = []

/-- 45_system.md R243 and 70_reset_and_hazards.md R287: a busy block is idle again after at most one step more than there are
events left, whatever the host does. -/
def Obligations.BusyBlockBecomesIdle : Prop :=
  ∀ s : State, s.busy = true →
    ∃ k t, k ≤ s.schedule.length + 1 ∧ core.run k s = .next t ∧ t.busy = false

/-- 45_system.md R242: what the host does between acceptance and completion, short of a reset, does not change what the
command does. The two runs end in the same block, but for `OVR`, which a dropped write sets (R241). -/
def Obligations.HostCannotDisturbARunningCommand : Prop :=
  ∀ (s : State) (es rest : List Event), s.busy = true → s.schedule = es ++ .finish :: rest →
    (∀ e ∈ es, e ≠ .finish ∧ e ≠ .reset ∧ ∀ w, e = .write 4 w → w.getLsbD 0 = false) →
    ∃ t t', core.run (es.length + 1) s = .next t ∧ step { s with schedule := .finish :: rest } = .next t' ∧
      t.SameBlock t' ∧ t.schedule = rest

/-! ### What commands leave alone -/

/-- 10_state.md R21, R24, R25, R26, R27, the "written by" lists: a command changes no scalar register, polynomial register,
generator, matrix size, cell value, reserved bit or `MINPEN` outside its list, and never `OVR`, the held word or the
host's side. -/
def Obligations.CommandsWriteOnlyTheirLists : Prop :=
  ∀ (i : Instr) (s t : State), exec i s = .next t →
    (∀ j, (writesOf i).reg ≠ some j → t.getReg j = s.getReg j) ∧
    (∀ k, (writesOf i).poly ≠ some k → t.getPoly k = s.getPoly k) ∧
    ((writesOf i).generator = false → t.gen = s.gen ∧ t.gn = s.gn ∧ t.gvalid = s.gvalid) ∧
    ((writesOf i).matrix = false → t.mvalid = s.mvalid ∧ t.msize = s.msize) ∧
    ((writesOf i).values = false → ∀ r c, cellGet t.grid r c = cellGet s.grid r c) ∧
    ((writesOf i).reserved = false → ∀ r c, cellIsRsv t.grid r c = cellIsRsv s.grid r c) ∧
    ((writesOf i).minpen = false → t.minpen = s.minpen) ∧
    t.ovr = s.ovr ∧ t.held = s.held ∧ t.schedule = s.schedule ∧ t.answers = s.answers ∧ t.draws = s.draws

/-- 43_matrix.md R182 (b) and (c): the value of a reserved cell outlives every command but MNEW; a reserved bit becomes 1
only by MSET with f = 1 or MRSV with v = 1, and 0 only by MRSV with v = 0 or MNEW. -/
def Obligations.ReservationFreezesCells : Prop :=
  ∀ (i : Instr) (s t : State) (r c : Nat), exec i s = .next t →
    (cellIsRsv s.grid r c = true → (∀ v, i ≠ .mnew v) → cellGet t.grid r c = cellGet s.grid r c) ∧
    (cellIsRsv s.grid r c = false → cellIsRsv t.grid r c = true →
      (∃ ra rb v, i = .mset ra rb v true) ∨ (∃ ra rb, i = .mrsv ra rb true)) ∧
    (cellIsRsv s.grid r c = true → cellIsRsv t.grid r c = false →
      (∃ ra rb, i = .mrsv ra rb false) ∨ (∃ v, i = .mnew v))

/-! ### Scalar and GF(256) commands -/

/-- 45_system.md R240: NOP is the all-zero word and only that word; it completes in every state and changes nothing. -/
def Obligations.NopChangesNothing : Prop :=
  (∀ w : Word, decode w = .ok .nop ↔ w = 0) ∧ ∀ s : State, exec .nop s = .next { s with busy := false }

/-- 40_gf.md R102: LI writes the zero-extended immediate and nothing else. -/
def Obligations.LiLoadsTheImmediate : Prop :=
  ∀ (rd : SReg) (imm : BitVec 16) (s : State), ∃ v : Word, v.toNat = imm.toNat ∧
    exec (.li rd imm) s = .next { s with regs := s.regs.set rd v, busy := false }

/-- 40_gf.md R103: GFLOG writes the exponent below 255 whose power of x is `x[ra] mod 256` (10_state.md R28), and raises
`E_LOGZERO` when that is 0. -/
def Obligations.GflogWritesTheDiscreteLog : Prop :=
  ∀ (rd ra : SReg) (s : State),
    ((s.getReg ra).toNat % 256 = 0 → exec (.gflog rd ra) s = .next (s.faulted 5)) ∧
    ((s.getReg ra).toNat % 256 ≠ 0 → ∃ l : Nat, l < 255 ∧ Ref.powX l = (s.getReg ra).toNat % 256 ∧
      exec (.gflog rd ra) s = .next { s with regs := s.regs.set rd (BitVec.ofNat 32 l), busy := false })

/-- 40_gf.md R104: GFEXP writes x to the power `x[ra] mod 255`, in every state. -/
def Obligations.GfexpWritesThePower : Prop :=
  ∀ (rd ra : SReg) (s : State), exec (.gfexp rd ra) s = .next { s with
    regs := s.regs.set rd (BitVec.ofNat 32 (Ref.powX ((s.getReg ra).toNat % 255))), busy := false }

/-- 40_gf.md R105 with R106 (e): GFMUL writes the carry-less product reduced modulo `0x11D`, and raises `E_RANGE` when a
source is above 255. -/
def Obligations.GfmulWritesTheFieldProduct : Prop :=
  ∀ (rd ra rb : SReg) (s : State),
    ((255 < (s.getReg ra).toNat ∨ 255 < (s.getReg rb).toNat) →
      exec (.gfmul rd ra rb) s = .next (s.faulted 4)) ∧
    ((s.getReg ra).toNat ≤ 255 → (s.getReg rb).toNat ≤ 255 →
      exec (.gfmul rd ra rb) s = .next { s with
        regs := s.regs.set rd (BitVec.ofNat 32 (Ref.carryless (s.getReg ra).toNat (s.getReg rb).toNat)),
        busy := false })

/-- 40_gf.md R106 (a) to (e): the laws of `gf_log`, `gf_exp` and `gf_mul`. -/
def Obligations.FieldLawsHold : Prop :=
  (∀ a : Byte, a ≠ 0 → ∃ l, gfLog? a = some l ∧ gfExp l = a) ∧
  (∀ i : Nat, gfLog? (gfExp i) = some (i % 255)) ∧
  (∀ a : Byte, gfMul a 0 = 0 ∧ gfMul 0 a = 0 ∧ gfMul a 1 = a) ∧
  (∀ a b : Byte, gfMul a b = gfMul b a) ∧
  (∀ a b c : Byte, gfMul (gfMul a b) c = gfMul a (gfMul b c)) ∧
  (∀ a b c : Byte, gfMul a (b ^^^ c) = gfMul a b ^^^ gfMul a c) ∧
  (∀ (a : Byte) (l : Nat), gfLog? a = some l → gfMul a (gfExp (255 - l)) = 1) ∧
  (∀ a b : Byte, gfMul a b = 0 → a = 0 ∨ b = 0) ∧
  (∀ a b : Byte, (gfMul a b).toNat = Ref.carryless a.toNat b.toNat)

/-! ### Polynomial commands -/

/-- 41_poly.md R123: PCLR empties the register, in every state. -/
def Obligations.PclrEmptiesTheRegister : Prop :=
  ∀ (pd : PReg) (s : State), exec (.pclr pd) s = .next { s with polys := s.polys.set pd [], busy := false }

/-- 41_poly.md R124: PPUSH appends at the least significant end; a value above 255 raises `E_RANGE`, else a full register
raises `E_LEN`. -/
def Obligations.PpushAppendsTheCoefficient : Prop :=
  ∀ (pd : PReg) (ra : SReg) (s : State),
    (255 < (s.getReg ra).toNat → exec (.ppush pd ra) s = .next (s.faulted 4)) ∧
    ((s.getReg ra).toNat ≤ 255 → (s.getPoly pd).length = 256 →
      exec (.ppush pd ra) s = .next (s.faulted 6)) ∧
    ((s.getReg ra).toNat ≤ 255 → (s.getPoly pd).length ≠ 256 → ∃ v : Byte, v.toNat = (s.getReg ra).toNat ∧
      exec (.ppush pd ra) s = .next { s with polys := s.polys.set pd (s.getPoly pd ++ [v]), busy := false })

/-- 41_poly.md R125: PPUSHI appends the immediate; a full register raises `E_LEN`. -/
def Obligations.PpushiAppendsTheImmediate : Prop :=
  ∀ (pd : PReg) (imm : Byte) (s : State),
    ((s.getPoly pd).length = 256 → exec (.ppushi pd imm) s = .next (s.faulted 6)) ∧
    ((s.getPoly pd).length ≠ 256 → exec (.ppushi pd imm) s =
      .next { s with polys := s.polys.set pd (s.getPoly pd ++ [imm]), busy := false })

/-- 41_poly.md R126: PLEN reads the length (at most 256 by the invariant), leading zeros included. -/
def Obligations.PlenReadsTheLength : Prop :=
  ∀ (rd : SReg) (pa : PReg) (s : State), s.PolysOk → ∃ v : Word, v.toNat = (s.getPoly pa).length ∧
    exec (.plen rd pa) s = .next { s with regs := s.regs.set rd v, busy := false }

/-- 41_poly.md R127: PGET reads the coefficient at the index in `x[rb]`, or raises `E_LEN` at or beyond the length. -/
def Obligations.PgetReadsTheCoefficient : Prop :=
  ∀ (rd : SReg) (pa : PReg) (rb : SReg) (s : State),
    ((s.getPoly pa).length ≤ (s.getReg rb).toNat → exec (.pget rd pa rb) s = .next (s.faulted 6)) ∧
    ((s.getReg rb).toNat < (s.getPoly pa).length → ∃ v : Word,
      v.toNat = ((s.getPoly pa).getD (s.getReg rb).toNat 0).toNat ∧
      exec (.pget rd pa rb) s = .next { s with regs := s.regs.set rd v, busy := false })

/-- 41_poly.md R128 with R121: PMUL writes the convolution, of length `len(a) + len(b) − 1`, each coefficient the xor of the
products that fall on it; an empty operand or a product above 256 coefficients raises `E_LEN`. -/
def Obligations.PmulWritesTheConvolution : Prop :=
  ∀ (pd pa pb : PReg) (s : State),
    (s.getPoly pa = [] ∨ s.getPoly pb = [] → exec (.pmul pd pa pb) s = .next (s.faulted 6)) ∧
    (256 < (s.getPoly pa).length + (s.getPoly pb).length - 1 →
      exec (.pmul pd pa pb) s = .next (s.faulted 6)) ∧
    (s.getPoly pa ≠ [] → s.getPoly pb ≠ [] → (s.getPoly pa).length + (s.getPoly pb).length - 1 ≤ 256 →
      ∃ r : Poly, r.length = (s.getPoly pa).length + (s.getPoly pb).length - 1 ∧
        (∀ k < r.length, r.getD k 0 = Ref.productCoeff (s.getPoly pa) (s.getPoly pb) k) ∧
        exec (.pmul pd pa pb) s = .next { s with polys := s.polys.set pd r, busy := false })

/-- 41_poly.md R129 with R122: PMOD by a monic divisor writes the remainder. A source shorter than the divisor is copied;
else the result is shorter than the divisor, has no leading zero, and differs from the source by a multiple of the
divisor. Any other divisor raises `E_DIVISOR`. -/
def Obligations.PmodWritesTheRemainder : Prop :=
  ∀ (pd pa pb : PReg) (s : State),
    ((s.getPoly pb)[0]? ≠ some 1 → exec (.pmod pd pa pb) s = .next (s.faulted 7)) ∧
    ((s.getPoly pb)[0]? = some 1 → ∃ r q : Poly,
      exec (.pmod pd pa pb) s = .next { s with polys := s.polys.set pd r, busy := false } ∧
      ((s.getPoly pa).length < (s.getPoly pb).length → r = s.getPoly pa) ∧
      ((s.getPoly pb).length ≤ (s.getPoly pa).length →
        r.length < (s.getPoly pb).length ∧ r[0]? ≠ some 0 ∧
        q.length = (s.getPoly pa).length - (s.getPoly pb).length + 1 ∧
        Ref.addPoly (polyMul q (s.getPoly pb)) (Ref.padFront (s.getPoly pa).length r) = s.getPoly pa))

/-- 41_poly.md R130 (a) and (b): `poly_mul` on nonempty lists is commutative and associative, its length is
`len(a) + len(b) − 1`, and `[1]` is neutral. -/
def Obligations.PolynomialProductLaws : Prop :=
  ∀ a b c : Poly, a ≠ [] → b ≠ [] → c ≠ [] →
    polyMul a b = polyMul b a ∧ polyMul (polyMul a b) c = polyMul a (polyMul b c) ∧
    (polyMul a b).length = a.length + b.length - 1 ∧ polyMul a [1] = a

/-- 41_poly.md R130 (c), (d), (e): the remainder by a monic divisor is short and has no leading zero, a multiple of the
divisor leaves the empty remainder, and appending the zero-padded remainder of the padded data cancels it. -/
def Obligations.PolynomialRemainderLaws : Prop :=
  ∀ d : Poly, d[0]? = some 1 →
    (∀ s : Poly, d.length ≤ s.length → (polyMod s d).length < d.length ∧ (polyMod s d)[0]? ≠ some 0) ∧
    (∀ q : Poly, q ≠ [] → polyMod (polyMul q d) d = []) ∧
    (∀ (s : Poly) (n : Nat), s ≠ [] → d.length = n + 1 →
      polyMod (s ++ Ref.padFront n (polyMod (s ++ List.replicate n 0) d)) d = [])

/-! ### Reed-Solomon commands -/

/-- 42_rs.md R153 with R151: RSGEN builds the product of `(x − exp(i))`, monic of length N + 1, records N and sets `GVALID`,
for every N and in every state. -/
def Obligations.RsgenBuildsTheGenerator : Prop :=
  ∀ (n : Byte) (s : State), ∃ g : Poly, g = Ref.generatorProduct n.toNat ∧ g.length = n.toNat + 1 ∧
    g[0]? = some 1 ∧
    exec (.rsgen n) s = .next { s with gen := g, gn := n, gvalid := true, busy := false }

/-- 42_rs.md R156 (e): the generator of every N, and the data followed by its EC codewords, take the value 0 at each of the
N roots. -/
def Obligations.GeneratorAndCodewordVanishAtTheRoots : Prop :=
  ∀ (n i : Nat) (data : Poly), n ≤ 255 → i < n →
    Ref.valueAt (rsGen n) (gfExp i) = 0 ∧ Ref.valueAt (data ++ rsEncode data n) (gfExp i) = 0

/-- 42_rs.md R154 with R152: RSENC needs a generator (`E_NOGEN`), then room (`E_LEN`), and then writes the GN codewords of
`rs_encode`. The held generator is `rs_gen(GN)` by the invariant. -/
def Obligations.RsencWritesTheCodewords : Prop :=
  ∀ (pd pa : PReg) (s : State),
    (s.gvalid = false → exec (.rsenc pd pa) s = .next (s.faulted 2)) ∧
    (s.gvalid = true → 256 < (s.getPoly pa).length + s.gn.toNat →
      exec (.rsenc pd pa) s = .next (s.faulted 6)) ∧
    (s.GenOk → s.gvalid = true → (s.getPoly pa).length + s.gn.toNat ≤ 256 → ∃ ec : Poly,
      ec = rsEncode (s.getPoly pa) s.gn.toNat ∧ ec.length = s.gn.toNat ∧
      exec (.rsenc pd pa) s = .next { s with polys := s.polys.set pd ec, busy := false })

/-- 42_rs.md R156 (a), D0's round trip: data followed by its EC codewords is a multiple of the generator. -/
def Obligations.ReedSolomonRoundTrip : Prop :=
  ∀ (data : Poly) (n : Nat), data ≠ [] → n ≤ 255 → polyMod (data ++ rsEncode data n) (rsGen n) = []

/-- 42_rs.md R156 (b), (c), (d): exactly N codewords, linear in the data, and blind to leading zero codewords. -/
def Obligations.ReedSolomonEncodingLaws : Prop :=
  ∀ (a b : Poly) (n : Nat), n ≤ 255 →
    (rsEncode a n).length = n ∧
    (a.length = b.length →
      rsEncode (Ref.addPoly a b) n = Ref.addPoly (rsEncode a n) (rsEncode b n)) ∧
    rsEncode (List.replicate a.length 0) n = List.replicate n 0 ∧
    rsEncode (0 :: a) n = rsEncode a n

/-- 42_rs.md R155: RSGETG copies the generator, or raises `E_NOGEN`. -/
def Obligations.RsgetgCopiesTheGenerator : Prop :=
  ∀ (pd : PReg) (s : State),
    (s.gvalid = false → exec (.rsgetg pd) s = .next (s.faulted 2)) ∧
    (s.gvalid = true → exec (.rsgetg pd) s = .next { s with polys := s.polys.set pd s.gen, busy := false })

/-! ### Matrix commands -/

/-- 43_matrix.md R174: MNEW of a version 1 to 40 makes a matrix of side `4·version + 17`, every cell light and unreserved;
any other version raises `E_RANGE`. -/
def Obligations.MnewCreatesALightMatrix : Prop :=
  ∀ (v : Byte) (s : State),
    ((v.toNat < 1 ∨ 40 < v.toNat) → exec (.mnew v) s = .next (s.faulted 4)) ∧
    (1 ≤ v.toNat → v.toNat ≤ 40 → ∃ (m : Byte) (g : Grid), m.toNat = 4 * v.toNat + 17 ∧
      g.length = m.toNat ∧ (∀ row ∈ g, row.length = m.toNat) ∧
      (∀ r c, cellGet g r c = false ∧ cellIsRsv g r c = false) ∧
      exec (.mnew v) s = .next { s with msize := m, grid := g, mvalid := true, busy := false })

/-- 43_matrix.md R175 and R179 with R171, R172: MGET reads the value bit and MISR the reserved bit of the cell, whatever the
other bit; no matrix raises `E_NOMAT`, else a coordinate out of bounds raises `E_OOB`. -/
def Obligations.MgetAndMisrReadTheCell : Prop :=
  ∀ (rd ra rb : SReg) (s : State),
    (s.mvalid = false → exec (.mget rd ra rb) s = .next (s.faulted 3) ∧
      exec (.misr rd ra rb) s = .next (s.faulted 3)) ∧
    (s.mvalid = true → (s.msize.toNat ≤ (s.getReg ra).toNat ∨ s.msize.toNat ≤ (s.getReg rb).toNat) →
      exec (.mget rd ra rb) s = .next (s.faulted 8) ∧ exec (.misr rd ra rb) s = .next (s.faulted 8)) ∧
    (s.mvalid = true → (s.getReg ra).toNat < s.msize.toNat → (s.getReg rb).toNat < s.msize.toNat →
      exec (.mget rd ra rb) s = .next { s with
        regs := s.regs.set rd (if cellGet s.grid (s.getReg ra).toNat (s.getReg rb).toNat then 1 else 0),
        busy := false } ∧
      exec (.misr rd ra rb) s = .next { s with
        regs := s.regs.set rd (if cellIsRsv s.grid (s.getReg ra).toNat (s.getReg rb).toNat then 1 else 0),
        busy := false })

/-- 43_matrix.md R176 with R173: MSET writes the value if the cell was not reserved and ORs the flag into the reserved bit;
every other cell, and everything but the planes, stays. -/
def Obligations.MsetWritesTheCell : Prop :=
  ∀ (ra rb : SReg) (v f : Bool) (s : State), s.GridOk →
    (s.mvalid = false → exec (.mset ra rb v f) s = .next (s.faulted 3)) ∧
    (s.mvalid = true → (s.msize.toNat ≤ (s.getReg ra).toNat ∨ s.msize.toNat ≤ (s.getReg rb).toNat) →
      exec (.mset ra rb v f) s = .next (s.faulted 8)) ∧
    (s.mvalid = true → (s.getReg ra).toNat < s.msize.toNat → (s.getReg rb).toNat < s.msize.toNat →
      ∃ g : Grid, exec (.mset ra rb v f) s = .next { s with grid := g, busy := false } ∧
        Memory.wf true s.msize g = true ∧
        (∀ r c, ¬ (r = (s.getReg ra).toNat ∧ c = (s.getReg rb).toNat) →
          cellGet g r c = cellGet s.grid r c ∧ cellIsRsv g r c = cellIsRsv s.grid r c) ∧
        (∀ r c, r = (s.getReg ra).toNat → c = (s.getReg rb).toNat →
          cellGet g r c = (if cellIsRsv s.grid r c then cellGet s.grid r c else v) ∧
          cellIsRsv g r c = (cellIsRsv s.grid r c || f)))

/-- 43_matrix.md R177 with R173: MXOR xors the bit into the value if the cell is not reserved; no reserved bit and no other
cell changes. -/
def Obligations.MxorFlipsTheCell : Prop :=
  ∀ (ra rb : SReg) (v : Bool) (s : State), s.GridOk →
    (s.mvalid = false → exec (.mxor ra rb v) s = .next (s.faulted 3)) ∧
    (s.mvalid = true → (s.msize.toNat ≤ (s.getReg ra).toNat ∨ s.msize.toNat ≤ (s.getReg rb).toNat) →
      exec (.mxor ra rb v) s = .next (s.faulted 8)) ∧
    (s.mvalid = true → (s.getReg ra).toNat < s.msize.toNat → (s.getReg rb).toNat < s.msize.toNat →
      ∃ g : Grid, exec (.mxor ra rb v) s = .next { s with grid := g, busy := false } ∧
        Memory.wf true s.msize g = true ∧
        (∀ r c, cellIsRsv g r c = cellIsRsv s.grid r c) ∧
        (∀ r c, ¬ (r = (s.getReg ra).toNat ∧ c = (s.getReg rb).toNat) →
          cellGet g r c = cellGet s.grid r c) ∧
        (∀ r c, r = (s.getReg ra).toNat → c = (s.getReg rb).toNat →
          cellGet g r c = (if cellIsRsv s.grid r c then cellGet s.grid r c else cellGet s.grid r c ^^ v)))

/-- 43_matrix.md R178 with R173: MRSV assigns the reserved bit and touches no value and no other cell. -/
def Obligations.MrsvAssignsTheReservedBit : Prop :=
  ∀ (ra rb : SReg) (v : Bool) (s : State), s.GridOk →
    (s.mvalid = false → exec (.mrsv ra rb v) s = .next (s.faulted 3)) ∧
    (s.mvalid = true → (s.msize.toNat ≤ (s.getReg ra).toNat ∨ s.msize.toNat ≤ (s.getReg rb).toNat) →
      exec (.mrsv ra rb v) s = .next (s.faulted 8)) ∧
    (s.mvalid = true → (s.getReg ra).toNat < s.msize.toNat → (s.getReg rb).toNat < s.msize.toNat →
      ∃ g : Grid, exec (.mrsv ra rb v) s = .next { s with grid := g, busy := false } ∧
        Memory.wf true s.msize g = true ∧
        (∀ r c, cellGet g r c = cellGet s.grid r c) ∧
        (∀ r c, ¬ (r = (s.getReg ra).toNat ∧ c = (s.getReg rb).toNat) →
          cellIsRsv g r c = cellIsRsv s.grid r c) ∧
        (∀ r c, r = (s.getReg ra).toNat → c = (s.getReg rb).toNat → cellIsRsv g r c = v))

/-- 43_matrix.md R180 and R181: MDARK writes the number of dark cells of the matrix and MTOT the number of its cells; both
raise `E_NOMAT` without a matrix. -/
def Obligations.MdarkAndMtotCountCells : Prop :=
  ∀ (rd : SReg) (s : State), s.GridOk →
    (s.mvalid = false → exec (.mdark rd) s = .next (s.faulted 3) ∧ exec (.mtot rd) s = .next (s.faulted 3)) ∧
    (s.mvalid = true → ∃ d t : Word, d.toNat = (Ref.darkCells s.msize.toNat s.grid).card ∧
      t.toNat = s.msize.toNat * s.msize.toNat ∧
      exec (.mdark rd) s = .next { s with regs := s.regs.set rd d, busy := false } ∧
      exec (.mtot rd) s = .next { s with regs := s.regs.set rd t, busy := false })

/-! ### Mask and penalty commands -/

/-- 44_mask.md R203 with R201, R202: MASK flips exactly the unreserved cells where the formula of R201 holds, read from its
table apart from the machine's `maskFn`, and changes no reserved bit; without a matrix it raises `E_NOMAT`. -/
def Obligations.MaskFlipsUnreservedCells : Prop :=
  ∀ (p : Byte) (s : State), p.toNat < 8 → s.GridOk →
    (s.mvalid = false → exec (.mask p) s = .next (s.faulted 3)) ∧
    (s.mvalid = true → ∃ g : Grid, exec (.mask p) s = .next { s with grid := g, busy := false } ∧
      Memory.wf true s.msize g = true ∧
      ∀ r < s.msize.toNat, ∀ c < s.msize.toNat,
        cellIsRsv g r c = cellIsRsv s.grid r c ∧
        cellGet g r c = (if cellIsRsv s.grid r c = false ∧ Ref.MaskBit p.toNat r c
          then !cellGet s.grid r c else cellGet s.grid r c))

/-- 44_mask.md R217 (a), D0's self-inverse property, and R203: MASK twice with one pattern restores the matrix, and masks of
different patterns commute. -/
def Obligations.MaskTwiceRestoresAndMasksCommute : Prop :=
  ∀ (p q : Byte) (s t u : State),
    (exec (.mask p) s = .next t → exec (.mask p) t = .next u → u.grid = s.grid) ∧
    (exec (.mask p) s = .next t → exec (.mask q) t = .next u →
      ∃ t' u', exec (.mask q) s = .next t' ∧ exec (.mask p) t' = .next u' ∧ u'.grid = u.grid)

/-- 44_mask.md R210 with R204, R205: PEN1 writes the sum over all rows and columns of L − 2 for every maximal run of length
L ≥ 5. -/
def Obligations.Pen1ScoresMaximalRuns : Prop :=
  ∀ (rd : SReg) (s : State), s.MatrixOk →
    (s.mvalid = false → exec (.pen1 rd) s = .next (s.faulted 3)) ∧
    (s.mvalid = true → ∃ v : Word, v.toNat = Ref.runPenalty s.msize.toNat s.grid ∧
      exec (.pen1 rd) s = .next { s with regs := s.regs.set rd v, busy := false })

/-- 44_mask.md R211 with R206: PEN2 writes 3 for every 2 × 2 block of one colour, overlaps included. -/
def Obligations.Pen2ScoresBlocks : Prop :=
  ∀ (rd : SReg) (s : State), s.MatrixOk →
    (s.mvalid = false → exec (.pen2 rd) s = .next (s.faulted 3)) ∧
    (s.mvalid = true → ∃ v : Word, v.toNat = Ref.blockPenalty s.msize.toNat s.grid ∧
      exec (.pen2 rd) s = .next { s with regs := s.regs.set rd v, busy := false })

/-- 44_mask.md R212 with R204, R207: PEN3 writes 40 for every window of 11 cells of a row or column that reads as one of the
two literals. -/
def Obligations.Pen3ScoresFinderWindows : Prop :=
  ∀ (rd : SReg) (s : State), s.MatrixOk →
    (s.mvalid = false → exec (.pen3 rd) s = .next (s.faulted 3)) ∧
    (s.mvalid = true → ∃ v : Word, v.toNat = Ref.windowPenalty s.msize.toNat s.grid ∧
      exec (.pen3 rd) s = .next { s with regs := s.regs.set rd v, busy := false })

/-- 44_mask.md R213 with R208: PEN4 writes the dark-ratio formula, evaluated exactly over the rationals. -/
def Obligations.Pen4ScoresTheDarkRatio : Prop :=
  ∀ (rd : SReg) (s : State), s.MatrixOk →
    (s.mvalid = false → exec (.pen4 rd) s = .next (s.faulted 3)) ∧
    (s.mvalid = true → ∃ v : Word,
      (v.toNat : ℚ) = Ref.ratioPenalty (Ref.darkCells s.msize.toNat s.grid).card
        (s.msize.toNat * s.msize.toNat) ∧
      exec (.pen4 rd) s = .next { s with regs := s.regs.set rd v, busy := false })

/-- 44_mask.md R214 with R209: PEN writes the sum of what PEN1 to PEN4 write in the same state, below 2^22, so nothing wraps. -/
def Obligations.PenSumsTheFourScores : Prop :=
  ∀ (rd : SReg) (s : State), s.MatrixOk →
    (s.mvalid = false → exec (.pen rd) s = .next (s.faulted 3)) ∧
    (s.mvalid = true → ∃ v v1 v2 v3 v4 : Word,
      exec (.pen1 rd) s = .next { s with regs := s.regs.set rd v1, busy := false } ∧
      exec (.pen2 rd) s = .next { s with regs := s.regs.set rd v2, busy := false } ∧
      exec (.pen3 rd) s = .next { s with regs := s.regs.set rd v3, busy := false } ∧
      exec (.pen4 rd) s = .next { s with regs := s.regs.set rd v4, busy := false } ∧
      exec (.pen rd) s = .next { s with regs := s.regs.set rd v, busy := false } ∧
      v.toNat = v1.toNat + v2.toNat + v3.toNat + v4.toNat ∧ v.toNat < 2 ^ 22)

/-- 44_mask.md R216 with R215 and R217 (d), (f): BEST writes the least pattern of least penalty and its score, and leaves the
matrix as it found it. The score of a matrix the block can hold is below 2^22 (R209), so `MINPEN` holds it whole. -/
def Obligations.BestFindsTheLeastPattern : Prop :=
  ∀ (rd : SReg) (s : State),
    (s.mvalid = false → exec (.best rd) s = .next (s.faulted 3)) ∧
    (s.mvalid = true → ∃ p m : Nat, p < 8 ∧ m = penalty s.msize.toNat (applyMask p s.grid) ∧
      (∀ q < 8, m ≤ penalty s.msize.toNat (applyMask q s.grid) ∧
        (q < p → m < penalty s.msize.toNat (applyMask q s.grid))) ∧
      (s.MatrixOk → m < 2 ^ 22) ∧
      exec (.best rd) s = .next { s with
        regs := s.regs.set rd (BitVec.ofNat 32 p), minpen := BitVec.ofNat 32 m, busy := false })

/-! ### Pseudo-instructions -/

/-- 30_encoding.md R91 (a): on an idle block without a fault, issuing the expansion of PLOAD of at most 256 coefficients leaves
exactly them in the register, the last word in the block's hands (log 6), and changes nothing else; on a block in the
fault state it changes nothing (45_system.md R241). -/
def Obligations.PloadLeavesTheListInTheRegister : Prop :=
  ∀ (pd : PReg) (bs : List Byte) (s : State), s.busy = false → bs.length ≤ 256 →
    (s.fault = true → execAll (expand (.pload pd bs)) s = .next s) ∧
    (s.fault = false → execAll (expand (.pload pd bs)) s = .next { s with
      polys := s.polys.set pd bs, held := ((expand (.pload pd bs)).map encode).getLastD 0 })

/-- 45_system.md R247 with R244: on an idle block without a fault, the read-out of a polynomial register tells the host its
length and then its coefficients, index 0 first (the newest answer stands in front, log 4), and changes nothing else
but `r0`, `r1` (the registers it goes through, log 21) and the held word (log 6). -/
def Obligations.ReadOutTellsTheCoefficients : Prop :=
  ∀ (pa : PReg) (s : State), s.Ready → s.PolysOk →
    ∃ (rs : Vector Word 8) (len w : Word), len.toNat = (s.getPoly pa).length ∧
      (∀ j : SReg, j ≠ 0 → j ≠ 1 → rs[j] = s.regs[j]) ∧
      readOut (.polynomial pa) s = .next { s with
        regs := rs, held := w,
        answers := ((s.getPoly pa).map (fun c => BitVec.ofNat 32 c.toNat)).reverse ++ len :: s.answers }
end

