-- ==== Sys2Proof/Laws/Decode.lean ====
section
/-! SUPPORT. Fields and words, register fields, and the `I16` overlay: packing and reading are inverse. -/

namespace Sys2Proof

theorem toWord_getLsbD (f : Fields) (i : Nat) :
    f.toWord.getLsbD i = (f.op ++ f.a ++ f.b ++ f.c ++ f.z ++ f.i8).getLsbD i := rfl

theorem i16_getLsbD (f : Fields) (i : Nat) : f.i16.getLsbD i = (f.c ++ f.z ++ f.i8).getLsbD i := rfl

/-- Reading the fields of a packed word gives them back. -/
@[simp] theorem ofWord_toWord (f : Fields) : Fields.ofWord f.toWord = f := by
  cases f
  simp only [Fields.ofWord, Fields.mk.injEq]
  refine ⟨?_, ?_, ?_, ?_, ?_, ?_⟩ <;>
    (apply BitVec.eq_of_getLsbD_eq
     intro i hi
     rw [BitVec.getLsbD_extractLsb', toWord_getLsbD]
     simp only [BitVec.getLsbD_append, hi, decide_true, Bool.true_and]
     repeat (first | rw [if_neg (by omega)] | rw [if_pos (by omega)])
     congr 1
     try omega)

/-- Packing the fields of a word gives it back: the six fields are all of the word. -/
@[simp] theorem toWord_ofWord (w : Word) : (Fields.ofWord w).toWord = w := by
  apply BitVec.eq_of_getLsbD_eq
  intro i hi
  rw [toWord_getLsbD]
  simp only [Fields.ofWord, BitVec.getLsbD_append, BitVec.getLsbD_extractLsb']
  split
  · simp [*]
  split
  · simp only [*, decide_true, Bool.true_and]; congr 1; omega
  split
  · simp only [*, decide_true, Bool.true_and]; congr 1; omega
  split
  · simp only [*, decide_true, Bool.true_and]; congr 1; omega
  split
  · simp only [*, decide_true, Bool.true_and]; congr 1; omega
  · have : i - 8 - 4 - 4 - 4 - 4 < 8 := by omega
    simp only [this, decide_true, Bool.true_and]; congr 1; omega

@[simp] theorem sregOf?_sregField (r : SReg) : sregOf? (sregField r) = some r := by
  revert r; decide

@[simp] theorem pregOf?_pregField (p : PReg) : pregOf? (pregField p) = some p := by
  revert p; decide

theorem sregField_of_sregOf? {f : BitVec 4} {r : SReg} (h : sregOf? f = some r) : sregField r = f := by
  revert f r; decide

theorem pregField_of_pregOf? {f : BitVec 4} {p : PReg} (h : pregOf? f = some p) : pregField p = f := by
  revert f p; decide

/-- The overlay `I16` read from fields cut out of it. -/
theorem i16_of_pieces (op : BitVec 8) (a b : BitVec 4) (imm : BitVec 16) :
    Fields.i16 ⟨op, a, b, imm.extractLsb' 12 4, imm.extractLsb' 8 4, imm.extractLsb' 0 8⟩ = imm := by
  apply BitVec.eq_of_getLsbD_eq
  intro i hi
  rw [i16_getLsbD]
  simp only [BitVec.getLsbD_append, BitVec.getLsbD_extractLsb']
  split
  · simp [*]
  split
  · simp only [*, decide_true, Bool.true_and]; congr 1; omega
  · have : i - 8 - 4 < 4 := by omega
    simp only [this, decide_true, Bool.true_and]; congr 1; omega

/-- The pieces of `I16` are the fields it overlays. -/
theorem pieces_of_i16 (f : Fields) :
    f.i16.extractLsb' 12 4 = f.c ∧ f.i16.extractLsb' 8 4 = f.z ∧ f.i16.extractLsb' 0 8 = f.i8 := by
  refine ⟨?_, ?_, ?_⟩ <;>
    (apply BitVec.eq_of_getLsbD_eq
     intro i hi
     rw [BitVec.getLsbD_extractLsb', i16_getLsbD]
     simp only [BitVec.getLsbD_append, hi, decide_true, Bool.true_and]
     repeat (first | rw [if_neg (by omega)] | rw [if_pos (by omega)])
     congr 1
     try omega)

/-- Decoding an encoded command is decoding its fields. -/
theorem decode_encode_eq (i : Instr) : decode (encode i) = decodeFields i.fields := by
  simp [decode, encode]

end Sys2Proof
end

