-- ==== Sys2Proof/Laws/Grid.lean ====
section
/-! SUPPORT. The matrix store: what each operation does to one cell, that every operation keeps the canonical form
`Memory.wf`, and that masking twice is the identity. -/

namespace Sys2Proof.Machine

/-- A cell that exists, by its place in the lists. -/
theorem cell_of_getElem {g : Grid} {r c : Nat} {row : List GridCell} {x : GridCell}
    (hr : g[r]? = some row) (hc : row[c]? = some x) : g.cell r c = x := by
  simp [Grid.cell, hr, hc]

/-- `n` rows of `n` cells. -/
def Grid.Square (n : Nat) (g : Grid) : Prop := g.length = n ∧ ∀ row ∈ g, row.length = n

theorem wf_true_iff (m : Byte) (g : Grid) : Memory.wf true m g = true ↔ g.Square m.toNat := by
  simp [Memory.wf, Grid.Square]

theorem wf_false_iff (m : Byte) (g : Grid) : Memory.wf false m g = true ↔ g = [] := by
  simp [Memory.wf]

/-- In a square grid the cells inside the bounds exist. -/
theorem Grid.Square.exists_cell {n : Nat} {g : Grid} (h : g.Square n) {r c : Nat} (hr : r < n) (hc : c < n) :
    ∃ row, g[r]? = some row ∧ row[c]? = some (g.cell r c) := by
  have hr' : r < g.length := by rw [h.1]; exact hr
  have hrow : g[r].length = n := h.2 _ (List.getElem_mem hr')
  refine ⟨g[r], List.getElem?_eq_getElem hr', ?_⟩
  have hc' : c < g[r].length := by omega
  simp [Grid.cell, List.getElem?_eq_getElem hr', List.getElem?_eq_getElem hc']

/-! ### One cell changed -/

theorem cell_modifyCell_ne (g : Grid) (r c r' c' : Nat) (f : GridCell → GridCell) (h : ¬ (r' = r ∧ c' = c)) :
    (g.modifyCell r c f).cell r' c' = g.cell r' c' := by
  unfold Grid.cell Grid.modifyCell
  rw [List.getElem?_modify]
  by_cases hr : r = r'
  · subst hr
    have hc : c ≠ c' := fun e => h ⟨rfl, e.symm⟩
    cases g[r]? <;> simp [hc]
  · cases g[r']? <;> simp [hr]

theorem cell_modifyCell_same {n : Nat} {g : Grid} (hg : g.Square n) {r c : Nat} (hr : r < n) (hc : c < n)
    (f : GridCell → GridCell) : (g.modifyCell r c f).cell r c = f (g.cell r c) := by
  obtain ⟨row, hrow, hcell⟩ := hg.exists_cell hr hc
  unfold Grid.modifyCell
  apply cell_of_getElem (row := row.modify c f)
  · rw [List.getElem?_modify, hrow]; simp
  · rw [List.getElem?_modify, hcell]; simp

theorem Grid.Square.modifyCell {n : Nat} {g : Grid} (hg : g.Square n) (r c : Nat) (f : GridCell → GridCell) :
    (g.modifyCell r c f).Square n := by
  refine ⟨by simp [Grid.modifyCell, hg.1], ?_⟩
  intro row hrow
  obtain ⟨k, hk, rfl⟩ := List.mem_iff_getElem.mp hrow
  have hk' : k < g.length := by simpa [Grid.modifyCell] using hk
  have := hg.2 _ (List.getElem_mem hk')
  simp only [Grid.modifyCell, List.getElem_modify]
  split <;> simp [this]

theorem square_freshGrid (n : Nat) : (freshGrid n).Square n := by
  simp [Grid.Square, freshGrid]

theorem cell_freshGrid (n r c : Nat) : (freshGrid n).cell r c = { value := false, reserved := false } := by
  simp only [Grid.cell, freshGrid, List.getElem?_replicate]
  split <;> simp [List.getElem?_replicate]
  split <;> rfl

/-! ### Masking -/

theorem getElem?_maskRow (p r c : Nat) (xs : List GridCell) (k : Nat) :
    (maskRow p r c xs)[k]? = xs[k]?.map (maskCell p r (c + k)) := by
  induction xs generalizing c k with
  | nil => simp [maskRow]
  | cons x xs ih =>
    cases k with
    | zero => simp [maskRow]
    | succ k => simp [maskRow, ih, Nat.add_right_comm, Nat.add_assoc]

theorem getElem?_maskRows (p r : Nat) (g : Grid) (k : Nat) :
    (maskRows p r g)[k]? = g[k]?.map (maskRow p (r + k) 0) := by
  induction g generalizing r k with
  | nil => simp [maskRows]
  | cons row rows ih =>
    cases k with
    | zero => simp [maskRows]
    | succ k => simp [maskRows, ih, Nat.add_right_comm, Nat.add_assoc]

@[simp] theorem length_maskRow (p r c : Nat) (xs : List GridCell) : (maskRow p r c xs).length = xs.length := by
  induction xs generalizing c with
  | nil => rfl
  | cons x xs ih => simp [maskRow, ih]

@[simp] theorem length_maskRows (p r : Nat) (g : Grid) : (maskRows p r g).length = g.length := by
  induction g generalizing r with
  | nil => rfl
  | cons row rows ih => simp [maskRows, ih]

theorem cell_applyMask {n : Nat} {g : Grid} (hg : g.Square n) (p : Nat) {r c : Nat} (hr : r < n) (hc : c < n) :
    (applyMask p g).cell r c = maskCell p r c (g.cell r c) := by
  obtain ⟨row, hrow, hcell⟩ := hg.exists_cell hr hc
  apply cell_of_getElem (row := maskRow p r 0 row)
  · simp [applyMask, getElem?_maskRows, hrow]
  · simp [getElem?_maskRow, hcell]

/-- Outside a grid there is nothing to flip. -/
theorem cell_applyMask_reserved (p : Nat) (g : Grid) (r c : Nat) :
    ((applyMask p g).cell r c).reserved = (g.cell r c).reserved := by
  unfold Grid.cell applyMask
  rw [getElem?_maskRows]
  cases hr : g[r]? with
  | none => simp
  | some row =>
    simp only [Option.map_some, Option.getD_some, getElem?_maskRow]
    cases row[c]? with
    | none => rfl
    | some x => simp [maskCell]; split <;> rfl

theorem Grid.Square.applyMask {n : Nat} {g : Grid} (hg : g.Square n) (p : Nat) : (applyMask p g).Square n := by
  refine ⟨by simp [Machine.applyMask, hg.1], ?_⟩
  intro row hrow
  obtain ⟨k, hk, rfl⟩ := List.mem_iff_getElem.mp hrow
  have hk' : k < g.length := by simpa [Machine.applyMask] using hk
  have h1 : (Machine.applyMask p g)[k]? = some (maskRow p k 0 g[k]) := by
    simp [Machine.applyMask, getElem?_maskRows, List.getElem?_eq_getElem hk']
  have h2 := (List.getElem?_eq_getElem hk).symm.trans h1
  simp only [Option.some.injEq] at h2
  rw [h2, length_maskRow]
  exact hg.2 _ (List.getElem_mem hk')

@[simp] theorem maskCell_maskCell (p r c : Nat) (x : GridCell) : maskCell p r c (maskCell p r c x) = x := by
  unfold maskCell
  split
  · cases x; rename_i v b; cases v <;> cases b <;> rfl
  · rfl

@[simp] theorem maskRow_maskRow (p r c : Nat) (xs : List GridCell) :
    maskRow p r c (maskRow p r c xs) = xs := by
  induction xs generalizing c with
  | nil => rfl
  | cons x xs ih => simp [maskRow, ih]

/-- Applying a mask twice gives the grid back (44_mask.md R203). -/
theorem applyMask_applyMask (p : Nat) (g : Grid) : applyMask p (applyMask p g) = g := by
  unfold applyMask
  generalize 0 = r
  induction g generalizing r with
  | nil => rfl
  | cons row rows ih => simp [maskRows, ih]

/-! ### Every operation keeps the canonical form -/

theorem wf_modifyCell (mv : Bool) (m : Byte) (g : Grid) (r c : Nat) (f : GridCell → GridCell)
    (h : Memory.wf mv m g = true) : Memory.wf mv m (g.modifyCell r c f) = true := by
  cases mv with
  | true => rw [wf_true_iff] at *; exact h.modifyCell r c f
  | false => rw [wf_false_iff] at *; subst h; simp [Grid.modifyCell]

theorem wf_cellSet (mv : Bool) (m : Byte) (g : Grid) (r c : Nat) (v f : Bool) (h : Memory.wf mv m g = true) :
    Memory.wf mv m (cellSet g r c v f) = true := wf_modifyCell mv m g r c _ h

theorem wf_cellXor (mv : Bool) (m : Byte) (g : Grid) (r c : Nat) (v : Bool) (h : Memory.wf mv m g = true) :
    Memory.wf mv m (cellXor g r c v) = true := wf_modifyCell mv m g r c _ h

theorem wf_cellMark (mv : Bool) (m : Byte) (g : Grid) (r c : Nat) (f : Bool) (h : Memory.wf mv m g = true) :
    Memory.wf mv m (cellMark g r c f) = true := wf_modifyCell mv m g r c _ h

theorem wf_applyMask (mv : Bool) (m : Byte) (g : Grid) (p : Nat) (h : Memory.wf mv m g = true) :
    Memory.wf mv m (applyMask p g) = true := by
  cases mv with
  | true => rw [wf_true_iff] at *; exact h.applyMask p
  | false => rw [wf_false_iff] at *; subst h; rfl

theorem sizeOfVersion_lt {v : Nat} (h : v ≤ Config.verMax) : sizeOfVersion v < 256 := by
  simp [sizeOfVersion, Config.verMax] at *; omega

theorem wf_freshGrid {v : Nat} (h : v ≤ Config.verMax) :
    Memory.wf true (BitVec.ofNat 8 (sizeOfVersion v)) (freshGrid (sizeOfVersion v)) = true := by
  rw [wf_true_iff, BitVec.toNat_ofNat, Nat.mod_eq_of_lt (sizeOfVersion_lt h)]
  exact square_freshGrid _

theorem wf_reset : Memory.wf State.reset.mvalid State.reset.msize State.reset.grid = true := by decide

/-! ### The best-mask search -/

/-- Every pass leaves the matrix as it found it. -/
@[simp] theorem pass_grid (size : Nat) (b : Search) (p : Nat) : (b.pass size p).grid = b.grid := by
  unfold Search.pass
  simp only [applyMask_applyMask]
  split <;> rfl

end Sys2Proof.Machine
end

