-- ==== Sys2Proof/Laws/Gf.lean ====
section
/-! SUPPORT. The tables of 10_state.md R28: the recurrence, its period, and that `LOG` inverts `EXP`. -/

namespace Sys2Proof.Machine

theorem timesX_lt {a : Nat} (h : a < 256) : Ref.timesX a < 256 := by
  have H : ∀ a < 256, Ref.timesX a < 256 := by decide +kernel
  exact H a h

theorem powX_lt (i : Nat) : Ref.powX i < 256 := by
  induction i with
  | zero => decide
  | succ i ih => exact timesX_lt ih

/-- The printed `EXP` table obeys the recurrence, and after 255 steps it is back at 1. -/
theorem expRom_recurrence : ∀ i < 254, (gfExp (i + 1)).toNat = Ref.timesX (gfExp i).toNat := by
  decide +kernel

theorem expRom_wraps : Ref.timesX (gfExp 254).toNat = 1 := by decide

theorem gfExp_zero : gfExp 0 = 1 := by decide

theorem gfExp_mod (n : Nat) : gfExp (n % 255) = gfExp n := by
  simp [gfExp, Config.fieldOrder]

theorem gfExp_succ (i : Nat) : (gfExp (i + 1)).toNat = Ref.timesX (gfExp i).toNat := by
  rw [← gfExp_mod i, ← gfExp_mod (i + 1)]
  by_cases h : i % 255 = 254
  · have : (i + 1) % 255 = 0 := by omega
    rw [this, h, gfExp_zero, expRom_wraps]; rfl
  · have : (i + 1) % 255 = i % 255 + 1 := by omega
    rw [this]
    exact expRom_recurrence _ (by omega)

/-- `EXP` is the table of powers of x. -/
theorem gfExp_eq_powX (i : Nat) : (gfExp i).toNat = Ref.powX i := by
  induction i with
  | zero => decide
  | succ i ih => rw [gfExp_succ, ih]; rfl

theorem gfExp_add_period (i : Nat) : gfExp (i + 255) = gfExp i := by
  rw [← gfExp_mod (i + 255), ← gfExp_mod i]; simp

@[simp] theorem gfLog?_zero : gfLog? 0#8 = none := by decide

/-- `LOG` inverts `EXP` on the exponents 0 to 254. -/
theorem gfLog?_gfExp_lt : ∀ i < 255, gfLog? (gfExp i) = some i := by decide +kernel

theorem gfLog?_gfExp (i : Nat) : gfLog? (gfExp i) = some (i % 255) := by
  rw [← gfExp_mod]; exact gfLog?_gfExp_lt _ (Nat.mod_lt _ (by decide))

theorem gfExp_ne_zero (i : Nat) : gfExp i ≠ 0 := by
  intro h
  have := gfLog?_gfExp i
  simp [h] at this

/-- `EXP` inverts `LOG` on the elements 1 to 255. -/
theorem gfExp_of_gfLog?_all :
    ∀ a : Byte, a = 0 ∨ ∃ l, gfLog? a = some l ∧ l < 255 ∧ gfExp l = a := by
  have H : ∀ a : Byte, a = 0 ∨ ((gfLog? a).isSome = true ∧ (gfLog? a).getD 0 < 255 ∧
      gfExp ((gfLog? a).getD 0) = a) := by decide +kernel
  intro a
  rcases H a with h | ⟨h1, h2, h3⟩
  · exact .inl h
  · obtain ⟨l, hl⟩ := Option.isSome_iff_exists.mp h1
    exact .inr ⟨l, hl, by simpa [hl] using h2, by simpa [hl] using h3⟩

/-- Every nonzero element is a power of x. -/
theorem exists_gfExp {a : Byte} (h : a ≠ 0) : ∃ l, gfLog? a = some l ∧ l < 255 ∧ gfExp l = a :=
  (gfExp_of_gfLog?_all a).resolve_left h

@[simp] theorem gfMul_zero_left (b : Byte) : gfMul 0#8 b = 0#8 := by simp [gfMul]

@[simp] theorem gfMul_zero_right (a : Byte) : gfMul a 0#8 = 0#8 := by
  unfold gfMul; cases gfLog? a <;> simp

/-- On powers of x multiplication adds exponents. -/
theorem gfMul_gfExp (i j : Nat) : gfMul (gfExp i) (gfExp j) = gfExp (i + j) := by
  simp only [gfMul, gfLog?_gfExp]
  rw [← gfExp_mod (i + j), ← gfExp_mod (i % 255 + j % 255)]
  congr 1
  omega

end Sys2Proof.Machine
end

