-- ==== Sys2Proof/Laws/Poly.lean ====
section
/-! SUPPORT. Lengths and leading coefficients: products, the reduction loop, generators, encoding. -/

namespace Sys2Proof.Machine

@[simp] theorem xorHead_nil_left (ys : Poly) : xorHead [] ys = ys := by cases ys <;> rfl

@[simp] theorem xorHead_nil_right (xs : Poly) : xorHead xs [] = xs := by cases xs <;> rfl

@[simp] theorem xorHead_cons (x y : Byte) (xs ys : Poly) :
    xorHead (x :: xs) (y :: ys) = (x ^^^ y) :: xorHead xs ys := rfl

@[simp] theorem length_xorHead (xs ys : Poly) : (xorHead xs ys).length = max xs.length ys.length := by
  induction xs generalizing ys with
  | nil => simp
  | cons x xs ih => cases ys <;> simp [ih]

/-- The entries of `xorHead`, missing ones read as 0. -/
theorem getD_xorHead (xs ys : Poly) (k : Nat) :
    (xorHead xs ys).getD k 0 = xs.getD k 0 ^^^ ys.getD k 0 := by
  induction xs generalizing ys k with
  | nil => simp
  | cons x xs ih =>
    cases ys with
    | nil => simp
    | cons y ys =>
      cases k with
      | zero => rfl
      | succ k => simpa using ih ys k

theorem length_polyMul {a b : Poly} (ha : a ≠ []) (hb : b ≠ []) :
    (polyMul a b).length = a.length + b.length - 1 := by
  have hb1 : 1 ≤ b.length := List.length_pos_iff.mpr hb
  induction a with
  | nil => exact absurd rfl ha
  | cons x xs ih =>
    by_cases hx : xs = []
    · subst hx; simp [polyMul]; omega
    · simp [polyMul, ih hx]; omega

/-- The leading coefficient of a product. -/
theorem head?_polyMul (x y : Byte) (xs ys : Poly) :
    (polyMul (x :: xs) (y :: ys)).head? = some (gfMul x y) := by
  simp [polyMul]

/-! ### The reduction loop -/

theorem length_stripZeros_le (r : Poly) : (stripZeros r).length ≤ r.length :=
  (List.dropWhile_sublist _).length_le

/-- What `stripZeros` leaves has no leading zero. -/
theorem head?_stripZeros (r : Poly) : (stripZeros r).head? ≠ some 0 := by
  induction r with
  | nil => simp [stripZeros]
  | cons x xs ih =>
    by_cases hx : x = 0
    · simpa [stripZeros, hx] using ih
    · have hb : (x == 0#8) = false := by simpa using hx
      simpa [stripZeros, List.dropWhile_cons, hb] using hx

theorem gfMul_one_left (b : Byte) : gfMul 1#8 b = b := by
  by_cases hb : b = 0
  · subst hb; decide
  · obtain ⟨l, _, _, rfl⟩ := exists_gfExp hb
    have := gfMul_gfExp 0 l
    simpa [gfExp_zero] using this

/-- With a monic divisor every pass removes at least one coefficient (41_poly.md R122, note a). -/
theorem length_polyModStep_lt {d r : Poly} (hd : d.head? = some 1) (hr : d.length ≤ r.length) :
    (polyModStep d r).length < r.length := by
  obtain ⟨ds, rfl⟩ : ∃ ds, d = 1 :: ds := by
    cases d with
    | nil => simp at hd
    | cons x xs => exact ⟨xs, by simpa using hd⟩
  cases r with
  | nil => simp at hr
  | cons x xs =>
    have h := length_stripZeros_le (xorHead xs (ds.map (fun c => gfMul c x)))
    simp only [length_xorHead, List.length_map] at h
    simp only [List.length_cons] at hr
    simp only [polyModStep, List.headD_cons, List.map_cons, xorHead_cons]
    simp [gfMul_one_left, stripZeros] at h ⊢
    omega

theorem polyModLoop_succ (n : Nat) (d r : Poly) :
    polyModLoop (n + 1) d r = if d.length ≤ r.length then polyModLoop n d (polyModStep d r) else r := rfl

/-- With enough passes the result is shorter than a monic divisor. -/
theorem length_polyModLoop_lt {d : Poly} (hd : d.head? = some 1) (n : Nat) (r : Poly) (hn : r.length ≤ n) :
    (polyModLoop n d r).length < d.length := by
  induction n generalizing r with
  | zero =>
    have : 0 < d.length := by cases d <;> simp_all
    simp [polyModLoop]; omega
  | succ n ih =>
    rw [polyModLoop_succ]
    split
    · rename_i h
      have := length_polyModStep_lt hd h
      exact ih _ (by omega)
    · omega

theorem length_polyMod_lt {d : Poly} (hd : d.head? = some 1) (s : Poly) :
    (polyMod s d).length < d.length := length_polyModLoop_lt hd _ _ (Nat.le_refl _)

theorem length_polyModLoop_le {d : Poly} (hd : d.head? = some 1) (n : Nat) (r : Poly) :
    (polyModLoop n d r).length ≤ r.length := by
  induction n generalizing r with
  | zero => exact Nat.le_refl _
  | succ n ih =>
    rw [polyModLoop_succ]
    split
    · rename_i h
      have h1 := length_polyModStep_lt hd h
      have h2 := ih (polyModStep d r)
      omega
    · exact Nat.le_refl _

/-- "the result is never longer than the source" (41_poly.md R129). -/
theorem length_polyMod_le {d : Poly} (hd : d.head? = some 1) (s : Poly) : (polyMod s d).length ≤ s.length :=
  length_polyModLoop_le hd _ _

/-! ### Generators and encoding -/

/-- A generator is monic of length N + 1. -/
theorem rsGen_shape (n : Nat) : (rsGen n).length = n + 1 ∧ (rsGen n).head? = some 1 := by
  induction n with
  | zero => decide
  | succ n ih =>
    obtain ⟨hl, hh⟩ := ih
    obtain ⟨gs, hg⟩ : ∃ gs, rsGen n = 1 :: gs := by
      cases h : rsGen n with
      | nil => simp [h] at hl
      | cons x xs => rw [h] at hh; exact ⟨xs, by simpa using hh⟩
    refine ⟨?_, ?_⟩
    · rw [rsGen, length_polyMul (by rw [hg]; simp) (by simp), hl]; rfl
    · rw [rsGen, hg, head?_polyMul]; decide

/-- The result of encoding by a monic generator of length N + 1 has exactly N codewords. -/
theorem length_rsEncodeBy {g : Poly} {n : Nat} (hl : g.length = n + 1) (hh : g.head? = some 1) (data : Poly) :
    (rsEncodeBy g data n).length = n := by
  have := length_polyMod_lt hh (data ++ List.replicate n 0)
  simp only [rsEncodeBy, List.length_append, List.length_replicate]
  omega

end Sys2Proof.Machine
end

