-- ==== Sys2Proof/Laws/State.lean ====
section
/-! SUPPORT. What each named update of the state leaves in each field: one lemma per field per update, true by
rfl. Read and write of the two register files follow. -/

namespace Sys2Proof.Machine

variable (s : State)

/-! ### `State.setReg` -/

@[simp] theorem setReg_regs (i : SReg) (v : Word) : (s.setReg i v).regs = s.regs.set i v := rfl
@[simp] theorem setReg_polys (i : SReg) (v : Word) : (s.setReg i v).polys = s.polys := rfl
@[simp] theorem setReg_gen (i : SReg) (v : Word) : (s.setReg i v).gen = s.gen := rfl
@[simp] theorem setReg_gn (i : SReg) (v : Word) : (s.setReg i v).gn = s.gn := rfl
@[simp] theorem setReg_gvalid (i : SReg) (v : Word) : (s.setReg i v).gvalid = s.gvalid := rfl
@[simp] theorem setReg_mvalid (i : SReg) (v : Word) : (s.setReg i v).mvalid = s.mvalid := rfl
@[simp] theorem setReg_msize (i : SReg) (v : Word) : (s.setReg i v).msize = s.msize := rfl
@[simp] theorem setReg_grid (i : SReg) (v : Word) : (s.setReg i v).grid = s.grid := rfl
@[simp] theorem setReg_minpen (i : SReg) (v : Word) : (s.setReg i v).minpen = s.minpen := rfl
@[simp] theorem setReg_busy (i : SReg) (v : Word) : (s.setReg i v).busy = s.busy := rfl
@[simp] theorem setReg_fault (i : SReg) (v : Word) : (s.setReg i v).fault = s.fault := rfl
@[simp] theorem setReg_ovr (i : SReg) (v : Word) : (s.setReg i v).ovr = s.ovr := rfl
@[simp] theorem setReg_fcause (i : SReg) (v : Word) : (s.setReg i v).fcause = s.fcause := rfl
@[simp] theorem setReg_finfo (i : SReg) (v : Word) : (s.setReg i v).finfo = s.finfo := rfl
@[simp] theorem setReg_held (i : SReg) (v : Word) : (s.setReg i v).held = s.held := rfl
@[simp] theorem setReg_schedule (i : SReg) (v : Word) : (s.setReg i v).schedule = s.schedule := rfl
@[simp] theorem setReg_answers (i : SReg) (v : Word) : (s.setReg i v).answers = s.answers := rfl
@[simp] theorem setReg_draws (i : SReg) (v : Word) : (s.setReg i v).draws = s.draws := rfl

/-! ### `State.setPoly` -/

@[simp] theorem setPoly_regs (k : PReg) (l : Poly) : (s.setPoly k l).regs = s.regs := rfl
@[simp] theorem setPoly_polys (k : PReg) (l : Poly) : (s.setPoly k l).polys = s.polys.set k l := rfl
@[simp] theorem setPoly_gen (k : PReg) (l : Poly) : (s.setPoly k l).gen = s.gen := rfl
@[simp] theorem setPoly_gn (k : PReg) (l : Poly) : (s.setPoly k l).gn = s.gn := rfl
@[simp] theorem setPoly_gvalid (k : PReg) (l : Poly) : (s.setPoly k l).gvalid = s.gvalid := rfl
@[simp] theorem setPoly_mvalid (k : PReg) (l : Poly) : (s.setPoly k l).mvalid = s.mvalid := rfl
@[simp] theorem setPoly_msize (k : PReg) (l : Poly) : (s.setPoly k l).msize = s.msize := rfl
@[simp] theorem setPoly_grid (k : PReg) (l : Poly) : (s.setPoly k l).grid = s.grid := rfl
@[simp] theorem setPoly_minpen (k : PReg) (l : Poly) : (s.setPoly k l).minpen = s.minpen := rfl
@[simp] theorem setPoly_busy (k : PReg) (l : Poly) : (s.setPoly k l).busy = s.busy := rfl
@[simp] theorem setPoly_fault (k : PReg) (l : Poly) : (s.setPoly k l).fault = s.fault := rfl
@[simp] theorem setPoly_ovr (k : PReg) (l : Poly) : (s.setPoly k l).ovr = s.ovr := rfl
@[simp] theorem setPoly_fcause (k : PReg) (l : Poly) : (s.setPoly k l).fcause = s.fcause := rfl
@[simp] theorem setPoly_finfo (k : PReg) (l : Poly) : (s.setPoly k l).finfo = s.finfo := rfl
@[simp] theorem setPoly_held (k : PReg) (l : Poly) : (s.setPoly k l).held = s.held := rfl
@[simp] theorem setPoly_schedule (k : PReg) (l : Poly) : (s.setPoly k l).schedule = s.schedule := rfl
@[simp] theorem setPoly_answers (k : PReg) (l : Poly) : (s.setPoly k l).answers = s.answers := rfl
@[simp] theorem setPoly_draws (k : PReg) (l : Poly) : (s.setPoly k l).draws = s.draws := rfl

/-! ### `State.setGen` -/

@[simp] theorem setGen_regs (g : Poly) (n : Byte) : (s.setGen g n).regs = s.regs := rfl
@[simp] theorem setGen_polys (g : Poly) (n : Byte) : (s.setGen g n).polys = s.polys := rfl
@[simp] theorem setGen_gen (g : Poly) (n : Byte) : (s.setGen g n).gen = g := rfl
@[simp] theorem setGen_gn (g : Poly) (n : Byte) : (s.setGen g n).gn = n := rfl
@[simp] theorem setGen_gvalid (g : Poly) (n : Byte) : (s.setGen g n).gvalid = true := rfl
@[simp] theorem setGen_mvalid (g : Poly) (n : Byte) : (s.setGen g n).mvalid = s.mvalid := rfl
@[simp] theorem setGen_msize (g : Poly) (n : Byte) : (s.setGen g n).msize = s.msize := rfl
@[simp] theorem setGen_grid (g : Poly) (n : Byte) : (s.setGen g n).grid = s.grid := rfl
@[simp] theorem setGen_minpen (g : Poly) (n : Byte) : (s.setGen g n).minpen = s.minpen := rfl
@[simp] theorem setGen_busy (g : Poly) (n : Byte) : (s.setGen g n).busy = s.busy := rfl
@[simp] theorem setGen_fault (g : Poly) (n : Byte) : (s.setGen g n).fault = s.fault := rfl
@[simp] theorem setGen_ovr (g : Poly) (n : Byte) : (s.setGen g n).ovr = s.ovr := rfl
@[simp] theorem setGen_fcause (g : Poly) (n : Byte) : (s.setGen g n).fcause = s.fcause := rfl
@[simp] theorem setGen_finfo (g : Poly) (n : Byte) : (s.setGen g n).finfo = s.finfo := rfl
@[simp] theorem setGen_held (g : Poly) (n : Byte) : (s.setGen g n).held = s.held := rfl
@[simp] theorem setGen_schedule (g : Poly) (n : Byte) : (s.setGen g n).schedule = s.schedule := rfl
@[simp] theorem setGen_answers (g : Poly) (n : Byte) : (s.setGen g n).answers = s.answers := rfl
@[simp] theorem setGen_draws (g : Poly) (n : Byte) : (s.setGen g n).draws = s.draws := rfl

/-! ### `State.setMatrix` -/

@[simp] theorem setMatrix_regs (n : Nat) : (s.setMatrix n).regs = s.regs := rfl
@[simp] theorem setMatrix_polys (n : Nat) : (s.setMatrix n).polys = s.polys := rfl
@[simp] theorem setMatrix_gen (n : Nat) : (s.setMatrix n).gen = s.gen := rfl
@[simp] theorem setMatrix_gn (n : Nat) : (s.setMatrix n).gn = s.gn := rfl
@[simp] theorem setMatrix_gvalid (n : Nat) : (s.setMatrix n).gvalid = s.gvalid := rfl
@[simp] theorem setMatrix_mvalid (n : Nat) : (s.setMatrix n).mvalid = true := rfl
@[simp] theorem setMatrix_msize (n : Nat) : (s.setMatrix n).msize = BitVec.ofNat 8 n := rfl
@[simp] theorem setMatrix_grid (n : Nat) : (s.setMatrix n).grid = freshGrid n := rfl
@[simp] theorem setMatrix_minpen (n : Nat) : (s.setMatrix n).minpen = s.minpen := rfl
@[simp] theorem setMatrix_busy (n : Nat) : (s.setMatrix n).busy = s.busy := rfl
@[simp] theorem setMatrix_fault (n : Nat) : (s.setMatrix n).fault = s.fault := rfl
@[simp] theorem setMatrix_ovr (n : Nat) : (s.setMatrix n).ovr = s.ovr := rfl
@[simp] theorem setMatrix_fcause (n : Nat) : (s.setMatrix n).fcause = s.fcause := rfl
@[simp] theorem setMatrix_finfo (n : Nat) : (s.setMatrix n).finfo = s.finfo := rfl
@[simp] theorem setMatrix_held (n : Nat) : (s.setMatrix n).held = s.held := rfl
@[simp] theorem setMatrix_schedule (n : Nat) : (s.setMatrix n).schedule = s.schedule := rfl
@[simp] theorem setMatrix_answers (n : Nat) : (s.setMatrix n).answers = s.answers := rfl
@[simp] theorem setMatrix_draws (n : Nat) : (s.setMatrix n).draws = s.draws := rfl

/-! ### `State.setGrid` -/

@[simp] theorem setGrid_regs (g : Grid) : (s.setGrid g).regs = s.regs := rfl
@[simp] theorem setGrid_polys (g : Grid) : (s.setGrid g).polys = s.polys := rfl
@[simp] theorem setGrid_gen (g : Grid) : (s.setGrid g).gen = s.gen := rfl
@[simp] theorem setGrid_gn (g : Grid) : (s.setGrid g).gn = s.gn := rfl
@[simp] theorem setGrid_gvalid (g : Grid) : (s.setGrid g).gvalid = s.gvalid := rfl
@[simp] theorem setGrid_mvalid (g : Grid) : (s.setGrid g).mvalid = s.mvalid := rfl
@[simp] theorem setGrid_msize (g : Grid) : (s.setGrid g).msize = s.msize := rfl
@[simp] theorem setGrid_grid (g : Grid) : (s.setGrid g).grid = g := rfl
@[simp] theorem setGrid_minpen (g : Grid) : (s.setGrid g).minpen = s.minpen := rfl
@[simp] theorem setGrid_busy (g : Grid) : (s.setGrid g).busy = s.busy := rfl
@[simp] theorem setGrid_fault (g : Grid) : (s.setGrid g).fault = s.fault := rfl
@[simp] theorem setGrid_ovr (g : Grid) : (s.setGrid g).ovr = s.ovr := rfl
@[simp] theorem setGrid_fcause (g : Grid) : (s.setGrid g).fcause = s.fcause := rfl
@[simp] theorem setGrid_finfo (g : Grid) : (s.setGrid g).finfo = s.finfo := rfl
@[simp] theorem setGrid_held (g : Grid) : (s.setGrid g).held = s.held := rfl
@[simp] theorem setGrid_schedule (g : Grid) : (s.setGrid g).schedule = s.schedule := rfl
@[simp] theorem setGrid_answers (g : Grid) : (s.setGrid g).answers = s.answers := rfl
@[simp] theorem setGrid_draws (g : Grid) : (s.setGrid g).draws = s.draws := rfl

/-! ### `State.setMinpen` -/

@[simp] theorem setMinpen_regs (v : Word) : (s.setMinpen v).regs = s.regs := rfl
@[simp] theorem setMinpen_polys (v : Word) : (s.setMinpen v).polys = s.polys := rfl
@[simp] theorem setMinpen_gen (v : Word) : (s.setMinpen v).gen = s.gen := rfl
@[simp] theorem setMinpen_gn (v : Word) : (s.setMinpen v).gn = s.gn := rfl
@[simp] theorem setMinpen_gvalid (v : Word) : (s.setMinpen v).gvalid = s.gvalid := rfl
@[simp] theorem setMinpen_mvalid (v : Word) : (s.setMinpen v).mvalid = s.mvalid := rfl
@[simp] theorem setMinpen_msize (v : Word) : (s.setMinpen v).msize = s.msize := rfl
@[simp] theorem setMinpen_grid (v : Word) : (s.setMinpen v).grid = s.grid := rfl
@[simp] theorem setMinpen_minpen (v : Word) : (s.setMinpen v).minpen = v := rfl
@[simp] theorem setMinpen_busy (v : Word) : (s.setMinpen v).busy = s.busy := rfl
@[simp] theorem setMinpen_fault (v : Word) : (s.setMinpen v).fault = s.fault := rfl
@[simp] theorem setMinpen_ovr (v : Word) : (s.setMinpen v).ovr = s.ovr := rfl
@[simp] theorem setMinpen_fcause (v : Word) : (s.setMinpen v).fcause = s.fcause := rfl
@[simp] theorem setMinpen_finfo (v : Word) : (s.setMinpen v).finfo = s.finfo := rfl
@[simp] theorem setMinpen_held (v : Word) : (s.setMinpen v).held = s.held := rfl
@[simp] theorem setMinpen_schedule (v : Word) : (s.setMinpen v).schedule = s.schedule := rfl
@[simp] theorem setMinpen_answers (v : Word) : (s.setMinpen v).answers = s.answers := rfl
@[simp] theorem setMinpen_draws (v : Word) : (s.setMinpen v).draws = s.draws := rfl

/-! ### `State.complete` -/

@[simp] theorem complete_regs : (s.complete).regs = s.regs := rfl
@[simp] theorem complete_polys : (s.complete).polys = s.polys := rfl
@[simp] theorem complete_gen : (s.complete).gen = s.gen := rfl
@[simp] theorem complete_gn : (s.complete).gn = s.gn := rfl
@[simp] theorem complete_gvalid : (s.complete).gvalid = s.gvalid := rfl
@[simp] theorem complete_mvalid : (s.complete).mvalid = s.mvalid := rfl
@[simp] theorem complete_msize : (s.complete).msize = s.msize := rfl
@[simp] theorem complete_grid : (s.complete).grid = s.grid := rfl
@[simp] theorem complete_minpen : (s.complete).minpen = s.minpen := rfl
@[simp] theorem complete_busy : (s.complete).busy = false := rfl
@[simp] theorem complete_fault : (s.complete).fault = s.fault := rfl
@[simp] theorem complete_ovr : (s.complete).ovr = s.ovr := rfl
@[simp] theorem complete_fcause : (s.complete).fcause = s.fcause := rfl
@[simp] theorem complete_finfo : (s.complete).finfo = s.finfo := rfl
@[simp] theorem complete_held : (s.complete).held = s.held := rfl
@[simp] theorem complete_schedule : (s.complete).schedule = s.schedule := rfl
@[simp] theorem complete_answers : (s.complete).answers = s.answers := rfl
@[simp] theorem complete_draws : (s.complete).draws = s.draws := rfl

/-! ### `State.raise` -/

@[simp] theorem raise_regs (k : Cause) : (s.raise k).regs = s.regs := rfl
@[simp] theorem raise_polys (k : Cause) : (s.raise k).polys = s.polys := rfl
@[simp] theorem raise_gen (k : Cause) : (s.raise k).gen = s.gen := rfl
@[simp] theorem raise_gn (k : Cause) : (s.raise k).gn = s.gn := rfl
@[simp] theorem raise_gvalid (k : Cause) : (s.raise k).gvalid = s.gvalid := rfl
@[simp] theorem raise_mvalid (k : Cause) : (s.raise k).mvalid = s.mvalid := rfl
@[simp] theorem raise_msize (k : Cause) : (s.raise k).msize = s.msize := rfl
@[simp] theorem raise_grid (k : Cause) : (s.raise k).grid = s.grid := rfl
@[simp] theorem raise_minpen (k : Cause) : (s.raise k).minpen = s.minpen := rfl
@[simp] theorem raise_busy (k : Cause) : (s.raise k).busy = false := rfl
@[simp] theorem raise_fault (k : Cause) : (s.raise k).fault = true := rfl
@[simp] theorem raise_ovr (k : Cause) : (s.raise k).ovr = s.ovr := rfl
@[simp] theorem raise_fcause (k : Cause) : (s.raise k).fcause = k.code := rfl
@[simp] theorem raise_finfo (k : Cause) : (s.raise k).finfo = s.held := rfl
@[simp] theorem raise_held (k : Cause) : (s.raise k).held = s.held := rfl
@[simp] theorem raise_schedule (k : Cause) : (s.raise k).schedule = s.schedule := rfl
@[simp] theorem raise_answers (k : Cause) : (s.raise k).answers = s.answers := rfl
@[simp] theorem raise_draws (k : Cause) : (s.raise k).draws = s.draws := rfl

/-! ### `State.resetBlock` -/

@[simp] theorem resetBlock_regs : (s.resetBlock).regs = State.reset.regs := rfl
@[simp] theorem resetBlock_polys : (s.resetBlock).polys = State.reset.polys := rfl
@[simp] theorem resetBlock_gen : (s.resetBlock).gen = State.reset.gen := rfl
@[simp] theorem resetBlock_gn : (s.resetBlock).gn = State.reset.gn := rfl
@[simp] theorem resetBlock_gvalid : (s.resetBlock).gvalid = State.reset.gvalid := rfl
@[simp] theorem resetBlock_mvalid : (s.resetBlock).mvalid = State.reset.mvalid := rfl
@[simp] theorem resetBlock_msize : (s.resetBlock).msize = State.reset.msize := rfl
@[simp] theorem resetBlock_grid : (s.resetBlock).grid = State.reset.grid := rfl
@[simp] theorem resetBlock_minpen : (s.resetBlock).minpen = State.reset.minpen := rfl
@[simp] theorem resetBlock_busy : (s.resetBlock).busy = State.reset.busy := rfl
@[simp] theorem resetBlock_fault : (s.resetBlock).fault = State.reset.fault := rfl
@[simp] theorem resetBlock_ovr : (s.resetBlock).ovr = State.reset.ovr := rfl
@[simp] theorem resetBlock_fcause : (s.resetBlock).fcause = State.reset.fcause := rfl
@[simp] theorem resetBlock_finfo : (s.resetBlock).finfo = State.reset.finfo := rfl
@[simp] theorem resetBlock_held : (s.resetBlock).held = State.reset.held := rfl
@[simp] theorem resetBlock_schedule : (s.resetBlock).schedule = s.schedule := rfl
@[simp] theorem resetBlock_answers : (s.resetBlock).answers = s.answers := rfl
@[simp] theorem resetBlock_draws : (s.resetBlock).draws = s.draws := rfl

/-! ### Register files -/

@[simp] theorem getReg_setReg_same (i : SReg) (v : Word) : (s.setReg i v).getReg i = v := by
  simp [State.getReg]

@[simp] theorem getReg_setReg_ne (i j : SReg) (v : Word) (h : j ≠ i) :
    (s.setReg i v).getReg j = s.getReg j := by
  have : i.val ≠ j.val := fun e => h (Fin.ext e.symm)
  simp [State.getReg, this]

@[simp] theorem getPoly_setPoly_same (k : PReg) (l : Poly) : (s.setPoly k l).getPoly k = l := by
  simp [State.getPoly]

@[simp] theorem getPoly_setPoly_ne (k j : PReg) (l : Poly) (h : j ≠ k) :
    (s.setPoly k l).getPoly j = s.getPoly j := by
  have : k.val ≠ j.val := fun e => h (Fin.ext e.symm)
  simp [State.getPoly, this]

@[simp] theorem getPoly_setReg (i : SReg) (v : Word) (j : PReg) : (s.setReg i v).getPoly j = s.getPoly j := rfl
@[simp] theorem getReg_setPoly (k : PReg) (l : Poly) (j : SReg) : (s.setPoly k l).getReg j = s.getReg j := rfl
@[simp] theorem getReg_setGen (g : Poly) (n : Byte) (j : SReg) : (s.setGen g n).getReg j = s.getReg j := rfl
@[simp] theorem getPoly_setGen (g : Poly) (n : Byte) (j : PReg) : (s.setGen g n).getPoly j = s.getPoly j := rfl
@[simp] theorem getReg_setMatrix (n : Nat) (j : SReg) : (s.setMatrix n).getReg j = s.getReg j := rfl
@[simp] theorem getPoly_setMatrix (n : Nat) (j : PReg) : (s.setMatrix n).getPoly j = s.getPoly j := rfl
@[simp] theorem getReg_setGrid (g : Grid) (j : SReg) : (s.setGrid g).getReg j = s.getReg j := rfl
@[simp] theorem getPoly_setGrid (g : Grid) (j : PReg) : (s.setGrid g).getPoly j = s.getPoly j := rfl
@[simp] theorem getReg_setMinpen (v : Word) (j : SReg) : (s.setMinpen v).getReg j = s.getReg j := rfl
@[simp] theorem getPoly_setMinpen (v : Word) (j : PReg) : (s.setMinpen v).getPoly j = s.getPoly j := rfl
@[simp] theorem getReg_complete (j : SReg) : (s.complete).getReg j = s.getReg j := rfl
@[simp] theorem getPoly_complete (j : PReg) : (s.complete).getPoly j = s.getPoly j := rfl
@[simp] theorem getReg_raise (k : Cause) (j : SReg) : (s.raise k).getReg j = s.getReg j := rfl
@[simp] theorem getPoly_raise (k : Cause) (j : PReg) : (s.raise k).getPoly j = s.getPoly j := rfl

@[simp] theorem getReg_reset (j : SReg) : State.reset.getReg j = 0 := by
  simp [State.getReg, State.reset]

@[simp] theorem getPoly_reset (j : PReg) : State.reset.getPoly j = [] := by
  simp [State.getPoly, State.reset]

end Sys2Proof.Machine
end

