-- ==== Sys2Proof/Laws/Exec.lean ====
section
/-! SUPPORT. What a command can do, said once: it takes a fault, or it completes with one of a few writes. -/

namespace Sys2Proof.Machine

@[simp] theorem done_eq (s : State) : done s = .next s.complete := rfl

@[simp] theorem trap_eq (k : Cause) (s : State) : trap k s = .next (s.raise k) := rfl

/-- The states a command can complete from, before `BUSY` falls: `s` with at most one kind of write. -/
inductive Wrote (s : State) : State → Prop where
  | nothing : Wrote s s
  | reg (rd : SReg) (v : Word) : Wrote s (s.setReg rd v)
  | poly (k : PReg) (l : Poly) (hl : s.PolysOk → s.GenOk → l.length ≤ Config.pcap) : Wrote s (s.setPoly k l)
  | generator (n : Byte) : Wrote s (s.setGen (rsGen n.toNat) n)
  | matrix (v : Nat) (h1 : Config.verMin ≤ v) (h2 : v ≤ Config.verMax) : Wrote s (s.setMatrix (sizeOfVersion v))
  | grid (g : Grid) (hg : ∀ mv m, Memory.wf mv m s.grid = true → Memory.wf mv m g = true) :
      Wrote s (s.setGrid g)
  | best (rd : SReg) (v m : Word) : Wrote s ((s.setReg rd v).setMinpen m)

/-- A fault or a completion. -/
def Ended (s t : State) : Prop := (∃ k, t = s.raise k) ∨ ∃ u, Wrote s u ∧ t = u.complete

theorem Ended.trap {s t : State} {k : Cause} (h : trap k s = .next t) : Ended s t := by
  simp only [trap_eq, Host.Outcome.next.injEq] at h
  exact .inl ⟨k, h.symm⟩

theorem Ended.done {s u t : State} (hw : Wrote s u) (h : done u = .next t) : Ended s t := by
  simp only [done_eq, Host.Outcome.next.injEq] at h
  exact .inr ⟨u, hw, h.symm⟩

/-! ### The shared checks -/

theorem needGen_cases {s t : State} {k : Result} (h : needGen s k = .next t) :
    (s.gvalid = true ∧ k = .next t) ∨ (s.gvalid = false ∧ trap .noGen s = .next t) := by
  unfold needGen at h
  split at h
  · exact .inl ⟨‹_›, h⟩
  · exact .inr ⟨by simpa using ‹¬ s.gvalid = true›, h⟩

theorem needMat_cases {s t : State} {k : Result} (h : needMat s k = .next t) :
    (s.mvalid = true ∧ k = .next t) ∨ (s.mvalid = false ∧ trap .noMat s = .next t) := by
  unfold needMat at h
  split at h
  · exact .inl ⟨‹_›, h⟩
  · exact .inr ⟨by simpa using ‹¬ s.mvalid = true›, h⟩

/-- A cell command that got past its checks found a matrix and both coordinates inside. -/
theorem needCell_cases {s t : State} {ra rb : SReg} {k : Nat → Nat → Result} (h : needCell s ra rb k = .next t) :
    (s.mvalid = true ∧ (s.getReg ra).toNat < s.msize.toNat ∧ (s.getReg rb).toNat < s.msize.toNat ∧
      k (s.getReg ra).toNat (s.getReg rb).toNat = .next t) ∨ (∃ c, trap c s = .next t) := by
  rcases needMat_cases h with ⟨hm, h⟩ | ⟨_, h⟩
  · split at h
    · rename_i hb
      simp only [State.inBounds, Bool.and_eq_true, decide_eq_true_eq] at hb
      exact .inl ⟨hm, hb.1, hb.2, h⟩
    · exact .inr ⟨_, h⟩
  · exact .inr ⟨_, h⟩

theorem cellCommand_ended {s t : State} {ra rb : SReg} {f : Nat → Nat → State}
    (hf : ∀ r c, Wrote s (f r c)) (h : needCell s ra rb (fun r c => done (f r c)) = .next t) : Ended s t := by
  rcases needCell_cases h with ⟨_, _, _, h⟩ | ⟨_, h⟩
  · exact .done (hf _ _) h
  · exact .trap h

theorem matrixCommand_ended {s u t : State} (hu : Wrote s u) (h : needMat s (done u) = .next t) : Ended s t := by
  rcases needMat_cases h with ⟨_, h⟩ | ⟨_, h⟩
  · exact .done hu h
  · exact .trap h

/-- The search ends with the matrix it started from. -/
theorem bestMask_grid (size : Nat) (g : Grid) : (bestMask size g).grid = g := by
  unfold bestMask
  generalize List.range Config.npat = ps
  suffices h : ∀ b : Search, (ps.foldl (Search.pass size) b).grid = b.grid from h _
  induction ps with
  | nil => intro b; rfl
  | cons p ps ih => intro b; rw [List.foldl_cons, ih, pass_grid]

theorem setGrid_self (s : State) : s.setGrid s.grid = s := rfl

/-! ### The inversion lemma -/

theorem pushCoeff_ended {pd : PReg} {v : Byte} {s t : State} (h : pushCoeff pd v s = .next t) : Ended s t := by
  unfold pushCoeff at h
  split at h
  · exact .trap h
  · refine .done (.poly _ _ fun hp _ => ?_) h
    have := hp pd
    simp only [List.length_append, List.length_cons, List.length_nil]
    omega

theorem exec_ended {i : Instr} {s t : State} (h : exec i s = .next t) : Ended s t := by
  cases i with
  | nop => exact .done .nothing h
  | li rd imm => exact .done (.reg _ _) h
  | gflog rd ra =>
    simp only [exec, execGflog] at h
    split at h
    · exact .done (.reg _ _) h
    · exact .trap h
  | gfexp rd ra => exact .done (.reg _ _) h
  | gfmul rd ra rb =>
    simp only [exec, execGfmul] at h
    split at h
    · exact .done (.reg _ _) h
    · exact .trap h
  | pclr pd => exact .done (.poly _ _ fun _ _ => Nat.zero_le _) h
  | ppush pd ra =>
    simp only [exec, execPpush] at h
    split at h
    · exact pushCoeff_ended h
    · exact .trap h
  | ppushi pd imm => exact pushCoeff_ended h
  | plen rd pa => exact .done (.reg _ _) h
  | pget rd pa rb =>
    simp only [exec, execPget] at h
    split at h
    · exact .done (.reg _ _) h
    · exact .trap h
  | pmul pd pa pb =>
    simp only [exec, execPmul] at h
    split at h
    · exact .trap h
    · rename_i h0
      split at h
      · exact .trap h
      · rename_i h1
        refine .done (.poly _ _ fun _ _ => ?_) h
        rw [length_polyMul (fun e => h0 (.inl (by simp [e]))) (fun e => h0 (.inr (by simp [e])))]
        omega
  | pmod pd pa pb =>
    simp only [exec, execPmod] at h
    split at h
    · rename_i hd
      exact .done (.poly _ _ fun hp _ => Nat.le_trans (length_polyMod_le hd _) (hp pa)) h
    · exact .trap h
  | rsgen n => exact .done (.generator _) h
  | rsenc pd pa =>
    rcases needGen_cases h with ⟨hv, h⟩ | ⟨_, h⟩
    · split at h
      · exact .trap h
      · refine .done (.poly _ _ fun _ hg => ?_) h
        simp only [State.GenOk, hv, if_true] at hg
        rw [hg, length_rsEncodeBy (rsGen_shape _).1 (rsGen_shape _).2]
        omega
    · exact .trap h
  | rsgetg pd =>
    rcases needGen_cases h with ⟨hv, h⟩ | ⟨_, h⟩
    · refine .done (.poly _ _ fun _ hg => ?_) h
      simp only [State.GenOk, hv, if_true] at hg
      have := s.gn.isLt
      rw [hg, (rsGen_shape _).1, Config.pcap]
      omega
    · exact .trap h
  | mnew v =>
    simp only [exec, execMnew] at h
    split at h
    · exact .trap h
    · rename_i hv
      exact .done (.matrix _ (by omega) (by omega)) h
  | mget rd ra rb => exact cellCommand_ended (fun _ _ => .reg _ _) h
  | mset ra rb v f => exact cellCommand_ended (fun _ _ => .grid _ fun _ _ => wf_cellSet _ _ _ _ _ _ _) h
  | mxor ra rb v => exact cellCommand_ended (fun _ _ => .grid _ fun _ _ => wf_cellXor _ _ _ _ _ _) h
  | mrsv ra rb v => exact cellCommand_ended (fun _ _ => .grid _ fun _ _ => wf_cellMark _ _ _ _ _ _) h
  | misr rd ra rb => exact cellCommand_ended (fun _ _ => .reg _ _) h
  | mdark rd => exact matrixCommand_ended (.reg _ _) h
  | mtot rd => exact matrixCommand_ended (.reg _ _) h
  | mask p => exact matrixCommand_ended (.grid _ fun _ _ => wf_applyMask _ _ _ _) h
  | pen1 rd => exact matrixCommand_ended (.reg _ _) h
  | pen2 rd => exact matrixCommand_ended (.reg _ _) h
  | pen3 rd => exact matrixCommand_ended (.reg _ _) h
  | pen4 rd => exact matrixCommand_ended (.reg _ _) h
  | pen rd => exact matrixCommand_ended (.reg _ _) h
  | best rd =>
    simp only [exec, execBest, bestMask_grid, setGrid_self] at h
    exact matrixCommand_ended (.best _ _ _) h

end Sys2Proof.Machine
end

