-- ==== Sys2Proof/Laws/PerInstr.lean ====
section
/-! SUPPORT. Statements about every command as syntax, one lemma per constructor. -/

namespace Sys2Proof.Laws

/-- The fields the encoder writes for a well-formed command are read back as that command by the formats of
30_encoding.md R81 under the opcodes of R84. -/
def FieldsReadBack.Statement (i : Instr) : Prop := i.wf = true → decodeFields i.fields = .ok i

namespace FieldsReadBack

theorem nop : Statement .nop := by
  intro _
  simp [decodeFields, Instr.fields, Fields.zeros, orMalformed, Fields.readZ]

theorem li (rd : SReg) (imm16 : BitVec 16) : Statement (.li rd imm16) := by
  intro _
  simp [decodeFields, Instr.fields, orMalformed, Fields.readRI, i16_of_pieces]

theorem gflog (rd ra : SReg) : Statement (.gflog rd ra) := by
  intro _
  simp [decodeFields, Instr.fields, Fields.zeros, orMalformed, Fields.readRR]

theorem gfexp (rd ra : SReg) : Statement (.gfexp rd ra) := by
  intro _
  simp [decodeFields, Instr.fields, Fields.zeros, orMalformed, Fields.readRR]

theorem gfmul (rd ra rb : SReg) : Statement (.gfmul rd ra rb) := by
  intro _
  simp [decodeFields, Instr.fields, Fields.zeros, orMalformed, Fields.readRRR]

theorem pclr (pd : PReg) : Statement (.pclr pd) := by
  intro _
  simp [decodeFields, Instr.fields, Fields.zeros, orMalformed, Fields.readP]

theorem ppush (pd : PReg) (ra : SReg) : Statement (.ppush pd ra) := by
  intro _
  simp [decodeFields, Instr.fields, Fields.zeros, orMalformed, Fields.readPR]

theorem ppushi (pd : PReg) (imm8 : Byte) : Statement (.ppushi pd imm8) := by
  intro _
  simp [decodeFields, Instr.fields, Fields.zeros, orMalformed, Fields.readPI]

theorem plen (rd : SReg) (pa : PReg) : Statement (.plen rd pa) := by
  intro _
  simp [decodeFields, Instr.fields, Fields.zeros, orMalformed, Fields.readRP]

theorem pget (rd : SReg) (pa : PReg) (rb : SReg) : Statement (.pget rd pa rb) := by
  intro _
  simp [decodeFields, Instr.fields, Fields.zeros, orMalformed, Fields.readRPR]

theorem pmul (pd pa pb : PReg) : Statement (.pmul pd pa pb) := by
  intro _
  simp [decodeFields, Instr.fields, Fields.zeros, orMalformed, Fields.readPPP]

theorem pmod (pd pa pb : PReg) : Statement (.pmod pd pa pb) := by
  intro _
  simp [decodeFields, Instr.fields, Fields.zeros, orMalformed, Fields.readPPP]

theorem rsgen (n : Byte) : Statement (.rsgen n) := by
  intro _
  simp [decodeFields, Instr.fields, Fields.zeros, orMalformed, Fields.readI]

theorem rsenc (pd pa : PReg) : Statement (.rsenc pd pa) := by
  intro _
  simp [decodeFields, Instr.fields, Fields.zeros, orMalformed, Fields.readPP]

theorem rsgetg (pd : PReg) : Statement (.rsgetg pd) := by
  intro _
  simp [decodeFields, Instr.fields, Fields.zeros, orMalformed, Fields.readP]

theorem mnew (version : Byte) : Statement (.mnew version) := by
  intro _
  simp [decodeFields, Instr.fields, Fields.zeros, orMalformed, Fields.readI]

theorem mget (rd ra rb : SReg) : Statement (.mget rd ra rb) := by
  intro _
  simp [decodeFields, Instr.fields, Fields.zeros, orMalformed, Fields.readRRR]

theorem mset (ra rb : SReg) (v f : Bool) : Statement (.mset ra rb v f) := by
  intro _
  cases v <;> cases f <;>
    simp [decodeFields, Instr.fields, Fields.zeros, orMalformed, Fields.readFRR]

theorem mxor (ra rb : SReg) (v : Bool) : Statement (.mxor ra rb v) := by
  intro _
  cases v <;>
    simp [decodeFields, Instr.fields, Fields.zeros, orMalformed, Fields.readFRR0, Fields.readFRR]

theorem mrsv (ra rb : SReg) (v : Bool) : Statement (.mrsv ra rb v) := by
  intro _
  cases v <;>
    simp [decodeFields, Instr.fields, Fields.zeros, orMalformed, Fields.readFRR0, Fields.readFRR]

theorem misr (rd ra rb : SReg) : Statement (.misr rd ra rb) := by
  intro _
  simp [decodeFields, Instr.fields, Fields.zeros, orMalformed, Fields.readRRR]

theorem mdark (rd : SReg) : Statement (.mdark rd) := by
  intro _
  simp [decodeFields, Instr.fields, Fields.zeros, orMalformed, Fields.readR]

theorem mtot (rd : SReg) : Statement (.mtot rd) := by
  intro _
  simp [decodeFields, Instr.fields, Fields.zeros, orMalformed, Fields.readR]

theorem mask (p : Byte) : Statement (.mask p) := by
  intro h
  have h8 : p.toNat < 8 := by simpa [Instr.wf] using h
  simp [decodeFields, Instr.fields, Fields.zeros, orMalformed, Fields.readI3, Fields.readI, h8]

theorem pen1 (rd : SReg) : Statement (.pen1 rd) := by
  intro _
  simp [decodeFields, Instr.fields, Fields.zeros, orMalformed, Fields.readR]

theorem pen2 (rd : SReg) : Statement (.pen2 rd) := by
  intro _
  simp [decodeFields, Instr.fields, Fields.zeros, orMalformed, Fields.readR]

theorem pen3 (rd : SReg) : Statement (.pen3 rd) := by
  intro _
  simp [decodeFields, Instr.fields, Fields.zeros, orMalformed, Fields.readR]

theorem pen4 (rd : SReg) : Statement (.pen4 rd) := by
  intro _
  simp [decodeFields, Instr.fields, Fields.zeros, orMalformed, Fields.readR]

theorem pen (rd : SReg) : Statement (.pen rd) := by
  intro _
  simp [decodeFields, Instr.fields, Fields.zeros, orMalformed, Fields.readR]

theorem best (rd : SReg) : Statement (.best rd) := by
  intro _
  simp [decodeFields, Instr.fields, Fields.zeros, orMalformed, Fields.readR]

end FieldsReadBack

end Sys2Proof.Laws
end

