-- ==== Sys2Proof/Laws/Step.lean ====
section
/-! SUPPORT. What a step can do, said once per function: `step`, `finish`, host accesses, and the run of the core. -/

namespace Sys2Proof.Machine

variable {s t : State}

/-! ### One step -/

theorem step_cons {e : Event} {rest : List Event} (h : s.schedule = e :: rest) :
    step s = ({ s with schedule := rest } : State).onEvent e := by
  unfold step; rw [h]

theorem step_nil_busy (h : s.schedule = []) (hb : s.busy = true) : step s = finish s := by
  unfold step; rw [h]; simp [hb]

theorem step_nil_idle (h : s.schedule = []) (hb : s.busy = false) : step s = .next s := by
  unfold step; rw [h]; simp [hb]

@[simp] theorem onEvent_write (i : BitVec 5) (w : Word) : s.onEvent (.write i w) = .next (s.hostWrite i w) := rfl

@[simp] theorem onEvent_read (i : BitVec 5) : s.onEvent (.read i) = .next (s.hostRead i) := rfl

@[simp] theorem onEvent_reset : s.onEvent .reset = .next s.resetBlock := rfl

@[simp] theorem onEvent_finish_busy (h : s.busy = true) : s.onEvent .finish = finish s := by
  simp [State.onEvent, h]

@[simp] theorem onEvent_finish_idle (h : s.busy = false) : s.onEvent .finish = .next s := by
  simp [State.onEvent, h]

/-! ### Finish -/

theorem finish_ok {i : Instr} (h : decode s.held = .ok i) : finish s = exec i s := by
  simp [finish, State.command, h]

theorem finish_error {e : Reject} (h : decode s.held = .error e) : finish s = .next (s.raise .illegal) := by
  simp [finish, State.command, h]

/-- `Finish` ends the held command in one of the ways a command can end. -/
theorem finish_ended (h : finish s = .next t) : Ended s t := by
  unfold finish at h
  split at h
  · exact exec_ended h
  · exact .trap h

/-- No command stops the machine: an outcome of `exec` is a next state, whatever the command and the state, since
faults are next states (log 7). -/
theorem exec_answers_next (i : Instr) (s : State) : ∃ t, exec i s = .next t := by
  cases h : exec i s with
  | next t => exact ⟨t, rfl⟩
  | fault r => cases r
  | refused r =>
    exfalso
    cases i <;>
      simp only [exec, execNop, execLi, execGflog, execGfexp, execGfmul, execPclr, execPpush, execPpushi, execPlen,
        execPget, execPmul, execPmod, execRsgen, execRsenc, execRsgetg, execMnew, execMget, execMset, execMxor,
        execMrsv, execMisr, execMdark, execMtot, execMask, execPen1, execPen2, execPen3, execPen4, execPen, execBest,
        pushCoeff, scoreInto, needCell, needMat, needGen, done, trap] at h <;>
      (repeat' split at h) <;> cases h

theorem finish_answers_next (s : State) : ∃ t, finish s = .next t := by
  unfold finish
  split
  · exact exec_answers_next _ _
  · exact ⟨_, rfl⟩

theorem onEvent_answers_next (e : Event) (s : State) : ∃ t, s.onEvent e = .next t := by
  cases e with
  | write i w => exact ⟨_, rfl⟩
  | read i => exact ⟨_, rfl⟩
  | reset => exact ⟨_, rfl⟩
  | finish =>
    cases hb : s.busy
    · exact ⟨s, onEvent_finish_idle hb⟩
    · rw [onEvent_finish_busy hb]
      exact finish_answers_next s

theorem step_answers_next (s : State) : ∃ t, step s = .next t := by
  unfold step
  split
  · exact onEvent_answers_next _ _
  · split
    · exact finish_answers_next s
    · exact ⟨_, rfl⟩

/-! ### Host accesses -/

/-- A `CMD` write has one of three outcomes (45_system.md R241). -/
theorem submit_cases (s : State) (w : Word) :
    (s.fault = true ∧ s.submit w = s) ∨
    (s.fault = false ∧ s.busy = true ∧ s.submit w = { s with ovr := true }) ∨
    (s.fault = false ∧ s.busy = false ∧ s.submit w = { s with busy := true, held := w }) := by
  unfold State.submit
  cases s.fault <;> cases s.busy <;> simp

/-- A host write submits, resets or is ignored. -/
theorem hostWrite_cases (s : State) (i : BitVec 5) (w : Word) :
    (i = 0 ∧ s.hostWrite i w = s.submit w) ∨
    (i = 4 ∧ w.getLsbD 0 = true ∧ s.hostWrite i w = s.resetBlock) ∨
    (i ≠ 0 ∧ (i = 4 → w.getLsbD 0 = false) ∧ s.hostWrite i w = s) := by
  unfold State.hostWrite
  by_cases h0 : i = 0
  · exact .inl ⟨h0, if_pos h0⟩
  · rw [if_neg h0]
    by_cases h4 : i = 4 ∧ w.getLsbD 0 = true
    · exact .inr (.inl ⟨h4.1, h4.2, if_pos h4⟩)
    · refine .inr (.inr ⟨h0, fun e => ?_, if_neg h4⟩)
      by_contra hw
      exact h4 ⟨e, by simpa using hw⟩

/-- The result words by number (70_reset_and_hazards.md R285). -/
theorem isResultWord_iff (i : BitVec 5) :
    isResultWord i = true ↔ i = 2 ∨ i = 3 ∨ (5 ≤ i.toNat ∧ i.toNat ≤ 15) := by
  simp [isResultWord, or_assoc]

/-- `STATUS` is exact at every moment (10_state.md R32). -/
@[simp] theorem isResultWord_status : isResultWord 1 = false := by decide

/-- A host read adds an answer and, at most, counts one free value. -/
theorem hostRead_cases (s : State) (i : BitVec 5) :
    (s.busy = true ∧ isResultWord i = true ∧
      s.hostRead i = { s with answers := Config.busyRead s.draws :: s.answers, draws := s.draws + 1 }) ∨
    ((s.busy = true → isResultWord i = false) ∧ s.hostRead i = { s with answers := s.windowWord i :: s.answers }) := by
  unfold State.hostRead
  split
  · rename_i h
    exact .inl ⟨h.1, h.2, rfl⟩
  · rename_i h
    refine .inr ⟨fun hb => ?_, rfl⟩
    by_contra hi
    exact h ⟨hb, by simpa using hi⟩

/-- `STATUS` bit by bit (10_state.md R32). -/
theorem statusWord_bits (s : State) :
    s.statusWord.getLsbD 0 = s.busy ∧ s.statusWord.getLsbD 1 = s.fault ∧ s.statusWord.getLsbD 2 = s.ovr ∧
      s.statusWord.getLsbD 3 = s.gvalid ∧ s.statusWord.getLsbD 4 = s.mvalid := by
  simp only [State.statusWord, wordOfBool]
  cases s.busy <;> cases s.fault <;> cases s.ovr <;> cases s.gvalid <;> cases s.mvalid <;> decide

/-! ### Runs -/

@[simp] theorem core_run_zero (s : State) : core.run 0 s = .next s := rfl

theorem core_run_succ (k : Nat) (h : step s = .next t) : core.run (k + 1) s = core.run k t := by
  have h' : core.step s = .next t := h
  simp only [Host.Core.run, h']

/-- A run is its first `j` steps and then the rest. -/
theorem core_run_add (j k : Nat) (h : core.run j s = .next t) : core.run (j + k) s = core.run k t := by
  induction j generalizing s with
  | zero =>
    cases h
    rw [Nat.zero_add]
  | succ j ih =>
    obtain ⟨u, hu⟩ := step_answers_next s
    rw [core_run_succ j hu] at h
    rw [Nat.add_right_comm, core_run_succ (j + k) hu]
    exact ih h

/-- A host read changes the host's side of the model only. -/
theorem hostRead_eq (s : State) (i : BitVec 5) :
    ∃ a d, s.hostRead i = { s with answers := a, draws := d } := by
  rcases hostRead_cases s i with ⟨_, _, h⟩ | ⟨_, h⟩
  · exact ⟨_, _, h⟩
  · exact ⟨_, s.draws, h⟩

/-! ### Host programs -/

@[simp] theorem andThen_next (t : State) (k : State → Result) : andThen (.next t) k = k t := rfl

@[simp] theorem inTurn_nil {α : Type} (f : α → State → Result) (s : State) : inTurn f [] s = .next s := rfl

@[simp] theorem inTurn_cons {α : Type} (f : α → State → Result) (a : α) (as : List α) (s : State) :
    inTurn f (a :: as) s = andThen (f a s) (inTurn f as) := rfl

theorem inTurn_append {α : Type} (f : α → State → Result) (as bs : List α) (s : State) :
    inTurn f (as ++ bs) s = andThen (inTurn f as s) (inTurn f bs) := by
  induction as generalizing s with
  | nil => rfl
  | cons a as ih =>
    simp only [List.cons_append, inTurn_cons]
    cases f a s with
    | next t => exact ih t
    | fault _ => rfl
    | refused _ => rfl

/-- A word issued to an idle block without a fault is held and run. -/
theorem issue_ready {w : Word} (hf : s.fault = false) (hb : s.busy = false) :
    issue w s = finish { s with busy := true, held := w } := by
  simp [issue, State.submit, hf, hb]

/-- A word issued to a block in the fault state is ignored. -/
theorem issue_fault {w : Word} (hf : s.fault = true) (hb : s.busy = false) : issue w s = .next s := by
  simp [issue, State.submit, hf, hb]

theorem issueAll_fault (ws : List Word) (hf : s.fault = true) (hb : s.busy = false) : issueAll ws s = .next s := by
  induction ws with
  | nil => rfl
  | cons w ws ih =>
    show andThen (issue w s) (issueAll ws) = _
    rw [issue_fault hf hb]
    exact ih

/-- A well-formed command whose word is issued to an idle block without a fault has its own effect. -/
theorem issue_encode {i : Instr} (hd : decode (encode i) = .ok i) (hf : s.fault = false) (hb : s.busy = false) :
    issue (encode i) s = exec i { s with busy := true, held := encode i } := by
  rw [issue_ready hf hb]
  simp only [finish, State.command, hd]

end Sys2Proof.Machine
end

