-- ==== Sys2Proof/Tests/Slice0.lean ====
section
/-! SUPPORT. Tests of the model against spec/95_test_vectors.md and the examples of the command rules, and one witness per
obligation that has hypotheses. Expected values are the spec's. -/

/- One theorem after the other: most are checked by evaluation, and each waits for the kernel. -/
set_option Elab.async false

namespace Sys2Proof.Tests

open Sys2Proof Sys2Proof.Machine

/-! ### Helpers -/

/-- The result is a next state that passes the check. -/
def ends (r : Result) (p : State → Bool) : Bool :=
  match r with
  | .next t => p t
  | .fault _ => false
  | .refused _ => false

/-- The reset state with these scalar registers. -/
def regs (l : List (SReg × Word)) : State := l.foldl (fun s p => s.setReg p.1 p.2) State.reset

/-- The reset state with these polynomial registers. -/
def polys (l : List (PReg × Poly)) : State := l.foldl (fun s p => s.setPoly p.1 p.2) State.reset

/-- A fresh version-1 matrix, as `MNEW #1` leaves it. -/
def fresh1 : State := State.reset.setMatrix 21

/-- A fresh version-1 matrix and the coordinates `x[1]`, `x[2]`. -/
def at1 (r c : Word) : State := (fresh1.setReg 1 r).setReg 2 c

/-- The fault `k` was taken, with the word the block holds, and nothing else changed. -/
def faults (i : Instr) (s : State) (k : Byte) : Bool :=
  ends (exec i s) fun t => t == { s with fault := true, fcause := k, finfo := s.held, busy := false }

/-- A line written as in 95_test_vectors.md, `1` or `#` = dark. -/
def line (txt : String) : List Bool := txt.toList.map fun ch => ch == '1' || ch == '#'

/-! ### Well-formedness -/

theorem test_wf_refuses_mask_8 : (Instr.mask 8).wf = false ∧ (Instr.mask 255).wf = false := by decide

theorem test_wf_accepts_mask_7 : (Instr.mask 7).wf = true := by decide

/-! ### Decoding: the words of 95_test_vectors.md section 9, both ways -/

/-- Each word decodes to its command, and the command encodes to the word. -/
def agree (l : List (Word × Instr)) : Bool :=
  l.all fun p => (decode p.1).toOption == some p.2 && encode p.2 == p.1

theorem test_words_scalar : agree
    [(0x00000000, .nop), (0x0130011D, .li 3 0x011D), (0x0170FFFF, .li 7 0xFFFF), (0x10010000, .gflog 0 1),
     (0x11220000, .gfexp 2 2), (0x12012000, .gfmul 0 1 2), (0x12777000, .gfmul 7 7 7)] = true := by decide

theorem test_words_poly : agree
    [(0x20200000, .pclr 2), (0x21050000, .ppush 0 5), (0x221000EC, .ppushi 1 236), (0x23130000, .plen 1 3),
     (0x24012000, .pget 0 1 2), (0x25201000, .pmul 2 0 1), (0x26302000, .pmod 3 0 2)] = true := by decide

theorem test_words_rs : agree
    [(0x3000000A, .rsgen 10), (0x300000FF, .rsgen 255), (0x31100000, .rsenc 1 0), (0x32300000, .rsgetg 3)] = true := by
  decide

theorem test_words_matrix : agree
    [(0x40000001, .mnew 1), (0x40000028, .mnew 40), (0x41012000, .mget 0 1 2), (0x42012000, .mset 1 2 false false),
     (0x42112000, .mset 1 2 true false), (0x42212000, .mset 1 2 false true), (0x42312000, .mset 1 2 true true),
     (0x43112000, .mxor 1 2 true), (0x44012000, .mrsv 1 2 false), (0x44112000, .mrsv 1 2 true),
     (0x45312000, .misr 3 1 2), (0x46400000, .mdark 4), (0x47500000, .mtot 5)] = true := by decide

theorem test_words_mask : agree
    [(0x50000000, .mask 0), (0x50000007, .mask 7), (0x51000000, .pen1 0), (0x52100000, .pen2 1), (0x53200000, .pen3 2),
     (0x54300000, .pen4 3), (0x55400000, .pen 4), (0x56000000, .best 0), (0x56700000, .best 7)] = true := by decide

/-- Illegal words with an unassigned opcode. -/
theorem test_words_unassigned :
    [0x02000000, 0xFFFFFFFF, 0xFF000000, 0x48000000, 0x57000000].all
      (fun w => (decode w).toOption == none) = true := by decide

/-- Illegal words with a stray bit or a field out of range. -/
theorem test_words_malformed :
    [0x00000001, 0x01800000, 0x01010000, 0x10080000, 0x10010001, 0x12812000, 0x12018000, 0x20400000, 0x25201100,
     0x25241000, 0x31140000, 0x30000100, 0x40100001, 0x42412000, 0x43312000, 0x44212000, 0x50000008, 0x500000FF,
     0x56800000, 0x56000001].all (fun w => (decode w).toOption == none) = true := by decide

/-- The `match` word of each row of 30_encoding.md R84 is that row's command and matches no other row. -/
theorem test_opcode_rows :
    opcodeRows.length = 30 ∧
    opcodeRows.all (fun r => (decode r.bits).toOption.map Instr.mnemonic == some r.mnemonic &&
      (opcodeRows.filter (·.accepts r.bits)).length == 1) = true := by decide +kernel

/-! ### Text form and pseudo-instructions (30_encoding.md R90, R91) -/

theorem test_text_assembles :
    assembleChars "LI r3, #0x011D ; load".toList = some (.li 3 0x011D) ∧
    assembleChars "MSET r1, r2, #1".toList = some (.mset 1 2 true false) ∧
    assembleChars "MASK #8".toList = none ∧ assembleChars "PCLR p4".toList = none ∧
    assembleChars "NOP".toList = some .nop := by decide +kernel

theorem test_text_prints :
    textOf (.pget 0 1 2) = "PGET r0, p1, r2" ∧ textOf (.rsgen 10) = "RSGEN #10" ∧ textOf .nop = "NOP" := by
  decide +kernel

theorem test_pseudo_expansions :
    expand (.rsblk 1 0 4) = [.rsgen 4, .rsenc 1 0] ∧ expand (.munrsv 1 2) = [.mrsv 1 2 false] ∧
    expand (.munmask 3) = [.mask 3] ∧ (expand (.pload 2 [1, 3])).map encode = [0x20200000, 0x22200001, 0x22200003] := by
  decide

theorem test_call_reserved_set :
    (D0Call.set 0 0 true true).commands.map encode = [0x01100000, 0x01200000, 0x42312000] := by decide

/-- `MDARK r0` without a matrix faults, and the later `LI r1, #5` is ignored (95_test_vectors.md section 10). -/
theorem test_sequence_stops_at_fault :
    ends (execAll [.mdark 0, .li 1 5] State.reset)
      (fun t => t.fcause == 3 && t.finfo == 0x46000000 && t.getReg 1 == 0) = true := by decide +kernel

/-- Results as R247 reads them, newest first: 3 × 7 = 9; `[1, 1]` × `[1, 2]` has length 3 and is `[1, 3, 2]`; the two EC
codewords of `[1, 246]` are `[0, 247]`. -/
theorem test_call_results :
    ends ((D0Call.mul 3 7).perform State.reset) (fun t => t.answers == [9]) = true ∧
    ends ((D0Call.polyMul [1, 1] [1, 2]).perform State.reset) (fun t => t.answers == [2, 3, 1, 3]) = true ∧
    ends ((D0Call.encode 2 [1, 246]).perform (State.reset.setGen [1, 3, 2] 2)) (fun t => t.answers == [247, 0]) = true ∧
    ends ((D0Call.newMatrix 7).perform State.reset) (fun t => t.answers == [45]) = true := by decide +kernel

/-- The logarithm of 0 faults: the host reads `FCAUSE` and `FINFO`. -/
theorem test_call_fault :
    ends ((D0Call.log 0).perform State.reset) (fun t => t.answers == [0x10010000, 5]) = true := by decide +kernel

/-! ### Scalar and GF(256) commands (95_test_vectors.md section 2) -/

theorem test_nop_changes_nothing : ends (exec .nop { fresh1 with busy := true }) (· == fresh1) = true := by
  decide +kernel

theorem test_li_clears_upper_half :
    ends (exec (.li 3 0x011D) (regs [(3, 0xFFFFFFFF)])) (fun t => t.getReg 3 == 285) = true := by decide +kernel

theorem test_gflog_takes_low_byte :
    ends (exec (.gflog 0 1) (regs [(1, 285)])) (fun t => t.getReg 0 == 8) = true := by decide +kernel

theorem test_gflog_zero_byte : faults (.gflog 0 1) { regs [(1, 256)] with held := 0x10010000 } 5 = true := by
  decide +kernel

theorem test_gfexp_modulus_is_255 :
    ends (exec (.gfexp 2 2) (regs [(2, 508)])) (fun t => t.getReg 2 == 71) = true := by decide +kernel

theorem test_gfexp_full_word :
    ends (exec (.gfexp 0 1) (regs [(1, 4294967295)])) (fun t => t.getReg 0 == 1) = true := by decide +kernel

theorem test_gfmul_product :
    ends (exec (.gfmul 5 1 4) (regs [(1, 83), (4, 202)])) (fun t => t.getReg 5 == 143) = true := by decide +kernel

theorem test_gfmul_range : faults (.gfmul 0 1 2) (regs [(1, 4294967295)]) 4 = true := by decide +kernel

/-! ### Polynomial commands (section 3) -/

theorem test_pclr : ends (exec (.pclr 2) (polys [(2, [1, 2])])) (· == State.reset) = true := by decide +kernel

theorem test_ppush_appends :
    ends (exec (.ppush 0 5) ((polys [(0, [32, 91])]).setReg 5 11)) (fun t => t.getPoly 0 == [32, 91, 11]) = true := by
  decide +kernel

/-- Both conditions hold: the value is reported (60_exceptions.md R259). -/
theorem test_ppush_range_before_length :
    faults (.ppush 0 1) ((polys [(0, List.replicate 256 7)]).setReg 1 300) 4 = true := by decide +kernel

theorem test_ppushi_zero_first :
    ends (exec (.ppushi 1 0) State.reset) (fun t => t.getPoly 1 == [0]) = true := by decide +kernel

theorem test_ppushi_full : faults (.ppushi 0 0) (polys [(0, List.replicate 256 7)]) 6 = true := by decide +kernel

theorem test_plen_counts_leading_zeros :
    ends (exec (.plen 1 3) (polys [(3, [0, 0, 7])])) (fun t => t.getReg 1 == 3) = true := by decide +kernel

theorem test_pget_index :
    ends (exec (.pget 0 1 2) ((polys [(1, [196, 35, 39])]).setReg 2 1)) (fun t => t.getReg 0 == 35) = true := by
  decide +kernel

theorem test_pget_beyond : faults (.pget 0 1 2) ((polys [(1, [196, 35, 39])]).setReg 2 3) 6 = true := by
  decide +kernel

theorem test_pmul_convolution :
    ends (exec (.pmul 2 0 1) (polys [(0, [2, 3]), (1, [4, 5, 6])])) (fun t => t.getPoly 2 == [8, 6, 3, 10]) = true := by
  decide +kernel

theorem test_pmul_square_in_place :
    ends (exec (.pmul 0 0 0) (polys [(0, [255, 255])])) (fun t => t.getPoly 0 == [226, 0, 226]) = true := by
  decide +kernel

theorem test_pmod_remainder :
    ends (exec (.pmod 3 0 2) (polys [(0, [255, 254, 253, 252, 251]), (2, [1, 7, 14, 8])]))
      (fun t => t.getPoly 3 == [193, 20, 46]) = true := by decide +kernel

/-- The loop strips four zeros but does not touch two (41_poly.md R122 c). -/
theorem test_pmod_zeros :
    polyMod [0, 0, 0, 0] [1, 3, 2] = [] ∧ polyMod [0, 0] [1, 3, 2] = [0, 0] ∧ polyMod [1, 246, 0, 0] [1, 3, 2] = [247] := by
  decide +kernel

/-! ### Reed-Solomon commands (sections 4 and 5) -/

theorem test_rsgen_10 :
    ends (exec (.rsgen 10) State.reset) (fun t => t.gvalid && t.gn == 10 &&
      t.gen == [1, 216, 194, 159, 111, 199, 94, 95, 113, 157, 193]) = true := by decide +kernel

theorem test_rsgen_0 : ends (exec (.rsgen 0) State.reset) (fun t => t.gvalid && t.gen == [1]) = true := by decide +kernel

theorem test_rsenc_block :
    ends (exec (.rsenc 1 0) ((polys [(0, [32, 91, 11, 120, 209, 114, 220, 77, 67, 64, 236, 17, 236, 17, 236, 17])]).setGen
        (rsGen 10) 10))
      (fun t => t.getPoly 1 == [196, 35, 39, 119, 235, 215, 231, 226, 93, 23]) = true := by decide +kernel

/-- A short remainder gets its zero in front. -/
theorem test_rsenc_zero_in_front :
    ends (exec (.rsenc 0 0) ((polys [(0, [1, 246])]).setGen [1, 3, 2] 2)) (fun t => t.getPoly 0 == [0, 247]) = true := by
  decide +kernel

theorem test_rsgetg_copies :
    ends (exec (.rsgetg 3) (State.reset.setGen [1, 3, 2] 2)) (fun t => t.getPoly 3 == [1, 3, 2]) = true := by
  decide +kernel

theorem test_rsgetg_without_generator : faults (.rsgetg 0) State.reset 2 = true := by decide +kernel

/-! ### Matrix commands (section 7) -/

theorem test_mnew_7 :
    ends (exec (.mnew 7) State.reset) (fun t => t.msize == 45 && t.mvalid && darkCount t.grid == 0) = true := by
  decide +kernel

theorem test_mnew_41 : faults (.mnew 41) State.reset 4 = true := by decide +kernel

theorem test_mget_last_cell :
    ends (exec (.mget 0 1 2) { at1 20 20 with grid := cellSet (freshGrid 21) 20 20 true true })
      (fun t => t.getReg 0 == 1) = true := by decide +kernel

theorem test_mget_column_21 : faults (.mget 0 1 2) (at1 20 21) 8 = true := by decide +kernel

theorem test_mset_writes_and_reserves :
    ends (exec (.mset 1 2 true true) (at1 5 9))
      (fun t => cellGet t.grid 5 9 && cellIsRsv t.grid 5 9 && !cellGet t.grid 9 5) = true := by decide +kernel

theorem test_mset_suppressed :
    ends (exec (.mset 1 2 false false) { at1 5 9 with grid := cellSet (freshGrid 21) 5 9 true true })
      (fun t => cellGet t.grid 5 9 && cellIsRsv t.grid 5 9) = true := by decide +kernel

theorem test_mxor_flips : ends (exec (.mxor 1 2 true) (at1 5 9)) (fun t => cellGet t.grid 5 9) = true := by
  decide +kernel

theorem test_mxor_checks_bounds_for_zero : faults (.mxor 1 2 false) (at1 21 0) 8 = true := by decide +kernel

theorem test_mrsv_keeps_value :
    ends (exec (.mrsv 1 2 false) { at1 5 9 with grid := cellSet (freshGrid 21) 5 9 true true })
      (fun t => cellGet t.grid 5 9 && !cellIsRsv t.grid 5 9) = true := by decide +kernel

theorem test_misr_reads :
    ends (exec (.misr 3 1 2) { at1 5 9 with grid := cellMark (freshGrid 21) 5 9 true })
      (fun t => t.getReg 3 == 1) = true := by decide +kernel

/-- 221 cells with (r + c) even (44_mask.md R203). -/
theorem test_mdark_after_mask_0 :
    ends (exec (.mdark 4) { fresh1 with grid := applyMask 0 (freshGrid 21) }) (fun t => t.getReg 4 == 221) = true := by
  decide +kernel

theorem test_mtot : ends (exec (.mtot 5) fresh1) (fun t => t.getReg 5 == 441) = true := by decide +kernel

/-! ### Mask and penalty commands (sections 6 and 8) -/

/-- The first 6 rows and 12 columns of a pattern. -/
def rendering (p : Nat) : List (List Bool) :=
  (List.range 6).map fun i => (List.range 12).map fun j => maskFn p i j

theorem test_renderings_low :
    rendering 0 = ["#.#.#.#.#.#.", ".#.#.#.#.#.#", "#.#.#.#.#.#.", ".#.#.#.#.#.#", "#.#.#.#.#.#.",
      ".#.#.#.#.#.#"].map line ∧
    rendering 3 = ["#..#..#..#..", "..#..#..#..#", ".#..#..#..#.", "#..#..#..#..", "..#..#..#..#",
      ".#..#..#..#."].map line ∧
    rendering 4 = ["###...###...", "###...###...", "...###...###", "...###...###", "###...###...",
      "###...###..."].map line := by decide +kernel

theorem test_renderings_lines :
    rendering 1 = ["############", "............", "############", "............", "############",
      "............"].map line ∧
    rendering 2 = (List.replicate 6 "#..#..#..#..").map line := by decide +kernel

theorem test_renderings_high :
    rendering 5 = ["############", "#.....#.....", "#..#..#..#..", "#.#.#.#.#.#.", "#..#..#..#..",
      "#.....#....."].map line ∧
    rendering 6 = ["############", "###...###...", "##.##.##.##.", "#.#.#.#.#.#.", "#.##.##.##.#",
      "#...###...##"].map line ∧
    rendering 7 = ["#.#.#.#.#.#.", "...###...###", "#...###...##", ".#.#.#.#.#.#", "###...###...",
      ".###...###.."].map line := by decide +kernel

theorem test_mask_6 :
    ends (exec (.mask 6) fresh1) (fun t => darkCount t.grid == 293) = true := by decide +kernel

theorem test_mask_spares_reserved :
    ends (exec (.mask 0) { fresh1 with grid := cellMark (freshGrid 21) 5 9 true })
      (fun t => !cellGet t.grid 5 9 && cellGet t.grid 9 5) = true := by decide +kernel

/-- Lines of 95_test_vectors.md section 8.1: runs and windows. -/
theorem test_lines :
    ["000000000000000000000", "111110111111000000010", "101010101010101010101", "000010111010000000000",
     "101110100001011101000", "000010111010000101110", "111101000101111010001", "110000101110100001011",
     "000001011101000010111", "11111000001111100000011111", "1111000011110000111100001"].map
      (fun l => (lineN1 (line l), lineN3 (line l))) =
    [(19, 0), (12, 0), (0, 0), (8, 80), (0, 80), (0, 80), (0, 0), (0, 80), (3, 80), (16, 0), (0, 0)] := by
  decide +kernel

/-- The boundaries of 95_test_vectors.md section 8.2. -/
theorem test_ratio_boundaries :
    [0, 1, 22, 23, 198, 199, 220, 221, 242, 243, 264, 265, 440, 441].map (ratioScore · 441) =
      [100, 90, 90, 80, 10, 0, 0, 10, 10, 20, 20, 30, 100, 100] ∧
    [250, 251, 312, 313].map (ratioScore · 625) = [20, 10, 0, 10] := by decide +kernel

/-- Matrix C of 95_test_vectors.md section 8.5. -/
def matrixC : State :=
  { fresh1 with grid := [4, 6, 7, 8, 10].foldl (fun g c => cellSet g 10 c true false) (freshGrid 21) }

theorem test_pen1_matrix_c : ends (exec (.pen1 0) matrixC) (fun t => t.getReg 0 == 772) = true := by decide +kernel

theorem test_pen2_matrix_c : ends (exec (.pen2 1) matrixC) (fun t => t.getReg 1 == 1152) = true := by decide +kernel

theorem test_pen3_matrix_c : ends (exec (.pen3 2) matrixC) (fun t => t.getReg 2 == 80) = true := by decide +kernel

theorem test_pen4_matrix_c : ends (exec (.pen4 3) matrixC) (fun t => t.getReg 3 == 90) = true := by decide +kernel

theorem test_pen_matrix_c : ends (exec (.pen 4) matrixC) (fun t => t.getReg 4 == 2094) = true := by decide +kernel

theorem test_best_without_matrix : faults (.best 0) State.reset 3 = true := by decide +kernel

/-- The checkerboard start of 95_test_vectors.md section 8.6: a winner other than 0 and a score of 0. -/
theorem test_best_checkerboard :
    ends (exec (.best 2) { fresh1 with grid := applyMask 0 (freshGrid 21) })
      (fun t => t.getReg 2 == 2 && t.minpen == 0 && t.grid == applyMask 0 (freshGrid 21)) = true := by decide +kernel

/-! ### The protocol (section 11) -/

/-- The reset state with these events to come. -/
def coming (es : List Event) : State := { State.reset with schedule := es }

theorem test_write_accepted :
    ends (step (coming [.write 0 0x01100005])) (fun t => t.statusWord == 0x01 && t.held == 0x01100005) = true := by
  decide +kernel

theorem test_write_dropped :
    ends (step { coming [.write 0 0x01200007] with busy := true, held := 0x01100005 })
      (fun t => t.statusWord == 0x05 && t.held == 0x01100005) = true := by decide +kernel

theorem test_finish_executes :
    ends (step { coming [.finish] with busy := true, ovr := true, held := 0x01100005 })
      (fun t => t.statusWord == 0x04 && t.getReg 1 == 5) = true := by decide +kernel

theorem test_write_ignored_under_fault :
    ends (step { coming [.write 0 0x01000009] with fault := true, fcause := 8 })
      (fun t => t == { State.reset with fault := true, fcause := 8 }) = true := by decide +kernel

theorem test_soft_reset_abandons :
    ends (step { coming [.write 4 1] with busy := true, mvalid := true, msize := 21, ovr := true })
      (fun t => t == State.reset) = true := by decide +kernel

theorem test_id_reads : ends (step (coming [.read 16])) (fun t => t.answers == [0x52534D31]) = true := by decide +kernel

/-- `ID`, the write-only words and the unmapped words are not among the words R285 lists; that they are fixed then is the
model's reading (log 3). -/
theorem test_busy_constants :
    [((16 : BitVec 5), (0x52534D31 : Word)), (0, 0), (4, 0), (17, 0), (31, 0)].all (fun p =>
      ends (step { coming [.read p.1] with busy := true }) fun t => t.answers == [p.2] && t.draws == 0) = true := by
  decide +kernel

theorem test_unmapped_reads_zero :
    ends (step { coming [.read 20] with fault := true }) (fun t => t.answers == [0]) = true := by decide +kernel

theorem test_fetch_word_runs :
    ends (step (State.reset.withFetchWord 32 0x0130011D)) (fun t => t.getReg 3 == 285 && !t.busy) = true := by
  decide +kernel

theorem test_table_word : decodeTableWord 32 0x42312000 = some (.mset 1 2 true true) := by decide

/-- An accepted illegal word faults with code 1 and that word (60_exceptions.md R270). -/
theorem test_illegal_word :
    ends (step (State.reset.withFetchWord 32 0xFF000000))
      (fun t => t.fault && t.fcause == 1 && t.finfo == 0xFF000000 && !t.busy) = true := by decide +kernel

/-! ### Witnesses: for each obligation with hypotheses, states and operands that meet them, clause by clause -/

/-- A block that holds `w` and runs it, with these events to come. -/
def running (w : Word) (es : List Event) : State := { coming es with busy := true, held := w }

/-- A block in the fault state, with these events to come. -/
def broken (es : List Event) : State := { coming es with fault := true, fcause := 8, finfo := 0x41012000 }

/-- A matrix of 2 × 2 cells, one of them reserved, `x[1]` = 1, `x[2]` = 0. -/
def tiny : State :=
  { State.reset.setReg 1 1 with
    mvalid := true, msize := 2, grid := [[⟨true, false⟩, ⟨false, false⟩], [⟨true, true⟩, ⟨false, false⟩]] }

theorem witness_DecodeEncodeRoundTrip : (Instr.mask 7).wf = true ∧ (Instr.li 7 0xFFFF).wf = true := by decide

theorem witness_DecodedWordIsItsEncoding :
    decode 0x50000007 = .ok (.mask 7) ∧ decode 0x00000000 = .ok .nop := ⟨rfl, rfl⟩

theorem witness_DecoderAgreesWithOpcodeTable :
    decode 0x50000007 = .ok (.mask 7) ∧ decode 0x50000008 = .error .malformed ∧
    (∃ r ∈ opcodeRows, r.accepts 0x50000007 = true) ∧ (∀ r ∈ opcodeRows, r.accepts 0x50000008 = false) :=
  ⟨rfl, rfl, by decide, by decide⟩

theorem witness_TextFormNamesOneCommand : (Instr.mask 7).wf = true ∧ (Instr.mset 7 7 true true).wf = true := by decide

theorem witness_FinishRunsHeldCommand :
    (running 0x0130011D [.finish]).busy = true ∧ decode (running 0x0130011D [.finish]).held = .ok (.li 3 0x011D) ∧
    (running 0x0130011D [.finish]).schedule = .finish :: [] ∧ (running 0x0130011D []).schedule = [] :=
  ⟨rfl, rfl, rfl, rfl⟩

theorem witness_IllegalWordRaisesIllegal :
    (running 1 [.finish]).busy = true ∧ decode (running 1 [.finish]).held = .error .malformed ∧
    (running 1 [.finish]).schedule = .finish :: [] := ⟨rfl, rfl, rfl⟩

theorem witness_SubmissionHasThreeOutcomes :
    ((broken [.write 0 5]).schedule = .write 0 5 :: [] ∧ (broken [.write 0 5]).fault = true) ∧
    ((running 0 [.write 0 5]).schedule = .write 0 5 :: [] ∧ (running 0 [.write 0 5]).fault = false ∧
      (running 0 [.write 0 5]).busy = true) ∧
    ((coming [.write 0 5]).schedule = .write 0 5 :: [] ∧ (coming [.write 0 5]).fault = false ∧
      (coming [.write 0 5]).busy = false) := by decide

theorem witness_BothResetsGiveTheResetState :
    (running 0 [.reset]).schedule = .reset :: [] ∧
    ((running 0 [.write 4 1]).schedule = .write 4 1 :: [] ∧ (1 : Word).getLsbD 0 = true) ∧
    ((running 0 [.write 4 0xFFFFFFFE]).schedule = .write 4 0xFFFFFFFE :: [] ∧ (0xFFFFFFFE : Word).getLsbD 0 = false) := by
  decide

theorem witness_IdleBlockAndIgnoredWritesChangeNothing :
    ((coming []).schedule = [] ∧ (coming []).busy = false) ∧
    (∀ i ∈ [1, 3, 5, 31], (coming [.write i 9]).schedule = .write i 9 :: [] ∧ i ≠ 0 ∧ i ≠ 4) := by decide

theorem witness_IdleReadReturnsWindowWord :
    (∀ i ∈ [(0 : BitVec 5), 1, 2, 3, 4, 5, 6, 7, 8, 15, 16, 17, 31],
      (coming [.read i]).schedule = .read i :: [] ∧ (coming [.read i]).busy = false) ∧
    (8 : BitVec 5).toNat = 8 + (0 : SReg).val ∧ (15 : BitVec 5).toNat = 8 + (7 : SReg).val ∧
    17 ≤ (17 : BitVec 5).toNat ∧ 17 ≤ (31 : BitVec 5).toNat := by decide

theorem witness_BusyReadChangesOnlyTheAnswer :
    ((running 0 [.read 1]).schedule = .read 1 :: [] ∧ (running 0 [.read 1]).busy = true) ∧
    (∀ i ∈ [(0 : BitVec 5), 2, 3, 4, 5, 15, 16, 17, 31],
      (running 0 [.read i]).schedule = .read i :: [] ∧ (running 0 [.read i]).busy = true) ∧
    5 ≤ (5 : BitVec 5).toNat ∧ (15 : BitVec 5).toNat ≤ 15 ∧ 17 ≤ (17 : BitVec 5).toNat ∧
    17 ≤ (31 : BitVec 5).toNat := by decide

theorem witness_FaultsAreThoseOfTheTable :
    faultOf State.reset (.rsenc 1 0) = some .noGen ∧ faultOf State.reset (.best 0) = some .noMat ∧
    faultOf (regs [(1, 256)]) (.gfmul 0 1 2) = some .range ∧ faultOf State.reset (.gflog 0 1) = some .logZero ∧
    faultOf State.reset (.pget 0 0 1) = some .len ∧ faultOf State.reset (.pmod 2 0 1) = some .divisor ∧
    faultOf (at1 21 0) (.mget 0 1 2) = some .oob ∧ faultOf (regs [(1, 255)]) (.gfmul 0 1 2) = none := by decide +kernel

theorem witness_FaultStateIsLeftOnlyByReset :
    (∀ e ∈ [.write 0 5, .write 4 0, .read 2, .finish], (broken [e]).fault = true ∧ (broken [e]).busy = false ∧
      (broken [e]).schedule = e :: [] ∧ e ≠ .reset) ∧
    (∀ w, Event.write 4 0 = .write 4 w → w.getLsbD 0 = false) := by
  refine ⟨by decide, fun w h => ?_⟩
  cases h
  decide

theorem witness_StickyFlagsStaySet :
    ∃ s t : State, step s = .next t ∧ (∀ rest, s.schedule ≠ .reset :: rest) ∧
      (∀ w rest, s.schedule = .write 4 w :: rest → w.getLsbD 0 = false) ∧
      s.fault = true ∧ s.ovr = true ∧ s.gvalid = true ∧ s.mvalid = true := by
  refine ⟨{ broken [.write 4 0] with ovr := true, gvalid := true, mvalid := true }, _, rfl, fun rest h => ?_,
    fun w rest h => ?_, rfl, rfl, rfl, rfl⟩
  · cases h
  · cases h
    decide

/-- A busy block about to make a matrix meets the invariant and steps. -/
theorem witness_EveryStepKeepsTheInvariant :
    (running 0x40000028 [.finish]).Inv ∧ ∃ t, step (running 0x40000028 [.finish]) = .next t := by
  refine ⟨?_, _, rfl⟩
  unfold State.Inv State.PolysOk State.GenOk State.MatrixOk State.SizeOk State.GridOk State.FaultOk
  exact ⟨by decide, by decide, ⟨rfl, by decide⟩, by decide⟩

/-- `LI r1, #5` polled twice, then `MDARK r0`, which faults, and a read of the cause. -/
def rounds : List Round := [⟨[], 0x01100005, [1, 1]⟩, ⟨[1, 9], 0x46000000, [1]⟩]

theorem witness_PollingHostRunsItsCommandList :
    (coming (pollingSchedule rounds ++ [2].map .read)).busy = false ∧
    (coming (pollingSchedule rounds ++ [2].map .read)).schedule = pollingSchedule rounds ++ [2].map .read :=
  ⟨rfl, rfl⟩

theorem witness_BusyBlockBecomesIdle : (running 0 []).busy = true ∧ (running 0 [.read 1, .finish]).busy = true :=
  ⟨rfl, rfl⟩

theorem witness_HostCannotDisturbARunningCommand :
    (running 0x0130011D [.write 0 7, .read 9, .write 4 0, .finish]).busy = true ∧
    (running 0x0130011D [.write 0 7, .read 9, .write 4 0, .finish]).schedule =
      [.write 0 7, .read 9, .write 4 0] ++ .finish :: [] ∧
    (∀ e ∈ [Event.write 0 7, .read 9, .write 4 0],
      e ≠ .finish ∧ e ≠ .reset ∧ ∀ w, e = .write 4 w → w.getLsbD 0 = false) := by
  refine ⟨rfl, rfl, fun e he => ?_⟩
  simp only [List.mem_cons, List.not_mem_nil, or_false] at he
  rcases he with rfl | rfl | rfl <;> refine ⟨by decide, by decide, fun w h => ?_⟩ <;> cases h
  decide

theorem witness_CommandsWriteOnlyTheirLists :
    (∃ t, exec (.li 3 9) tiny = .next t) ∧ (writesOf (.li 3 9)).reg ≠ some 2 ∧ (writesOf (.li 3 9)).poly ≠ some 0 ∧
    (writesOf (.li 3 9)).generator = false ∧ (writesOf (.li 3 9)).matrix = false ∧ (writesOf (.li 3 9)).values = false ∧
    (writesOf (.mset 1 2 true false)).reserved = false ∧ (writesOf (.li 3 9)).minpen = false :=
  ⟨⟨_, rfl⟩, by decide⟩

theorem witness_ReservationFreezesCells :
    (∃ t, exec (.mset 1 2 false false) tiny = .next t ∧ cellIsRsv tiny.grid 1 0 = true) ∧
    (∃ t, exec (.mset 2 2 false true) tiny = .next t ∧ cellIsRsv tiny.grid 0 0 = false ∧
      cellIsRsv t.grid 0 0 = true) ∧
    (∃ t, exec (.mrsv 1 2 false) tiny = .next t ∧ cellIsRsv tiny.grid 1 0 = true ∧ cellIsRsv t.grid 1 0 = false) :=
  ⟨⟨_, rfl, by decide⟩, ⟨_, rfl, by decide, by decide⟩, ⟨_, rfl, by decide, by decide⟩⟩

theorem witness_GflogWritesTheDiscreteLog :
    ((regs [(1, 256)]).getReg 1).toNat % 256 = 0 ∧ ((regs [(1, 511)]).getReg 1).toNat % 256 ≠ 0 := by decide

theorem witness_GfmulWritesTheFieldProduct :
    255 < ((regs [(1, 256)]).getReg 1).toNat ∧ 255 < ((regs [(2, 256)]).getReg 2).toNat ∧
    ((regs [(1, 255), (2, 255)]).getReg 1).toNat ≤ 255 ∧ ((regs [(1, 255), (2, 255)]).getReg 2).toNat ≤ 255 := by decide

theorem witness_FieldLawsHold :
    (255 : Byte) ≠ 0 ∧ gfLog? 255 = some 175 ∧ gfMul 0 255 = 0 := by decide

/-- 255 coefficients are room for one more, 256 are not. -/
theorem witness_PpushAppendsTheCoefficient :
    255 < ((regs [(1, 256)]).getReg 1).toNat ∧
    ((((polys [(0, List.replicate 256 0)]).setReg 1 255).getReg 1).toNat ≤ 255 ∧
      (((polys [(0, List.replicate 256 0)]).setReg 1 255).getPoly 0).length = 256) ∧
    ((((polys [(0, List.replicate 255 0)]).setReg 1 255).getReg 1).toNat ≤ 255 ∧
      (((polys [(0, List.replicate 255 0)]).setReg 1 255).getPoly 0).length ≠ 256) := by decide +kernel

theorem witness_PpushiAppendsTheImmediate :
    ((polys [(0, List.replicate 256 0)]).getPoly 0).length = 256 ∧
    ((polys [(0, List.replicate 255 0)]).getPoly 0).length ≠ 256 := by decide +kernel

theorem witness_PlenReadsTheLength : (polys [(0, List.replicate 256 0)]).PolysOk := by
  unfold State.PolysOk
  decide +kernel

theorem witness_PgetReadsTheCoefficient :
    (((polys [(1, [7])]).setReg 2 1).getPoly 1).length ≤ (((polys [(1, [7])]).setReg 2 1).getReg 2).toNat ∧
    (((polys [(1, [7])]).setReg 2 0).getReg 2).toNat < (((polys [(1, [7])]).setReg 2 0).getPoly 1).length := by decide

/-- Lengths 129 and 129 are one too many, 128 and 129 fit (41_poly.md R128). -/
theorem witness_PmulWritesTheConvolution :
    State.reset.getPoly 0 = [] ∧
    256 < ((polys [(0, List.replicate 129 1), (1, List.replicate 129 1)]).getPoly 0).length +
      ((polys [(0, List.replicate 129 1), (1, List.replicate 129 1)]).getPoly 1).length - 1 ∧
    (polys [(0, List.replicate 128 1), (1, List.replicate 129 1)]).getPoly 0 ≠ [] ∧
    (polys [(0, List.replicate 128 1), (1, List.replicate 129 1)]).getPoly 1 ≠ [] ∧
    ((polys [(0, List.replicate 128 1), (1, List.replicate 129 1)]).getPoly 0).length +
      ((polys [(0, List.replicate 128 1), (1, List.replicate 129 1)]).getPoly 1).length - 1 ≤ 256 := by decide +kernel

theorem witness_PmodWritesTheRemainder :
    (State.reset.getPoly 1)[0]? ≠ some 1 ∧ ((polys [(1, [2, 1])]).getPoly 1)[0]? ≠ some 1 ∧
    (((polys [(1, [1, 3])]).getPoly 1)[0]? = some 1 ∧
      ((polys [(0, [0]), (1, [1, 3])]).getPoly 0).length < ((polys [(0, [0]), (1, [1, 3])]).getPoly 1).length) ∧
    (((polys [(0, [5]), (1, [1])]).getPoly 1)[0]? = some 1 ∧
      ((polys [(0, [5]), (1, [1])]).getPoly 1).length ≤ ((polys [(0, [5]), (1, [1])]).getPoly 0).length) := by decide

theorem witness_PolynomialProductLaws : ([2, 3] : Poly) ≠ [] ∧ ([0] : Poly) ≠ [] ∧ ([1] : Poly) ≠ [] := by decide

theorem witness_PolynomialRemainderLaws :
    ([1] : Poly)[0]? = some 1 ∧ ([1] : Poly).length ≤ ([9] : Poly).length ∧ ([9] : Poly) ≠ [] ∧
    ([1] : Poly).length = 0 + 1 ∧ ([1, 3, 2] : Poly)[0]? = some 1 ∧ ([1, 3, 2] : Poly).length = 2 + 1 := by decide

theorem witness_GeneratorAndCodewordVanishAtTheRoots : (255 ≤ 255 ∧ 254 < 255) ∧ (1 ≤ 255 ∧ 0 < 1) := by decide

/-- The data `p` in `p0` and the generator of N. -/
def withGen (p : Poly) (n : Byte) : State := (polys [(0, p)]).setGen (rsGen n.toNat) n

theorem genOk_withGen (p : Poly) (n : Byte) : (withGen p n).GenOk := by simp [State.GenOk, withGen, State.setGen]

/-- One data codeword and N = 255 fill the register; two do not fit. -/
theorem witness_RsencWritesTheCodewords :
    State.reset.gvalid = false ∧
    ((withGen [1, 2] 255).gvalid = true ∧
      256 < ((withGen [1, 2] 255).getPoly 0).length + (withGen [1, 2] 255).gn.toNat) ∧
    ((withGen [1] 255).GenOk ∧ (withGen [1] 255).gvalid = true ∧
      ((withGen [1] 255).getPoly 0).length + (withGen [1] 255).gn.toNat ≤ 256) :=
  ⟨rfl, ⟨rfl, by decide⟩, genOk_withGen _ _, rfl, by decide⟩

theorem witness_ReedSolomonRoundTrip : ([1] : Poly) ≠ [] ∧ 255 ≤ 255 := by decide

theorem witness_ReedSolomonEncodingLaws : 255 ≤ 255 ∧ ([1, 2] : Poly).length = ([3, 4] : Poly).length := by decide

theorem witness_RsgetgCopiesTheGenerator :
    State.reset.gvalid = false ∧ (State.reset.setGen [1, 1] 1).gvalid = true := ⟨rfl, rfl⟩

theorem witness_MnewCreatesALightMatrix :
    (0 : Byte).toNat < 1 ∧ 40 < (41 : Byte).toNat ∧ (1 ≤ (1 : Byte).toNat ∧ (1 : Byte).toNat ≤ 40) ∧
    (1 ≤ (40 : Byte).toNat ∧ (40 : Byte).toNat ≤ 40) := by decide

/-- What the cell commands ask for, clause by clause: no matrix; row 21 or column 21 of 21; the last cell. -/
def cellClauses : Prop :=
  State.reset.GridOk ∧ State.reset.mvalid = false ∧
  ((at1 21 0).GridOk ∧ (at1 21 0).mvalid = true ∧ (at1 21 0).msize.toNat ≤ ((at1 21 0).getReg 1).toNat) ∧
  ((at1 0 21).GridOk ∧ (at1 0 21).mvalid = true ∧ (at1 0 21).msize.toNat ≤ ((at1 0 21).getReg 2).toNat) ∧
  ((at1 20 20).GridOk ∧ (at1 20 20).mvalid = true ∧ ((at1 20 20).getReg 1).toNat < (at1 20 20).msize.toNat ∧
    ((at1 20 20).getReg 2).toNat < (at1 20 20).msize.toNat)

theorem witness_MgetAndMisrReadTheCell : cellClauses := by
  unfold cellClauses State.GridOk
  decide +kernel

theorem witness_MsetWritesTheCell : cellClauses ∧ cellIsRsv (at1 20 20).grid 20 20 = false ∧
    cellIsRsv tiny.grid 1 0 = true ∧ tiny.GridOk :=
  ⟨witness_MgetAndMisrReadTheCell, by decide +kernel, by decide, by unfold State.GridOk; decide⟩

theorem witness_MxorFlipsTheCell : cellClauses ∧ cellIsRsv tiny.grid 1 0 = true :=
  ⟨witness_MgetAndMisrReadTheCell, by decide⟩

theorem witness_MrsvAssignsTheReservedBit : cellClauses := witness_MgetAndMisrReadTheCell

/-- The two clauses of a command that only needs a matrix, and the invariant both states meet. -/
def matrixClauses : Prop :=
  (State.reset.MatrixOk ∧ State.reset.mvalid = false) ∧ (fresh1.MatrixOk ∧ fresh1.mvalid = true)

theorem witness_MdarkAndMtotCountCells : matrixClauses := by
  unfold matrixClauses State.MatrixOk State.SizeOk State.GridOk
  exact ⟨⟨⟨rfl, by decide⟩, rfl⟩, ⟨⟨1, by decide, by decide, by decide⟩, by decide +kernel⟩, rfl⟩

theorem witness_MaskFlipsUnreservedCells :
    (7 : Byte).toNat < 8 ∧ matrixClauses ∧ 20 < fresh1.msize.toNat ∧ cellIsRsv tiny.grid 1 0 = true :=
  ⟨by decide, witness_MdarkAndMtotCountCells, by decide, by decide⟩

theorem witness_MaskTwiceRestoresAndMasksCommute :
    ∃ t u, exec (.mask 7) tiny = .next t ∧ exec (.mask 0) t = .next u ∧ t.grid ≠ tiny.grid :=
  ⟨_, _, rfl, rfl, by decide⟩

theorem witness_Pen1ScoresMaximalRuns : matrixClauses := witness_MdarkAndMtotCountCells

theorem witness_Pen2ScoresBlocks : matrixClauses := witness_MdarkAndMtotCountCells

theorem witness_Pen3ScoresFinderWindows : matrixClauses := witness_MdarkAndMtotCountCells

theorem witness_Pen4ScoresTheDarkRatio : matrixClauses := witness_MdarkAndMtotCountCells

theorem witness_PenSumsTheFourScores : matrixClauses := witness_MdarkAndMtotCountCells

theorem witness_BestFindsTheLeastPattern : matrixClauses := witness_MdarkAndMtotCountCells

theorem witness_PloadLeavesTheListInTheRegister :
    (List.replicate 256 (7 : Byte)).length ≤ 256 ∧ State.reset.busy = false ∧ State.reset.fault = false ∧
    (broken []).busy = false ∧ (broken []).fault = true := by decide +kernel

theorem witness_ReadOutTellsTheCoefficients :
    (polys [(1, [196, 35, 39])]).Ready ∧ (polys [(1, [196, 35, 39])]).PolysOk := by
  unfold State.Ready State.PolysOk
  decide +kernel

end Sys2Proof.Tests
end

/-! PROOFS. The statements of 10_state.md: the invariant of R42, the sticky flags of R23, the written-by lists of R21 to
R27. First what one step can do, said once; then what every write, every command and every step keeps; last the
obligations. -/

namespace Sys2Proof.Machine

section Step

variable {s t u : State}

/-! ### What one step can do -/

/-- The next event is one of the two resets of 70_reset_and_hazards.md R280: `rst`, or a write to `CTRL` with bit 0 = 1. -/
def State.ResetNext (s : State) : Prop :=
  (∃ rest, s.schedule = .reset :: rest) ∨ ∃ w rest, s.schedule = .write 4 w :: rest ∧ w.getLsbD 0 = true

/-- The states one step can answer from `s`. `es` are the events left after it. -/
inductive Stepped (s : State) : State → Prop where
  /-- A read, an ignored write, or nothing: the host's side of the model alone changes. -/
  | hostOnly (es : List Event) (a : List Word) (d : Nat) : Stepped s { s with schedule := es, answers := a, draws := d }
  /-- A `CMD` write under `BUSY` (45_system.md R241). -/
  | dropped (es : List Event) (hf : s.fault = false) (hb : s.busy = true) :
      Stepped s { s with schedule := es, ovr := true }
  /-- A `CMD` write to an idle block without a fault (45_system.md R241). -/
  | accepted (es : List Event) (w : Word) (hf : s.fault = false) (hb : s.busy = false) :
      Stepped s { s with schedule := es, busy := true, held := w }
  /-- `Finish` of a busy block (45_system.md R242). -/
  | ended (es : List Event) (t : State) (hb : s.busy = true) (ht : Ended { s with schedule := es } t) : Stepped s t
  /-- The effect of 70_reset_and_hazards.md R280. -/
  | reset (es : List Event) (hr : s.ResetNext) : Stepped s ({ s with schedule := es } : State).resetBlock

theorem Stepped.submit (es : List Event) (w : Word) : Stepped s (({ s with schedule := es } : State).submit w) := by
  rcases submit_cases { s with schedule := es } w with ⟨_, e⟩ | ⟨hf, hb, e⟩ | ⟨hf, hb, e⟩
  · rw [e]; exact .hostOnly es s.answers s.draws
  · rw [e]; exact .dropped es hf hb
  · rw [e]; exact .accepted es w hf hb

/-- With no event left a step is the `Finish` event (log 2). -/
theorem step_nil (h : s.schedule = []) : step s = s.onEvent .finish := by
  unfold step; rw [h]; rfl

theorem onEvent_finish_cases (h : s.onEvent .finish = .next t) :
    (s.busy = true ∧ Ended s t) ∨ (s.busy = false ∧ t = s) := by
  cases hb : s.busy with
  | true =>
    rw [onEvent_finish_busy hb] at h
    exact .inl ⟨rfl, finish_ended h⟩
  | false =>
    rw [onEvent_finish_idle hb] at h
    cases h
    exact .inr ⟨rfl, rfl⟩

/-- The inversion lemma of `step`. -/
theorem step_stepped (h : step s = .next t) : Stepped s t := by
  cases hs : s.schedule with
  | nil =>
    rw [step_nil hs] at h
    rcases onEvent_finish_cases h with ⟨hb, ht⟩ | ⟨_, rfl⟩
    · exact .ended s.schedule t hb ht
    · exact .hostOnly t.schedule t.answers t.draws
  | cons e es =>
    rw [step_cons hs] at h
    cases e with
    | write i w =>
      cases h
      rcases hostWrite_cases { s with schedule := es } i w with ⟨_, e⟩ | ⟨rfl, hw, e⟩ | ⟨_, _, e⟩
      · rw [e]; exact .submit es w
      · rw [e]; exact .reset es (.inr ⟨w, es, hs, hw⟩)
      · rw [e]; exact .hostOnly es s.answers s.draws
    | read i =>
      cases h
      obtain ⟨a, d, e⟩ := hostRead_eq { s with schedule := es } i
      rw [e]; exact .hostOnly es a d
    | reset =>
      cases h
      exact .reset es (.inl ⟨es, hs⟩)
    | finish =>
      rcases onEvent_finish_cases h with ⟨hb, ht⟩ | ⟨_, rfl⟩
      · exact .ended es t hb ht
      · exact .hostOnly es s.answers s.draws

/-! ### The invariant of 10_state.md R42 -/

theorem reset_inv : State.reset.Inv := by
  refine ⟨fun k => ?_, ⟨rfl, rfl⟩, ⟨rfl, wf_reset⟩, ?_⟩
  · rw [getPoly_reset]; exact Nat.zero_le _
  · unfold State.FaultOk; decide

theorem polysOk_setPoly {k : PReg} {l : Poly} (hp : s.PolysOk) (hl : l.length ≤ Config.pcap) :
    (s.setPoly k l).PolysOk := by
  intro j
  by_cases hj : j = k
  · subst hj; rw [getPoly_setPoly_same]; exact hl
  · rw [getPoly_setPoly_ne _ _ _ _ hj]; exact hp j

theorem genOk_setGen (n : Byte) : (s.setGen (rsGen n.toNat) n).GenOk := by
  simp [State.GenOk]

theorem matrixOk_setMatrix {v : Nat} (h1 : Config.verMin ≤ v) (h2 : v ≤ Config.verMax) :
    (s.setMatrix (sizeOfVersion v)).MatrixOk := by
  refine ⟨?_, wf_freshGrid h2⟩
  simp only [State.SizeOk, setMatrix_mvalid, setMatrix_msize, if_true, BitVec.toNat_ofNat]
  exact ⟨v, h1, h2, Nat.mod_eq_of_lt (sizeOfVersion_lt h2)⟩

/-- The codes of 60_exceptions.md R251 are 1 to 8. -/
theorem code_range (k : Cause) : k.code ≠ 0 ∧ k.code.toNat ≤ 8 := by
  cases k <;> decide

theorem faultOk_raise (k : Cause) : (s.raise k).FaultOk :=
  ⟨iff_of_true rfl (code_range k).1, (code_range k).2, Bool.noConfusion, fun _ => rfl⟩

theorem faultOk_complete (hf : s.FaultOk) : s.complete.FaultOk := by
  obtain ⟨hcause, hmax, hinfo, _⟩ := hf
  exact ⟨hcause, hmax, hinfo, fun _ => rfl⟩

/-- No write of a command breaks the invariant. Fields a write leaves alone are the same by computation. -/
theorem Wrote.keeps_inv (h : Wrote s u) (hs : s.Inv) : u.Inv := by
  obtain ⟨hp, hg, hm, hf⟩ := hs
  cases h with
  | nothing => exact ⟨hp, hg, hm, hf⟩
  | reg rd v => exact ⟨hp, hg, hm, hf⟩
  | poly k l hl => exact ⟨polysOk_setPoly hp (hl hp hg), hg, hm, hf⟩
  | generator n => exact ⟨hp, genOk_setGen n, hm, hf⟩
  | matrix v h1 h2 => exact ⟨hp, hg, matrixOk_setMatrix h1 h2, hf⟩
  | grid g hwf =>
    obtain ⟨hsize, hgrid⟩ := hm
    exact ⟨hp, hg, ⟨hsize, hwf _ _ hgrid⟩, hf⟩
  | best rd v m => exact ⟨hp, hg, hm, hf⟩

theorem Ended.keeps_inv (h : Ended s t) (hs : s.Inv) : t.Inv := by
  obtain ⟨k, rfl⟩ | ⟨u, hu, rfl⟩ := h
  · obtain ⟨hp, hg, hm, _⟩ := hs
    exact ⟨hp, hg, hm, faultOk_raise k⟩
  · obtain ⟨hp, hg, hm, hf⟩ := hu.keeps_inv hs
    exact ⟨hp, hg, hm, faultOk_complete hf⟩

/-- An accepted word makes a block without a fault busy, which is why R42 (d) stays true. -/
theorem inv_accept (es : List Event) (w : Word) (hs : s.Inv) (hnf : s.fault = false) :
    ({ s with schedule := es, busy := true, held := w } : State).Inv := by
  obtain ⟨hp, hg, hm, hcause, hmax, hinfo, _⟩ := hs
  exact ⟨hp, hg, hm, hcause, hmax, hinfo, fun h => absurd (hnf.symm.trans h) Bool.false_ne_true⟩

theorem Stepped.keeps_inv (h : Stepped s t) (hs : s.Inv) : t.Inv := by
  cases h with
  | hostOnly es a d => exact hs
  | dropped es _ _ => exact hs
  | accepted es w hf _ => exact inv_accept es w hs hf
  | ended es t _ ht => exact ht.keeps_inv hs
  | reset es _ => exact reset_inv

/-! ### The sticky flags of 10_state.md R23 -/

/-- `FAULT`, `OVR`, `GVALID` and `MVALID`, where 1 in `s`, are 1 in `t`. -/
def State.FlagsStay (s t : State) : Prop :=
  (s.fault = true → t.fault = true) ∧ (s.ovr = true → t.ovr = true) ∧
    (s.gvalid = true → t.gvalid = true) ∧ (s.mvalid = true → t.mvalid = true)

theorem State.FlagsStay.refl (s : State) : s.FlagsStay s := ⟨id, id, id, id⟩

/-- RSGEN and MNEW set their flag; no other write touches one. -/
theorem Wrote.flagsStay (h : Wrote s u) : s.FlagsStay u := by
  cases h with
  | generator n => exact ⟨id, id, fun _ => rfl, id⟩
  | matrix v _ _ => exact ⟨id, id, id, fun _ => rfl⟩
  | nothing => exact .refl s
  | reg rd v => exact .refl s
  | poly k l _ => exact .refl s
  | grid g _ => exact .refl s
  | best rd v m => exact .refl s

theorem Ended.flagsStay (h : Ended s t) : s.FlagsStay t := by
  obtain ⟨k, rfl⟩ | ⟨u, hu, rfl⟩ := h
  · exact ⟨fun _ => rfl, id, id, id⟩
  · exact hu.flagsStay

/-- Short of a reset every step leaves the four flags 1. -/
theorem Stepped.flagsStay (h : Stepped s t) (hr : ¬ s.ResetNext) : s.FlagsStay t := by
  cases h with
  | hostOnly es a d => exact .refl s
  | dropped es _ _ => exact ⟨id, fun _ => rfl, id, id⟩
  | accepted es w _ _ => exact .refl s
  | ended es t _ ht => exact ht.flagsStay
  | reset es h => exact absurd h hr

end Step

/-! ### The written-by lists of 10_state.md R21 to R27 -/

/-- The frame of a list `w`: from `s` to `t` nothing outside `w` has changed, and neither `OVR`, the held word nor the
host's side has. -/
structure WritesOnly (w : Writes) (s t : State) : Prop where
  reg : ∀ j, w.reg ≠ some j → t.getReg j = s.getReg j
  poly : ∀ k, w.poly ≠ some k → t.getPoly k = s.getPoly k
  generator : w.generator = false → t.gen = s.gen ∧ t.gn = s.gn ∧ t.gvalid = s.gvalid
  matrix : w.matrix = false → t.mvalid = s.mvalid ∧ t.msize = s.msize
  values : w.values = false → ∀ r c, cellGet t.grid r c = cellGet s.grid r c
  reserved : w.reserved = false → ∀ r c, cellIsRsv t.grid r c = cellIsRsv s.grid r c
  minpen : w.minpen = false → t.minpen = s.minpen
  ovr : t.ovr = s.ovr
  held : t.held = s.held
  schedule : t.schedule = s.schedule
  answers : t.answers = s.answers
  draws : t.draws = s.draws

namespace WritesOnly

variable {w : Writes} {s t u : State}

theorem refl (w : Writes) (s : State) : WritesOnly w s s where
  reg _ _ := rfl
  poly _ _ := rfl
  generator _ := ⟨rfl, rfl, rfl⟩
  matrix _ := ⟨rfl, rfl⟩
  values _ _ _ := rfl
  reserved _ _ _ := rfl
  minpen _ := rfl
  ovr := rfl
  held := rfl
  schedule := rfl
  answers := rfl
  draws := rfl

/-! One lemma per write: it is inside every list that names it. -/

theorem setReg {rd : SReg} (hw : w.reg = some rd) (v : Word) : WritesOnly w s (s.setReg rd v) :=
  { refl w s with reg := fun j hj => getReg_setReg_ne s rd j v fun e => hj (e ▸ hw) }

theorem setPoly {k : PReg} (hw : w.poly = some k) (l : Poly) : WritesOnly w s (s.setPoly k l) :=
  { refl w s with poly := fun j hj => getPoly_setPoly_ne s k j l fun e => hj (e ▸ hw) }

theorem setGen (hw : w.generator = true) (g : Poly) (n : Byte) : WritesOnly w s (s.setGen g n) :=
  { refl w s with generator := fun h => absurd (hw.symm.trans h) Bool.noConfusion }

theorem setMinpen (hu : WritesOnly w s u) (hw : w.minpen = true) (v : Word) : WritesOnly w s (u.setMinpen v) :=
  { hu with minpen := fun h => absurd (hw.symm.trans h) Bool.noConfusion }

theorem setMatrix (hm : w.matrix = true) (hv : w.values = true) (hr : w.reserved = true) (n : Nat) :
    WritesOnly w s (s.setMatrix n) :=
  { refl w s with
    matrix := fun h => absurd (hm.symm.trans h) Bool.noConfusion
    values := fun h => absurd (hv.symm.trans h) Bool.noConfusion
    reserved := fun h => absurd (hr.symm.trans h) Bool.noConfusion }

theorem setGrid {g : Grid} (hv : w.values = false → ∀ r c, cellGet g r c = cellGet s.grid r c)
    (hr : w.reserved = false → ∀ r c, cellIsRsv g r c = cellIsRsv s.grid r c) : WritesOnly w s (s.setGrid g) :=
  { refl w s with values := hv, reserved := hr }

/-! The ways a command ends: it raises a fault, or it completes. -/

theorem of_trap {k : Cause} (h : trap k s = .next t) : WritesOnly w s t := by
  cases h
  exact { refl w s with }

theorem of_done (hu : WritesOnly w s u) (h : done u = .next t) : WritesOnly w s t := by
  cases h
  exact { hu with }

theorem of_needMat (hu : WritesOnly w s u) (h : needMat s (done u) = .next t) : WritesOnly w s t := by
  rcases needMat_cases h with ⟨_, h⟩ | ⟨_, h⟩
  · exact of_done hu h
  · exact of_trap h

theorem of_needCell {ra rb : SReg} {f : Nat → Nat → State} (hf : ∀ r c, WritesOnly w s (f r c))
    (h : needCell s ra rb (fun r c => done (f r c)) = .next t) : WritesOnly w s t := by
  rcases needCell_cases h with ⟨_, _, _, h⟩ | ⟨_, h⟩
  · exact of_done (hf _ _) h
  · exact of_trap h

theorem of_pushCoeff {pd : PReg} {v : Byte} (hw : w.poly = some pd) (h : pushCoeff pd v s = .next t) :
    WritesOnly w s t := by
  unfold pushCoeff at h
  split at h
  · exact of_trap h
  · exact of_done (setPoly hw _) h

end WritesOnly

/-! ### The planes one by one -/

/-- A part of the record that `f` leaves alone stays the same in every cell, inside the grid or not. -/
theorem cell_modifyCell_part {α : Type} (part : GridCell → α) {f : GridCell → GridCell}
    (hf : ∀ x, part (f x) = part x) (g : Grid) (r c r' c' : Nat) :
    part ((g.modifyCell r c f).cell r' c') = part (g.cell r' c') := by
  unfold Grid.cell Grid.modifyCell
  rw [List.getElem?_modify]
  by_cases hr : r = r'
  · cases g[r']? with
    | none => simp
    | some row =>
      simp only [if_pos hr, Option.map_eq_map, Option.map_some, Option.getD_some, List.getElem?_modify]
      by_cases hc : c = c'
      · cases row[c']? <;> simp [hc, hf]
      · simp [hc]
  · simp [hr]

theorem cellIsRsv_cellSet_false (g : Grid) (r c r' c' : Nat) (v : Bool) :
    cellIsRsv (cellSet g r c v false) r' c' = cellIsRsv g r' c' :=
  cell_modifyCell_part (·.reserved) (f := (·.set v false)) (fun x => Bool.or_false x.reserved) g r c r' c'

theorem cellIsRsv_cellXor (g : Grid) (r c r' c' : Nat) (v : Bool) :
    cellIsRsv (cellXor g r c v) r' c' = cellIsRsv g r' c' :=
  cell_modifyCell_part (·.reserved) (f := (·.xor v)) (fun _ => rfl) g r c r' c'

theorem cellGet_cellMark (g : Grid) (r c r' c' : Nat) (f : Bool) :
    cellGet (cellMark g r c f) r' c' = cellGet g r' c' :=
  cell_modifyCell_part (·.value) (f := (·.mark f)) (fun _ => rfl) g r c r' c'

/-! ### Every command -/

/-- Every command ends in a fault or in one write of its own list. -/
theorem exec_writesOnly {i : Instr} {s t : State} (h : exec i s = .next t) : WritesOnly (writesOf i) s t := by
  cases i with
  | nop => exact .of_done (.refl _ s) h
  | li rd imm => exact .of_done (.setReg rfl _) h
  | gflog rd ra =>
    simp only [exec, execGflog] at h
    split at h
    · exact .of_done (.setReg rfl _) h
    · exact .of_trap h
  | gfexp rd ra => exact .of_done (.setReg rfl _) h
  | gfmul rd ra rb =>
    simp only [exec, execGfmul] at h
    split at h
    · exact .of_done (.setReg rfl _) h
    · exact .of_trap h
  | pclr pd => exact .of_done (.setPoly rfl _) h
  | ppush pd ra =>
    simp only [exec, execPpush] at h
    split at h
    · exact .of_pushCoeff rfl h
    · exact .of_trap h
  | ppushi pd imm => exact .of_pushCoeff rfl h
  | plen rd pa => exact .of_done (.setReg rfl _) h
  | pget rd pa rb =>
    simp only [exec, execPget] at h
    split at h
    · exact .of_done (.setReg rfl _) h
    · exact .of_trap h
  | pmul pd pa pb =>
    simp only [exec, execPmul] at h
    split at h
    · exact .of_trap h
    · split at h
      · exact .of_trap h
      · exact .of_done (.setPoly rfl _) h
  | pmod pd pa pb =>
    simp only [exec, execPmod] at h
    split at h
    · exact .of_done (.setPoly rfl _) h
    · exact .of_trap h
  | rsgen n => exact .of_done (.setGen rfl _ _) h
  | rsenc pd pa =>
    rcases needGen_cases h with ⟨_, h⟩ | ⟨_, h⟩
    · split at h
      · exact .of_trap h
      · exact .of_done (.setPoly rfl _) h
    · exact .of_trap h
  | rsgetg pd =>
    rcases needGen_cases h with ⟨_, h⟩ | ⟨_, h⟩
    · exact .of_done (.setPoly rfl _) h
    · exact .of_trap h
  | mnew v =>
    simp only [exec, execMnew] at h
    split at h
    · exact .of_trap h
    · exact .of_done (.setMatrix rfl rfl rfl _) h
  | mget rd ra rb => exact .of_needCell (fun _ _ => .setReg rfl _) h
  | mset ra rb v f =>
    refine .of_needCell (fun r c => .setGrid Bool.noConfusion fun hf => ?_) h
    obtain rfl : f = false := hf
    exact fun _ _ => cellIsRsv_cellSet_false ..
  | mxor ra rb v =>
    exact .of_needCell (fun _ _ => .setGrid Bool.noConfusion fun _ _ _ => cellIsRsv_cellXor ..) h
  | mrsv ra rb v =>
    exact .of_needCell (fun _ _ => .setGrid (fun _ _ _ => cellGet_cellMark ..) Bool.noConfusion) h
  | misr rd ra rb => exact .of_needCell (fun _ _ => .setReg rfl _) h
  | mdark rd => exact .of_needMat (.setReg rfl _) h
  | mtot rd => exact .of_needMat (.setReg rfl _) h
  | mask p =>
    exact .of_needMat (.setGrid Bool.noConfusion fun _ _ _ => cell_applyMask_reserved ..) h
  | pen1 rd => exact .of_needMat (.setReg rfl _) h
  | pen2 rd => exact .of_needMat (.setReg rfl _) h
  | pen3 rd => exact .of_needMat (.setReg rfl _) h
  | pen4 rd => exact .of_needMat (.setReg rfl _) h
  | pen rd => exact .of_needMat (.setReg rfl _) h
  | best rd =>
    simp only [exec, execBest, bestMask_grid, setGrid_self] at h
    exact .of_needMat (.setMinpen (.setReg rfl _) rfl _) h

/-! ### The obligations -/

/-- Settles O17: a step answers one of the states of `Stepped`, and each of them meets the invariant. -/
theorem everyStepKeepsTheInvariant : Obligations.EveryStepKeepsTheInvariant :=
  fun _ _ hs h => (step_stepped h).keeps_inv hs

/-- Settles O16: of the states of `Stepped`, only the reset ones clear a flag. -/
theorem stickyFlagsStaySet : Obligations.StickyFlagsStaySet := by
  intro s t h hreset hctrl
  refine (step_stepped h).flagsStay ?_
  rintro (⟨es, hs⟩ | ⟨w, es, hs, hw⟩)
  · exact hreset es hs
  · exact Bool.false_ne_true ((hctrl w es hs).symm.trans hw)

/-- Settles O22, the frame `WritesOnly` of every command written out. -/
theorem commandsWriteOnlyTheirLists : Obligations.CommandsWriteOnlyTheirLists := by
  intro i s t h
  obtain ⟨reg, poly, generator, matrix, values, reserved, minpen, ovr, held, schedule, answers, draws⟩ :=
    exec_writesOnly h
  exact ⟨reg, poly, generator, matrix, values, reserved, minpen, ovr, held, schedule, answers, draws⟩

/-- Settles O18, the base case of O17. -/
theorem resetStateMeetsTheInvariant : Obligations.ResetStateMeetsTheInvariant := reset_inv

end Sys2Proof.Machine

/-! PROOFS. The statements of 30_encoding.md: the round trips of encoder and decoder, the table of R84, the text form of
R90 and the expansion of PLOAD of R91. -/

namespace Sys2Proof

/-! ### Decoding what was encoded -/

@[simp] theorem ofWord_encode (i : Instr) : Fields.ofWord (encode i) = i.fields := ofWord_toWord i.fields

open Laws in
/-- The lemmas of `FieldsReadBack`, for every command. -/
theorem decodeFields_fields {i : Instr} (h : i.wf = true) : decodeFields i.fields = .ok i := by
  cases i with
  | nop => exact FieldsReadBack.nop h
  | li rd imm16 => exact FieldsReadBack.li rd imm16 h
  | gflog rd ra => exact FieldsReadBack.gflog rd ra h
  | gfexp rd ra => exact FieldsReadBack.gfexp rd ra h
  | gfmul rd ra rb => exact FieldsReadBack.gfmul rd ra rb h
  | pclr pd => exact FieldsReadBack.pclr pd h
  | ppush pd ra => exact FieldsReadBack.ppush pd ra h
  | ppushi pd imm8 => exact FieldsReadBack.ppushi pd imm8 h
  | plen rd pa => exact FieldsReadBack.plen rd pa h
  | pget rd pa rb => exact FieldsReadBack.pget rd pa rb h
  | pmul pd pa pb => exact FieldsReadBack.pmul pd pa pb h
  | pmod pd pa pb => exact FieldsReadBack.pmod pd pa pb h
  | rsgen n => exact FieldsReadBack.rsgen n h
  | rsenc pd pa => exact FieldsReadBack.rsenc pd pa h
  | rsgetg pd => exact FieldsReadBack.rsgetg pd h
  | mnew version => exact FieldsReadBack.mnew version h
  | mget rd ra rb => exact FieldsReadBack.mget rd ra rb h
  | mset ra rb v f => exact FieldsReadBack.mset ra rb v f h
  | mxor ra rb v => exact FieldsReadBack.mxor ra rb v h
  | mrsv ra rb v => exact FieldsReadBack.mrsv ra rb v h
  | misr rd ra rb => exact FieldsReadBack.misr rd ra rb h
  | mdark rd => exact FieldsReadBack.mdark rd h
  | mtot rd => exact FieldsReadBack.mtot rd h
  | mask p => exact FieldsReadBack.mask p h
  | pen1 rd => exact FieldsReadBack.pen1 rd h
  | pen2 rd => exact FieldsReadBack.pen2 rd h
  | pen3 rd => exact FieldsReadBack.pen3 rd h
  | pen4 rd => exact FieldsReadBack.pen4 rd h
  | pen rd => exact FieldsReadBack.pen rd h
  | best rd => exact FieldsReadBack.best rd h

theorem decode_encode {i : Instr} (h : i.wf = true) : decode (encode i) = .ok i :=
  (decode_encode_eq i).trans (decodeFields_fields h)

/-- Settles O2, from the formats read back one by one. -/
theorem decodeEncodeRoundTrip : Obligations.DecodeEncodeRoundTrip := fun _ h => decode_encode h

/-! ### A format reads the fields of its picture (30_encoding.md R81) -/

section Formats

variable {f : Fields} {n : Nat} {i : Instr}

theorem fields_eq_mk {a b c z : BitVec 4} {i8 : Byte} (hn : f.op.toNat = n) (ha : f.a = a) (hb : f.b = b)
    (hc : f.c = c) (hz : f.z = z) (hi : f.i8 = i8) : f = ⟨BitVec.ofNat 8 n, a, b, c, z, i8⟩ := by
  subst hn ha hb hc hz hi
  rw [BitVec.ofNat_toNat, BitVec.setWidth_eq]

theorem flagField_of_lt_four {a : BitVec 4} (h : a.toNat < 4) :
    a = BitVec.ofNat 4 (2 * (a.getLsbD 1).toNat + (a.getLsbD 0).toNat) := by
  revert a; decide

theorem readZ_eq_some {k : Instr} (hn : f.op.toNat = n) (h : f.readZ k = some i) :
    i = k ∧ f = ⟨BitVec.ofNat 8 n, 0, 0, 0, 0, 0⟩ := by
  obtain ⟨⟨ha, hb, hc, hz, hi⟩, hk⟩ := Option.ite_none_right_eq_some.mp h
  exact ⟨(Option.some.inj hk).symm, fields_eq_mk hn ha hb hc hz hi⟩

theorem readRI_eq_some {k : SReg → BitVec 16 → Instr} (hn : f.op.toNat = n) (h : f.readRI k = some i) :
    ∃ rd imm, i = k rd imm ∧ f = ⟨BitVec.ofNat 8 n, sregField rd, 0, imm.extractLsb' 12 4, imm.extractLsb' 8 4,
      imm.extractLsb' 0 8⟩ := by
  unfold Fields.readRI at h
  split at h
  · rename_i rd hrd
    obtain ⟨hb, hk⟩ := Option.ite_none_right_eq_some.mp h
    obtain ⟨hc, hz, hi⟩ := pieces_of_i16 f
    exact ⟨rd, f.i16, (Option.some.inj hk).symm,
      fields_eq_mk hn (sregField_of_sregOf? hrd).symm hb hc.symm hz.symm hi.symm⟩
  · cases h

theorem readRR_eq_some {k : SReg → SReg → Instr} (hn : f.op.toNat = n) (h : f.readRR k = some i) :
    ∃ rd ra, i = k rd ra ∧ f = ⟨BitVec.ofNat 8 n, sregField rd, sregField ra, 0, 0, 0⟩ := by
  unfold Fields.readRR at h
  split at h
  · rename_i rd ra hrd hra
    obtain ⟨⟨hc, hz, hi⟩, hk⟩ := Option.ite_none_right_eq_some.mp h
    exact ⟨rd, ra, (Option.some.inj hk).symm,
      fields_eq_mk hn (sregField_of_sregOf? hrd).symm (sregField_of_sregOf? hra).symm hc hz hi⟩
  · cases h

theorem readRRR_eq_some {k : SReg → SReg → SReg → Instr} (hn : f.op.toNat = n) (h : f.readRRR k = some i) :
    ∃ rd ra rb, i = k rd ra rb ∧ f = ⟨BitVec.ofNat 8 n, sregField rd, sregField ra, sregField rb, 0, 0⟩ := by
  unfold Fields.readRRR at h
  split at h
  · rename_i rd ra rb hrd hra hrb
    obtain ⟨⟨hz, hi⟩, hk⟩ := Option.ite_none_right_eq_some.mp h
    exact ⟨rd, ra, rb, (Option.some.inj hk).symm,
      fields_eq_mk hn (sregField_of_sregOf? hrd).symm (sregField_of_sregOf? hra).symm
        (sregField_of_sregOf? hrb).symm hz hi⟩
  · cases h

theorem readR_eq_some {k : SReg → Instr} (hn : f.op.toNat = n) (h : f.readR k = some i) :
    ∃ rd, i = k rd ∧ f = ⟨BitVec.ofNat 8 n, sregField rd, 0, 0, 0, 0⟩ := by
  unfold Fields.readR at h
  split at h
  · rename_i rd hrd
    obtain ⟨⟨hb, hc, hz, hi⟩, hk⟩ := Option.ite_none_right_eq_some.mp h
    exact ⟨rd, (Option.some.inj hk).symm,
      fields_eq_mk hn (sregField_of_sregOf? hrd).symm hb hc hz hi⟩
  · cases h

theorem readP_eq_some {k : PReg → Instr} (hn : f.op.toNat = n) (h : f.readP k = some i) :
    ∃ pd, i = k pd ∧ f = ⟨BitVec.ofNat 8 n, pregField pd, 0, 0, 0, 0⟩ := by
  unfold Fields.readP at h
  split at h
  · rename_i pd hpd
    obtain ⟨⟨hb, hc, hz, hi⟩, hk⟩ := Option.ite_none_right_eq_some.mp h
    exact ⟨pd, (Option.some.inj hk).symm,
      fields_eq_mk hn (pregField_of_pregOf? hpd).symm hb hc hz hi⟩
  · cases h

theorem readPR_eq_some {k : PReg → SReg → Instr} (hn : f.op.toNat = n) (h : f.readPR k = some i) :
    ∃ pd ra, i = k pd ra ∧ f = ⟨BitVec.ofNat 8 n, pregField pd, sregField ra, 0, 0, 0⟩ := by
  unfold Fields.readPR at h
  split at h
  · rename_i pd ra hpd hra
    obtain ⟨⟨hc, hz, hi⟩, hk⟩ := Option.ite_none_right_eq_some.mp h
    exact ⟨pd, ra, (Option.some.inj hk).symm,
      fields_eq_mk hn (pregField_of_pregOf? hpd).symm (sregField_of_sregOf? hra).symm hc hz hi⟩
  · cases h

theorem readPI_eq_some {k : PReg → Byte → Instr} (hn : f.op.toNat = n) (h : f.readPI k = some i) :
    ∃ pd imm, i = k pd imm ∧ f = ⟨BitVec.ofNat 8 n, pregField pd, 0, 0, 0, imm⟩ := by
  unfold Fields.readPI at h
  split at h
  · rename_i pd hpd
    obtain ⟨⟨hb, hc, hz⟩, hk⟩ := Option.ite_none_right_eq_some.mp h
    exact ⟨pd, f.i8, (Option.some.inj hk).symm,
      fields_eq_mk hn (pregField_of_pregOf? hpd).symm hb hc hz rfl⟩
  · cases h

theorem readRP_eq_some {k : SReg → PReg → Instr} (hn : f.op.toNat = n) (h : f.readRP k = some i) :
    ∃ rd pa, i = k rd pa ∧ f = ⟨BitVec.ofNat 8 n, sregField rd, pregField pa, 0, 0, 0⟩ := by
  unfold Fields.readRP at h
  split at h
  · rename_i rd pa hrd hpa
    obtain ⟨⟨hc, hz, hi⟩, hk⟩ := Option.ite_none_right_eq_some.mp h
    exact ⟨rd, pa, (Option.some.inj hk).symm,
      fields_eq_mk hn (sregField_of_sregOf? hrd).symm (pregField_of_pregOf? hpa).symm hc hz hi⟩
  · cases h

theorem readRPR_eq_some {k : SReg → PReg → SReg → Instr} (hn : f.op.toNat = n) (h : f.readRPR k = some i) :
    ∃ rd pa rb, i = k rd pa rb ∧ f = ⟨BitVec.ofNat 8 n, sregField rd, pregField pa, sregField rb, 0, 0⟩ := by
  unfold Fields.readRPR at h
  split at h
  · rename_i rd pa rb hrd hpa hrb
    obtain ⟨⟨hz, hi⟩, hk⟩ := Option.ite_none_right_eq_some.mp h
    exact ⟨rd, pa, rb, (Option.some.inj hk).symm,
      fields_eq_mk hn (sregField_of_sregOf? hrd).symm (pregField_of_pregOf? hpa).symm
        (sregField_of_sregOf? hrb).symm hz hi⟩
  · cases h

theorem readPPP_eq_some {k : PReg → PReg → PReg → Instr} (hn : f.op.toNat = n) (h : f.readPPP k = some i) :
    ∃ pd pa pb, i = k pd pa pb ∧ f = ⟨BitVec.ofNat 8 n, pregField pd, pregField pa, pregField pb, 0, 0⟩ := by
  unfold Fields.readPPP at h
  split at h
  · rename_i pd pa pb hpd hpa hpb
    obtain ⟨⟨hz, hi⟩, hk⟩ := Option.ite_none_right_eq_some.mp h
    exact ⟨pd, pa, pb, (Option.some.inj hk).symm,
      fields_eq_mk hn (pregField_of_pregOf? hpd).symm (pregField_of_pregOf? hpa).symm
        (pregField_of_pregOf? hpb).symm hz hi⟩
  · cases h

theorem readPP_eq_some {k : PReg → PReg → Instr} (hn : f.op.toNat = n) (h : f.readPP k = some i) :
    ∃ pd pa, i = k pd pa ∧ f = ⟨BitVec.ofNat 8 n, pregField pd, pregField pa, 0, 0, 0⟩ := by
  unfold Fields.readPP at h
  split at h
  · rename_i pd pa hpd hpa
    obtain ⟨⟨hc, hz, hi⟩, hk⟩ := Option.ite_none_right_eq_some.mp h
    exact ⟨pd, pa, (Option.some.inj hk).symm,
      fields_eq_mk hn (pregField_of_pregOf? hpd).symm (pregField_of_pregOf? hpa).symm hc hz hi⟩
  · cases h

theorem readI_eq_some {k : Byte → Instr} (hn : f.op.toNat = n) (h : f.readI k = some i) :
    ∃ imm, i = k imm ∧ f = ⟨BitVec.ofNat 8 n, 0, 0, 0, 0, imm⟩ := by
  obtain ⟨⟨ha, hb, hc, hz⟩, hk⟩ := Option.ite_none_right_eq_some.mp h
  exact ⟨f.i8, (Option.some.inj hk).symm, fields_eq_mk hn ha hb hc hz rfl⟩

theorem readI3_eq_some {k : Byte → Instr} (hn : f.op.toNat = n) (h : f.readI3 k = some i) :
    ∃ imm, imm.toNat < 8 ∧ i = k imm ∧ f = ⟨BitVec.ofNat 8 n, 0, 0, 0, 0, imm⟩ := by
  obtain ⟨hlt, h⟩ := Option.ite_none_right_eq_some.mp h
  obtain ⟨imm, hi, rfl⟩ := readI_eq_some hn h
  exact ⟨imm, hlt, hi, rfl⟩

theorem readFRR_eq_some {k : SReg → SReg → Bool → Bool → Instr} (hn : f.op.toNat = n) (h : f.readFRR k = some i) :
    ∃ ra rb v fl, i = k ra rb v fl ∧
      f = ⟨BitVec.ofNat 8 n, BitVec.ofNat 4 (2 * fl.toNat + v.toNat), sregField ra, sregField rb, 0, 0⟩ := by
  unfold Fields.readFRR at h
  split at h
  · rename_i ra rb hra hrb
    obtain ⟨⟨ha, hz, hi⟩, hk⟩ := Option.ite_none_right_eq_some.mp h
    exact ⟨ra, rb, f.a.getLsbD 0, f.a.getLsbD 1, (Option.some.inj hk).symm,
      fields_eq_mk hn (flagField_of_lt_four ha) (sregField_of_sregOf? hra).symm
        (sregField_of_sregOf? hrb).symm hz hi⟩
  · cases h

theorem readFRR0_eq_some {k : SReg → SReg → Bool → Instr} (hn : f.op.toNat = n) (h : f.readFRR0 k = some i) :
    ∃ ra rb v, i = k ra rb v ∧ f = ⟨BitVec.ofNat 8 n, BitVec.ofNat 4 v.toNat, sregField ra, sregField rb, 0, 0⟩ := by
  obtain ⟨hlt, h⟩ := Option.ite_none_right_eq_some.mp h
  obtain ⟨ra, rb, v, fl, hi, rfl⟩ := readFRR_eq_some hn h
  cases fl with
  | false => exact ⟨ra, rb, v, hi, by rw [Bool.toNat_false, Nat.mul_zero, Nat.zero_add]⟩
  | true => exact absurd hlt (by cases v <;> simp)

end Formats

theorem orMalformed_eq_ok {r : Option Instr} {i : Instr} (h : orMalformed r = .ok i) : r = some i := by
  cases r with
  | none => cases h
  | some j => cases h; rfl

/-- The inversion lemma of the decoder, its arms taken together by format. -/
theorem decodeFields_eq_ok {f : Fields} {i : Instr} (h : decodeFields f = .ok i) : f = i.fields ∧ i.wf = true := by
  unfold decodeFields at h
  split at h
  case h_1 hn =>
    obtain ⟨rfl, hf⟩ := readZ_eq_some hn (orMalformed_eq_ok h)
    exact ⟨hf, rfl⟩
  case h_2 hn =>
    obtain ⟨rd, imm, rfl, hf⟩ := readRI_eq_some hn (orMalformed_eq_ok h)
    exact ⟨hf, rfl⟩
  case h_3 hn | h_4 hn =>
    obtain ⟨rd, ra, rfl, hf⟩ := readRR_eq_some hn (orMalformed_eq_ok h)
    exact ⟨hf, rfl⟩
  case h_5 hn | h_17 hn | h_21 hn =>
    obtain ⟨rd, ra, rb, rfl, hf⟩ := readRRR_eq_some hn (orMalformed_eq_ok h)
    exact ⟨hf, rfl⟩
  case h_6 hn | h_15 hn =>
    obtain ⟨pd, rfl, hf⟩ := readP_eq_some hn (orMalformed_eq_ok h)
    exact ⟨hf, rfl⟩
  case h_7 hn =>
    obtain ⟨pd, ra, rfl, hf⟩ := readPR_eq_some hn (orMalformed_eq_ok h)
    exact ⟨hf, rfl⟩
  case h_8 hn =>
    obtain ⟨pd, imm, rfl, hf⟩ := readPI_eq_some hn (orMalformed_eq_ok h)
    exact ⟨hf, rfl⟩
  case h_9 hn =>
    obtain ⟨rd, pa, rfl, hf⟩ := readRP_eq_some hn (orMalformed_eq_ok h)
    exact ⟨hf, rfl⟩
  case h_10 hn =>
    obtain ⟨rd, pa, rb, rfl, hf⟩ := readRPR_eq_some hn (orMalformed_eq_ok h)
    exact ⟨hf, rfl⟩
  case h_11 hn | h_12 hn =>
    obtain ⟨pd, pa, pb, rfl, hf⟩ := readPPP_eq_some hn (orMalformed_eq_ok h)
    exact ⟨hf, rfl⟩
  case h_13 hn | h_16 hn =>
    obtain ⟨m, rfl, hf⟩ := readI_eq_some hn (orMalformed_eq_ok h)
    exact ⟨hf, rfl⟩
  case h_14 hn =>
    obtain ⟨pd, pa, rfl, hf⟩ := readPP_eq_some hn (orMalformed_eq_ok h)
    exact ⟨hf, rfl⟩
  case h_18 hn =>
    obtain ⟨ra, rb, v, fl, rfl, hf⟩ := readFRR_eq_some hn (orMalformed_eq_ok h)
    exact ⟨hf, rfl⟩
  case h_19 hn | h_20 hn =>
    obtain ⟨ra, rb, v, rfl, hf⟩ := readFRR0_eq_some hn (orMalformed_eq_ok h)
    exact ⟨hf, rfl⟩
  case h_22 hn | h_23 hn | h_25 hn | h_26 hn | h_27 hn | h_28 hn | h_29 hn | h_30 hn =>
    obtain ⟨rd, rfl, hf⟩ := readR_eq_some hn (orMalformed_eq_ok h)
    exact ⟨hf, rfl⟩
  case h_24 hn =>
    obtain ⟨p, hp, rfl, hf⟩ := readI3_eq_some hn (orMalformed_eq_ok h)
    exact ⟨hf, decide_eq_true hp⟩
  case h_31 => cases h

theorem decode_eq_ok {w : Word} {i : Instr} (h : decode w = .ok i) : encode i = w ∧ i.wf = true := by
  obtain ⟨hf, hwf⟩ := decodeFields_eq_ok h
  exact ⟨by rw [encode, ← hf, toWord_ofWord], hwf⟩

/-! ### Operands by division -/

section Operands

open Machine.Ref

variable (w : Word)

theorem bitsAt_eq_extract (lo : Nat) {m n : Nat} (h : n ≤ m) :
    bitsAt w lo n = (w.extractLsb' lo m).toNat % 2 ^ n := by
  rw [bitsAt, BitVec.extractLsb'_toNat, Nat.shiftRight_eq_div_pow, Nat.mod_mod_of_dvd _ (pow_dvd_pow 2 h)]

theorem i16_ofWord : (Fields.ofWord w).i16 = w.extractLsb' 0 16 := by
  have hcz : w.extractLsb' 12 4 ++ w.extractLsb' 8 4 = w.extractLsb' 8 (4 + 4) :=
    BitVec.extractLsb'_append_extractLsb'_eq_extractLsb' rfl
  have hall : w.extractLsb' 8 (4 + 4) ++ w.extractLsb' 0 8 = w.extractLsb' 0 (4 + 4 + 8) :=
    BitVec.extractLsb'_append_extractLsb'_eq_extractLsb' rfl
  rw [← hall, ← hcz]
  rfl

@[simp] theorem bitsAt_a {n : Nat} (h : n ≤ 4) : bitsAt w 20 n = (Fields.ofWord w).a.toNat % 2 ^ n :=
  bitsAt_eq_extract w 20 h

@[simp] theorem bitsAt_a_bit1 : bitsAt w 21 1 = (Fields.ofWord w).a.toNat / 2 % 2 := by
  simp only [bitsAt, Fields.ofWord, BitVec.extractLsb'_toNat, Nat.shiftRight_eq_div_pow]
  omega

@[simp] theorem bitsAt_b {n : Nat} (h : n ≤ 4) : bitsAt w 16 n = (Fields.ofWord w).b.toNat % 2 ^ n :=
  bitsAt_eq_extract w 16 h

@[simp] theorem bitsAt_c {n : Nat} (h : n ≤ 4) : bitsAt w 12 n = (Fields.ofWord w).c.toNat % 2 ^ n :=
  bitsAt_eq_extract w 12 h

@[simp] theorem bitsAt_pattern : bitsAt w 0 3 = (Fields.ofWord w).i8.toNat % 8 :=
  bitsAt_eq_extract w 0 (show 3 ≤ 8 by decide)

@[simp] theorem bitsAt_i8 : bitsAt w 0 8 = (Fields.ofWord w).i8.toNat := by
  rw [bitsAt_eq_extract w 0 (Nat.le_refl 8), Nat.mod_eq_of_lt (BitVec.isLt _)]
  rfl

@[simp] theorem bitsAt_i16 : bitsAt w 0 16 = (Fields.ofWord w).i16.toNat := by
  rw [bitsAt_eq_extract w 0 (Nat.le_refl 16), Nat.mod_eq_of_lt (BitVec.isLt _), i16_ofWord]

@[simp] theorem sregField_toNat_mod (r : SReg) : (sregField r).toNat % 8 = r.val := by
  revert r; decide

@[simp] theorem pregField_toNat_mod (p : PReg) : (pregField p).toNat % 4 = p.val := by
  revert p; decide

/-- The encoder puts each operand in its bits. -/
theorem operandsAt_encode {i : Instr} (h : i.wf = true) : operandsAt (encode i) i := by
  cases i with
  | li rd imm => simp [operandsAt, Instr.fields, i16_of_pieces]
  | mset ra rb v f => cases v <;> cases f <;> simp [operandsAt, Instr.fields]
  | mxor ra rb v => cases v <;> simp [operandsAt, Instr.fields]
  | mrsv ra rb v => cases v <;> simp [operandsAt, Instr.fields]
  | mask p =>
    have hp : p.toNat < 8 := of_decide_eq_true h
    simp [operandsAt, Instr.fields, Nat.mod_eq_of_lt hp]
  | _ => simp [operandsAt, Instr.fields]

end Operands

/-- Settles O3: the decoder inverted, then the operands of an encoded command. -/
theorem decodedWordIsItsEncoding : Obligations.DecodedWordIsItsEncoding := by
  intro w i h
  obtain ⟨rfl, hwf⟩ := decode_eq_ok h
  exact ⟨rfl, hwf, operandsAt_encode hwf⟩

/-! ### The table of 30_encoding.md R84 -/

/-- `cw & mask == match`, field by field. -/
def OpcodeRow.Shows (r : OpcodeRow) (f : Fields) : Prop :=
  f.op &&& (Fields.ofWord r.mask).op = (Fields.ofWord r.bits).op ∧
  f.a &&& (Fields.ofWord r.mask).a = (Fields.ofWord r.bits).a ∧
  f.b &&& (Fields.ofWord r.mask).b = (Fields.ofWord r.bits).b ∧
  f.c &&& (Fields.ofWord r.mask).c = (Fields.ofWord r.bits).c ∧
  f.z &&& (Fields.ofWord r.mask).z = (Fields.ofWord r.bits).z ∧
  f.i8 &&& (Fields.ofWord r.mask).i8 = (Fields.ofWord r.bits).i8

theorem accepts_iff_shows (r : OpcodeRow) (w : Word) : r.accepts w = true ↔ r.Shows (Fields.ofWord w) := by
  have hw : w &&& r.mask = r.bits ↔ Fields.ofWord (w &&& r.mask) = Fields.ofWord r.bits :=
    (Function.LeftInverse.injective toWord_ofWord).eq_iff.symm
  rw [OpcodeRow.accepts, beq_iff_eq, hw]
  simp only [OpcodeRow.Shows, Fields.ofWord, BitVec.extractLsb'_and, Fields.mk.injEq]

/-! What each field mask of the table leaves open. -/

theorem and_sregMask_iff (a : BitVec 4) : a &&& 8#4 = 0#4 ↔ ∃ r, sregField r = a := by
  revert a; decide

theorem and_pregMask_iff (a : BitVec 4) : a &&& 12#4 = 0#4 ↔ ∃ p, pregField p = a := by
  revert a; decide

theorem and_flagMask_iff (a : BitVec 4) : a &&& 14#4 = 0#4 ↔ ∃ v : Bool, BitVec.ofNat 4 v.toNat = a := by
  revert a; decide

theorem and_flagsMask_iff (a : BitVec 4) :
    a &&& 12#4 = 0#4 ↔ ∃ v fl : Bool, BitVec.ofNat 4 (2 * fl.toNat + v.toNat) = a := by
  revert a; decide

theorem and_patternMask_iff (p : Byte) : p &&& 248#8 = 0#8 ↔ p.toNat < 8 := by
  revert p; decide

theorem and_fifteen (a : BitVec 4) : a &&& 15#4 = a := BitVec.and_allOnes

theorem and_twoFiftyFive (b : Byte) : b &&& 255#8 = b := BitVec.and_allOnes

/-- The row of a command: the table lists the rows in the order of the constructors. -/
def Instr.row (i : Instr) : OpcodeRow := opcodeRows.getD i.ctorIdx ⟨"", 0, 0⟩

theorem row_mem (i : Instr) : i.row ∈ opcodeRows := by
  have hlt : i.ctorIdx < opcodeRows.length := by
    cases i <;> simp [Instr.ctorIdx, opcodeRows, opcodeRowsLow, opcodeRowsHigh]
  rw [Instr.row, List.getD_eq_getElem _ _ hlt]
  exact List.getElem_mem hlt

theorem row_mnemonic (i : Instr) : i.row.mnemonic = i.mnemonic := by cases i <;> rfl

/-- A mnemonic names one row. -/
theorem row_eq_of_mnemonic_eq : ∀ r ∈ opcodeRows, ∀ r' ∈ opcodeRows, r.mnemonic = r'.mnemonic → r = r' := by
  decide

theorem row_shows_fields {i : Instr} (h : i.wf = true) : i.row.Shows i.fields := by
  unfold OpcodeRow.Shows
  cases i with
  | mset ra rb v fl =>
    have hfl := (and_flagsMask_iff _).mpr ⟨v, fl, rfl⟩
    simp [Instr.row, Instr.ctorIdx, opcodeRows, opcodeRowsLow, opcodeRowsHigh, Fields.ofWord, Instr.fields,
      Fields.zeros, and_sregMask_iff, hfl]
  | mask p =>
    have hp : p.toNat < 8 := of_decide_eq_true h
    simp [Instr.row, Instr.ctorIdx, opcodeRows, opcodeRowsLow, opcodeRowsHigh, Fields.ofWord, Instr.fields,
      Fields.zeros, and_patternMask_iff, hp]
  | _ =>
    simp [Instr.row, Instr.ctorIdx, opcodeRows, opcodeRowsLow, opcodeRowsHigh, Fields.ofWord, Instr.fields,
      Fields.zeros, and_sregMask_iff, and_pregMask_iff, and_flagMask_iff]

/-- A row that shows a word's fields shows those of a command of its own mnemonic. -/
theorem fields_of_shows {r : OpcodeRow} (hr : r ∈ opcodeRows) {f : Fields} (h : r.Shows f) :
    ∃ i : Instr, i.wf = true ∧ i.mnemonic = r.mnemonic ∧ f = i.fields := by
  obtain ⟨op, a, b, c, z, i8⟩ := f
  unfold OpcodeRow.Shows at h
  simp only [opcodeRows, opcodeRowsLow, opcodeRowsHigh, List.cons_append, List.nil_append, List.mem_cons,
    List.not_mem_nil, or_false] at hr
  rcases hr with rfl | rfl | rfl | rfl | rfl | rfl | rfl | rfl | rfl | rfl | rfl | rfl | rfl | rfl | rfl | rfl | rfl |
    rfl | rfl | rfl | rfl | rfl | rfl | rfl | rfl | rfl | rfl | rfl | rfl | rfl
  all_goals
    simp only [Fields.ofWord, BitVec.reduceExtractLsb', and_fifteen, and_twoFiftyFive, BitVec.and_zero,
      and_sregMask_iff, and_pregMask_iff, and_flagMask_iff, and_patternMask_iff, and_true] at h
  · obtain ⟨rfl, rfl, rfl, rfl, rfl, rfl⟩ := h; exact ⟨.nop, rfl, rfl, rfl⟩
  · obtain ⟨rfl, ⟨rd, rfl⟩, rfl⟩ := h
    obtain ⟨hc, hz, hi⟩ := pieces_of_i16 ⟨1, sregField rd, 0, c, z, i8⟩
    exact ⟨.li rd _, rfl, rfl, fields_eq_mk rfl rfl rfl hc.symm hz.symm hi.symm⟩
  · obtain ⟨rfl, ⟨rd, rfl⟩, ⟨ra, rfl⟩, rfl, rfl, rfl⟩ := h; exact ⟨.gflog rd ra, rfl, rfl, rfl⟩
  · obtain ⟨rfl, ⟨rd, rfl⟩, ⟨ra, rfl⟩, rfl, rfl, rfl⟩ := h; exact ⟨.gfexp rd ra, rfl, rfl, rfl⟩
  · obtain ⟨rfl, ⟨rd, rfl⟩, ⟨ra, rfl⟩, ⟨rb, rfl⟩, rfl, rfl⟩ := h; exact ⟨.gfmul rd ra rb, rfl, rfl, rfl⟩
  · obtain ⟨rfl, ⟨pd, rfl⟩, rfl, rfl, rfl, rfl⟩ := h; exact ⟨.pclr pd, rfl, rfl, rfl⟩
  · obtain ⟨rfl, ⟨pd, rfl⟩, ⟨ra, rfl⟩, rfl, rfl, rfl⟩ := h; exact ⟨.ppush pd ra, rfl, rfl, rfl⟩
  · obtain ⟨rfl, ⟨pd, rfl⟩, rfl, rfl, rfl⟩ := h; exact ⟨.ppushi pd i8, rfl, rfl, rfl⟩
  · obtain ⟨rfl, ⟨rd, rfl⟩, ⟨pa, rfl⟩, rfl, rfl, rfl⟩ := h; exact ⟨.plen rd pa, rfl, rfl, rfl⟩
  · obtain ⟨rfl, ⟨rd, rfl⟩, ⟨pa, rfl⟩, ⟨rb, rfl⟩, rfl, rfl⟩ := h; exact ⟨.pget rd pa rb, rfl, rfl, rfl⟩
  · obtain ⟨rfl, ⟨pd, rfl⟩, ⟨pa, rfl⟩, ⟨pb, rfl⟩, rfl, rfl⟩ := h; exact ⟨.pmul pd pa pb, rfl, rfl, rfl⟩
  · obtain ⟨rfl, ⟨pd, rfl⟩, ⟨pa, rfl⟩, ⟨pb, rfl⟩, rfl, rfl⟩ := h; exact ⟨.pmod pd pa pb, rfl, rfl, rfl⟩
  · obtain ⟨rfl, rfl, rfl, rfl, rfl⟩ := h; exact ⟨.rsgen i8, rfl, rfl, rfl⟩
  · obtain ⟨rfl, ⟨pd, rfl⟩, ⟨pa, rfl⟩, rfl, rfl, rfl⟩ := h; exact ⟨.rsenc pd pa, rfl, rfl, rfl⟩
  · obtain ⟨rfl, ⟨pd, rfl⟩, rfl, rfl, rfl, rfl⟩ := h; exact ⟨.rsgetg pd, rfl, rfl, rfl⟩
  · obtain ⟨rfl, rfl, rfl, rfl, rfl⟩ := h; exact ⟨.mnew i8, rfl, rfl, rfl⟩
  · obtain ⟨rfl, ⟨rd, rfl⟩, ⟨ra, rfl⟩, ⟨rb, rfl⟩, rfl, rfl⟩ := h; exact ⟨.mget rd ra rb, rfl, rfl, rfl⟩
  · -- MSET's flags are read by a mask that a polynomial register has too.
    obtain ⟨rfl, hfl, ⟨ra, rfl⟩, ⟨rb, rfl⟩, rfl, rfl⟩ := h
    obtain ⟨v, fl, rfl⟩ := (and_flagsMask_iff a).mp ((and_pregMask_iff a).mpr hfl)
    exact ⟨.mset ra rb v fl, rfl, rfl, rfl⟩
  · obtain ⟨rfl, ⟨v, rfl⟩, ⟨ra, rfl⟩, ⟨rb, rfl⟩, rfl, rfl⟩ := h; exact ⟨.mxor ra rb v, rfl, rfl, rfl⟩
  · obtain ⟨rfl, ⟨v, rfl⟩, ⟨ra, rfl⟩, ⟨rb, rfl⟩, rfl, rfl⟩ := h; exact ⟨.mrsv ra rb v, rfl, rfl, rfl⟩
  · obtain ⟨rfl, ⟨rd, rfl⟩, ⟨ra, rfl⟩, ⟨rb, rfl⟩, rfl, rfl⟩ := h; exact ⟨.misr rd ra rb, rfl, rfl, rfl⟩
  · obtain ⟨rfl, ⟨rd, rfl⟩, rfl, rfl, rfl, rfl⟩ := h; exact ⟨.mdark rd, rfl, rfl, rfl⟩
  · obtain ⟨rfl, ⟨rd, rfl⟩, rfl, rfl, rfl, rfl⟩ := h; exact ⟨.mtot rd, rfl, rfl, rfl⟩
  · obtain ⟨rfl, rfl, rfl, rfl, rfl, hp⟩ := h; exact ⟨.mask i8, decide_eq_true hp, rfl, rfl⟩
  · obtain ⟨rfl, ⟨rd, rfl⟩, rfl, rfl, rfl, rfl⟩ := h; exact ⟨.pen1 rd, rfl, rfl, rfl⟩
  · obtain ⟨rfl, ⟨rd, rfl⟩, rfl, rfl, rfl, rfl⟩ := h; exact ⟨.pen2 rd, rfl, rfl, rfl⟩
  · obtain ⟨rfl, ⟨rd, rfl⟩, rfl, rfl, rfl, rfl⟩ := h; exact ⟨.pen3 rd, rfl, rfl, rfl⟩
  · obtain ⟨rfl, ⟨rd, rfl⟩, rfl, rfl, rfl, rfl⟩ := h; exact ⟨.pen4 rd, rfl, rfl, rfl⟩
  · obtain ⟨rfl, ⟨rd, rfl⟩, rfl, rfl, rfl, rfl⟩ := h; exact ⟨.pen rd, rfl, rfl, rfl⟩
  · obtain ⟨rfl, ⟨rd, rfl⟩, rfl, rfl, rfl, rfl⟩ := h; exact ⟨.best rd, rfl, rfl, rfl⟩

/-- The words of a row are the encodings of the commands with its mnemonic. -/
theorem accepts_iff_encodes {r : OpcodeRow} (hr : r ∈ opcodeRows) (w : Word) :
    r.accepts w = true ↔ ∃ i : Instr, i.wf = true ∧ i.mnemonic = r.mnemonic ∧ encode i = w := by
  rw [accepts_iff_shows]
  constructor
  · intro h
    obtain ⟨i, hwf, hm, hf⟩ := fields_of_shows hr h
    exact ⟨i, hwf, hm, by rw [encode, ← hf, toWord_ofWord]⟩
  · rintro ⟨i, hwf, hm, rfl⟩
    obtain rfl : i.row = r := row_eq_of_mnemonic_eq _ (row_mem i) r hr ((row_mnemonic i).trans hm)
    rw [ofWord_encode]
    exact row_shows_fields hwf

/-- The same with the decoder: a word is the command of a row iff the row accepts it. -/
theorem accepts_iff_decodes {r : OpcodeRow} (hr : r ∈ opcodeRows) (w : Word) :
    r.accepts w = true ↔ ∃ i : Instr, decode w = .ok i ∧ i.mnemonic = r.mnemonic := by
  rw [accepts_iff_encodes hr]
  constructor
  · rintro ⟨i, hwf, hm, rfl⟩
    exact ⟨i, decode_encode hwf, hm⟩
  · rintro ⟨i, hd, hm⟩
    obtain ⟨he, hwf⟩ := decode_eq_ok hd
    exact ⟨i, hwf, hm, he⟩

theorem accepts_iff_mnemonic {w : Word} {i : Instr} (hd : decode w = .ok i) {r : OpcodeRow} (hr : r ∈ opcodeRows) :
    r.accepts w = true ↔ r.mnemonic = i.mnemonic := by
  simp [accepts_iff_decodes hr, hd, eq_comm]

theorem not_accepts_of_error {w : Word} {e : Reject} (hd : decode w = .error e) {r : OpcodeRow}
    (hr : r ∈ opcodeRows) : r.accepts w = false := by
  rw [← Bool.not_eq_true, accepts_iff_decodes hr, hd]
  rintro ⟨i, h, -⟩
  cases h

/-- Settles O4: a decoded word is accepted by the row of its command, a rejected one by none, and a row is named by the
mnemonic of the command. -/
theorem decoderAgreesWithOpcodeTable : Obligations.DecoderAgreesWithOpcodeTable := by
  intro w
  refine ⟨fun i hd r hr => accepts_iff_mnemonic hd hr, ⟨?_, fun hnone => ?_⟩, fun r hr r' hr' h h' => ?_⟩
  · rintro ⟨e, hd⟩ r hr
    exact not_accepts_of_error hd hr
  · cases hd : decode w with
    | error e => exact ⟨e, rfl⟩
    | ok i =>
      have haccepts := (accepts_iff_mnemonic hd (row_mem i)).mpr (row_mnemonic i)
      exact absurd (haccepts.symm.trans (hnone i.row (row_mem i))) Bool.noConfusion
  · obtain ⟨i, hd, hm⟩ := (accepts_iff_decodes hr w).mp h
    exact row_eq_of_mnemonic_eq r hr r' hr' (hm.symm.trans ((accepts_iff_mnemonic hd hr').mp h').symm)

end Sys2Proof

namespace Sys2Proof.Machine

/-! ### The text form of 30_encoding.md R90 -/

@[simp] theorem sregNamed?_val (r : SReg) : sregNamed? r.val = some r := dif_pos r.isLt

@[simp] theorem pregNamed?_val (p : PReg) : pregNamed? p.val = some p := dif_pos p.isLt

@[simp] theorem immNamed?_toNat {w : Nat} (v : BitVec w) : immNamed? w v.toNat = some v := by
  rw [immNamed?, if_pos v.isLt, BitVec.ofNat_toNat, BitVec.setWidth_eq]

@[simp] theorem flagNamed?_toNat (v : Bool) : flagNamed? v.toNat = some v := by cases v <;> rfl

/-- Every operand written out is read back as itself. -/
theorem assembleOps_operandsOf {i : Instr} (h : i.wf = true) : assembleOps i.mnemonic (operandsOf i) = some i := by
  cases i with
  | mask p =>
    have hp : p.toNat < 8 := of_decide_eq_true h
    simp [assembleOps, operandsOf, Instr.mnemonic, hp]
  | _ =>
    simp [assembleOps, operandsOf, Instr.mnemonic, asmR, asmRR, asmRRR, asmP, asmPP, asmPPP, asmI, asmCellV]

/-- Settles O5: `assembleOps_operandsOf`, and MSET with three operands. -/
theorem textFormNamesOneCommand : Obligations.TextFormNamesOneCommand :=
  ⟨fun _ h => assembleOps_operandsOf h, fun ra rb v => by simp [assembleOps]⟩

/-! ### The expansion of PLOAD, 30_encoding.md R91 (a) -/

section Pload

variable {s : State} {pd : PReg}

theorem execAll_cons_of_next {i : Instr} {is : List Instr} {t : State} (h : issue (encode i) s = .next t) :
    execAll (i :: is) s = execAll is t := by
  simp only [execAll, issueAll, List.map_cons, inTurn_cons, h, andThen_next]

/-- What a completed command that writes only the list `l` to `pd` leaves, its word `w` still held (log 6). -/
def State.loaded (s : State) (pd : PReg) (l : Poly) (w : Word) : State :=
  { s with polys := s.polys.set pd l, busy := false, held := w }

@[simp] theorem loaded_fault (l : Poly) (w : Word) : (s.loaded pd l w).fault = s.fault := rfl
@[simp] theorem loaded_busy (l : Poly) (w : Word) : (s.loaded pd l w).busy = false := rfl
@[simp] theorem loaded_held (l : Poly) (w : Word) : (s.loaded pd l w).held = w := rfl

@[simp] theorem getPoly_loaded (l : Poly) (w : Word) : (s.loaded pd l w).getPoly pd = l := by
  simp [State.getPoly, State.loaded]

@[simp] theorem loaded_loaded (l l' : Poly) (w w' : Word) :
    (s.loaded pd l w).loaded pd l' w' = s.loaded pd l' w' := by
  simp [State.loaded]

theorem loaded_of_idle (hb : s.busy = false) (l : Poly) (w : Word) :
    s.loaded pd l w = { s with polys := s.polys.set pd l, held := w } := by
  rw [State.loaded, ← hb]

theorem loaded_self (hb : s.busy = false) : s.loaded pd (s.getPoly pd) s.held = s := by
  simp [loaded_of_idle hb, State.getPoly]

theorem issue_pclr (hf : s.fault = false) (hb : s.busy = false) :
    issue (encode (.pclr pd)) s = .next (s.loaded pd [] (encode (.pclr pd))) :=
  issue_encode (decode_encode rfl) hf hb

theorem issue_ppushi (c : Byte) (hf : s.fault = false) (hb : s.busy = false)
    (hl : (s.getPoly pd).length < Config.pcap) :
    issue (encode (.ppushi pd c)) s = .next (s.loaded pd (s.getPoly pd ++ [c]) (encode (.ppushi pd c))) :=
  (issue_encode (decode_encode rfl) hf hb).trans (if_neg (Nat.ne_of_lt hl))

/-- Pushing a list that fits appends it. -/
theorem execAll_ppushi (bs : List Byte) (hf : s.fault = false) (hb : s.busy = false)
    (hl : (s.getPoly pd).length + bs.length ≤ Config.pcap) :
    execAll (bs.map (.ppushi pd)) s =
      .next (s.loaded pd (s.getPoly pd ++ bs) (((bs.map (.ppushi pd)).map encode).getLastD s.held)) := by
  induction bs generalizing s with
  | nil =>
    rw [List.append_nil]
    exact congrArg Host.Outcome.next (loaded_self hb).symm
  | cons c cs ih =>
    rw [List.length_cons] at hl
    have hpush := issue_ppushi c hf hb (pd := pd) (by omega)
    have hrest := ih (s := s.loaded pd (s.getPoly pd ++ [c]) (encode (.ppushi pd c))) hf rfl (by simp; omega)
    rw [List.map_cons, execAll_cons_of_next hpush, hrest]
    simp only [loaded_loaded, getPoly_loaded, loaded_held, List.append_assoc, List.singleton_append, List.map_cons,
      List.getLastD_cons]

theorem execAll_expand_pload (bs : List Byte) (hf : s.fault = false) (hb : s.busy = false)
    (hl : bs.length ≤ Config.pcap) :
    execAll (expand (.pload pd bs)) s =
      .next (s.loaded pd bs (((expand (.pload pd bs)).map encode).getLastD 0)) := by
  have hrest := execAll_ppushi (s := s.loaded pd [] (encode (.pclr pd))) (pd := pd) bs hf rfl (by simpa using hl)
  rw [expand, execAll_cons_of_next (issue_pclr hf hb), hrest]
  simp only [loaded_loaded, getPoly_loaded, loaded_held, List.nil_append, List.map_cons, List.getLastD_cons]

end Pload

/-- Settles O59: PCLR empties the register, and each PPUSHI finds room for its coefficient. -/
theorem ploadLeavesTheListInTheRegister : Obligations.PloadLeavesTheListInTheRegister := by
  intro pd bs s hb hl
  refine ⟨fun hf => issueAll_fault _ hf hb, fun hf => ?_⟩
  rw [execAll_expand_pload bs hf hb hl, loaded_of_idle hb]

end Sys2Proof.Machine

/-! PROOFS. The statements of 40_gf.md: the laws of R106 and the commands LI, GFLOG, GFEXP and GFMUL. The field is read
through the exponents: an element is 0 or a power of x. The two laws that exponents do not show, distribution over xor
and the shift-and-xor product, come from multiplication by x, which is linear. -/

namespace Sys2Proof.Machine

/-! ### Laws seen on the exponents -/

theorem eq_zero_or_gfExp (a : Byte) : a = 0 ∨ ∃ i, a = gfExp i := by
  obtain h | ⟨l, -, -, h⟩ := gfExp_of_gfLog?_all a
  · exact .inl h
  · exact .inr ⟨l, h.symm⟩

/-- The logarithm, where it exists, is the exponent below 255. -/
theorem gfExp_of_gfLog? {a : Byte} {l : Nat} (h : gfLog? a = some l) : l < 255 ∧ gfExp l = a := by
  obtain rfl | ⟨k, hk, hlt, ha⟩ := gfExp_of_gfLog?_all a
  · exact absurd (gfLog?_zero.symm.trans h) nofun
  · obtain rfl : k = l := Option.some.inj (hk.symm.trans h)
    exact ⟨hlt, ha⟩

theorem gfMul_comm (a b : Byte) : gfMul a b = gfMul b a := by
  obtain rfl | ⟨i, rfl⟩ := eq_zero_or_gfExp a
  · simp
  obtain rfl | ⟨j, rfl⟩ := eq_zero_or_gfExp b
  · simp
  rw [gfMul_gfExp, gfMul_gfExp, Nat.add_comm]

theorem gfMul_assoc (a b c : Byte) : gfMul (gfMul a b) c = gfMul a (gfMul b c) := by
  obtain rfl | ⟨i, rfl⟩ := eq_zero_or_gfExp a
  · simp
  obtain rfl | ⟨j, rfl⟩ := eq_zero_or_gfExp b
  · simp
  obtain rfl | ⟨k, rfl⟩ := eq_zero_or_gfExp c
  · simp
  simp only [gfMul_gfExp, Nat.add_assoc]

theorem gfMul_one_right (a : Byte) : gfMul a 1 = a := by
  rw [gfMul_comm]; exact gfMul_one_left a

theorem gfMul_gfExp_inverse {a : Byte} {l : Nat} (h : gfLog? a = some l) : gfMul a (gfExp (255 - l)) = 1 := by
  obtain ⟨hlt, rfl⟩ := gfExp_of_gfLog? h
  calc gfMul (gfExp l) (gfExp (255 - l))
    _ = gfExp (l + (255 - l)) := gfMul_gfExp _ _
    _ = gfExp (0 + 255) := by congr 1; omega
    _ = 1 := (gfExp_add_period 0).trans gfExp_zero

theorem eq_zero_of_gfMul_eq_zero {a b : Byte} (h : gfMul a b = 0) : a = 0 ∨ b = 0 := by
  obtain ha | ⟨i, rfl⟩ := eq_zero_or_gfExp a
  · exact .inl ha
  obtain hb | ⟨j, rfl⟩ := eq_zero_or_gfExp b
  · exact .inr hb
  rw [gfMul_gfExp] at h
  exact absurd h (gfExp_ne_zero _)

/-! ### Multiplication by x, the byte 2 -/

theorem gfExp_one : gfExp 1 = 2 := by decide

theorem toNat_gfMul_two (a : Byte) : (gfMul 2 a).toNat = Ref.timesX a.toNat := by
  obtain rfl | ⟨i, rfl⟩ := eq_zero_or_gfExp a
  · decide
  · rw [← gfExp_one, gfMul_gfExp, Nat.add_comm, gfExp_succ]

/-- One shift, and one conditional xor with the low byte of `0x11D`. -/
theorem gfMul_two (a : Byte) : gfMul 2 a = a <<< 1 ^^^ if a.msb then 0x1D else 0 := by
  have hall : ∀ a : Byte, Ref.timesX a.toNat = (a <<< 1 ^^^ if a.msb then 0x1D else 0).toNat := by decide +kernel
  exact BitVec.eq_of_toNat_eq ((toNat_gfMul_two a).trans (hall a))

theorem gfMul_two_xor (a b : Byte) : gfMul 2 (a ^^^ b) = gfMul 2 a ^^^ gfMul 2 b := by
  have hmsb : (if (a ^^^ b).msb then 0x1D else 0 : Byte) =
      (if a.msb then 0x1D else 0) ^^^ if b.msb then 0x1D else 0 := by
    rw [BitVec.msb_xor]
    cases a.msb <;> cases b.msb <;> decide
  rw [gfMul_two, gfMul_two, gfMul_two, hmsb, BitVec.shiftLeft_xor_distrib]
  ac_rfl

/-- Multiplication by a power of x is multiplication by x, repeated. -/
theorem gfMul_gfExp_succ (i : Nat) (b : Byte) : gfMul (gfExp (i + 1)) b = gfMul 2 (gfMul (gfExp i) b) := by
  rw [← gfMul_assoc, ← gfExp_one, gfMul_gfExp, Nat.add_comm]

theorem gfMul_xor (a b c : Byte) : gfMul a (b ^^^ c) = gfMul a b ^^^ gfMul a c := by
  obtain rfl | ⟨i, rfl⟩ := eq_zero_or_gfExp a
  · simp
  induction i with
  | zero => simp [gfExp_zero, gfMul_one_left]
  | succ i ih => rw [gfMul_gfExp_succ, gfMul_gfExp_succ, gfMul_gfExp_succ, ih, gfMul_two_xor]

/-! ### The shift-and-xor product of R106 (e) -/

/-- A byte is its lowest bit, and x times the byte without it. -/
theorem eq_lowBit_xor_gfMul_two (b : Byte) :
    b = (if b.toNat % 2 = 1 then 1 else 0 : Byte) ^^^ gfMul 2 (b >>> 1) := by
  have hshift : gfMul 2 (b >>> 1) = b >>> 1 <<< 1 := by
    rw [gfMul_two]; simp [BitVec.msb_ushiftRight]
  have hbits : ∀ b : Byte, b = (if b.toNat % 2 = 1 then 1 else 0 : Byte) ^^^ b >>> 1 <<< 1 := by decide +kernel
  rw [hshift]
  exact hbits b

/-- One pass of the loop: the lowest bit of `b` is taken, `a` moves on by x. -/
theorem gfMul_pass (a b : Byte) :
    gfMul a b = (if b.toNat % 2 = 1 then a else 0) ^^^ gfMul (gfMul 2 a) (b >>> 1) := by
  have hbit : gfMul a (if b.toNat % 2 = 1 then 1 else 0 : Byte) = if b.toNat % 2 = 1 then a else 0 := by
    split
    · exact gfMul_one_right a
    · exact gfMul_zero_right a
  conv_lhs => rw [eq_lowBit_xor_gfMul_two b, gfMul_xor, hbit, ← gfMul_assoc, gfMul_comm a 2]

/-- After `n` passes the running result has received the product, when `b` has no more than `n` bits. -/
theorem carrylessLoop_eq (n : Nat) (r a b : Byte) (hb : b.toNat < 2 ^ n) :
    Ref.carrylessLoop n r.toNat a.toNat b.toNat = (r ^^^ gfMul a b).toNat := by
  induction n generalizing r a b with
  | zero =>
    obtain rfl : b = 0 := BitVec.eq_of_toNat_eq (Nat.lt_one_iff.mp hb)
    simp [Ref.carrylessLoop]
  | succ n ih =>
    have hhalf : (b >>> 1).toNat = b.toNat / 2 := by simp [Nat.shiftRight_one]
    have hresult : (if b.toNat % 2 = 1 then r.toNat ^^^ a.toNat else r.toNat) =
        (r ^^^ if b.toNat % 2 = 1 then a else 0).toNat := by
      split <;> simp
    have hrest : (b >>> 1).toNat < 2 ^ n := by rw [hhalf]; omega
    rw [Ref.carrylessLoop, hresult, ← toNat_gfMul_two, ← hhalf, ih _ _ _ hrest, BitVec.xor_assoc, ← gfMul_pass]

theorem toNat_gfMul (a b : Byte) : (gfMul a b).toNat = Ref.carryless a.toNat b.toNat := by
  calc (gfMul a b).toNat
    _ = (0#8 ^^^ gfMul a b).toNat := by rw [BitVec.zero_xor]
    _ = Ref.carryless a.toNat b.toNat := (carrylessLoop_eq 8 0 a b b.isLt).symm

/-! ### Register values and field elements -/

theorem wordOfByte_eq (b : Byte) : wordOfByte b = BitVec.ofNat 32 b.toNat :=
  (BitVec.ofNat_toNat 32 b).symm

theorem elementOf?_of_le {v : Word} (h : v.toNat ≤ 255) : elementOf? v = some (v.setWidth 8) := if_pos h

theorem elementOf?_of_gt {v : Word} (h : 255 < v.toNat) : elementOf? v = none := if_neg (Nat.not_le_of_gt h)

theorem toNat_setWidth_eight (v : Word) : (v.setWidth 8).toNat = v.toNat % 256 := BitVec.toNat_setWidth 8 v

/-! ### What GFLOG and GFMUL answer -/

section Commands

variable {s : State} {rd ra rb : SReg}

theorem exec_gflog_of_some {l : Nat} (h : gfLog? ((s.getReg ra).setWidth 8) = some l) :
    exec (.gflog rd ra) s = done (s.setReg rd (wordOfNat l)) := by
  rw [exec, execGflog, h]

theorem exec_gflog_of_none (h : gfLog? ((s.getReg ra).setWidth 8) = none) :
    exec (.gflog rd ra) s = trap .logZero s := by
  rw [exec, execGflog, h]

theorem exec_gfmul_of_le (ha : (s.getReg ra).toNat ≤ 255) (hb : (s.getReg rb).toNat ≤ 255) :
    exec (.gfmul rd ra rb) s =
      done (s.setReg rd (wordOfByte (gfMul ((s.getReg ra).setWidth 8) ((s.getReg rb).setWidth 8)))) := by
  rw [exec, execGfmul, elementOf?_of_le ha, elementOf?_of_le hb]

theorem exec_gfmul_of_gt (h : 255 < (s.getReg ra).toNat ∨ 255 < (s.getReg rb).toNat) :
    exec (.gfmul rd ra rb) s = trap .range s := by
  rw [exec, execGfmul]
  obtain ha | hb := h
  · rw [elementOf?_of_gt ha]
  · rw [elementOf?_of_gt hb]; cases elementOf? (s.getReg ra) <;> rfl

end Commands

/-! ### The obligations -/

/-- Settles O29: one lemma per law. -/
theorem fieldLawsHold : Obligations.FieldLawsHold :=
  ⟨fun _ ha => (exists_gfExp ha).imp fun _ ⟨hlog, _, hexp⟩ => ⟨hlog, hexp⟩, gfLog?_gfExp,
    fun a => ⟨gfMul_zero_right a, gfMul_zero_left a, gfMul_one_right a⟩, gfMul_comm, gfMul_assoc, gfMul_xor,
    fun _ _ => gfMul_gfExp_inverse, fun _ _ => eq_zero_of_gfMul_eq_zero, toNat_gfMul⟩

/-- Settles O26: the logarithm is missing only for 0, and EXP is the table of the powers of x. -/
theorem gflogWritesTheDiscreteLog : Obligations.GflogWritesTheDiscreteLog := by
  intro rd ra s
  rw [← toNat_setWidth_eight]
  refine ⟨fun h => ?_, fun h => ?_⟩
  · have hzero : (s.getReg ra).setWidth 8 = 0 := BitVec.eq_of_toNat_eq h
    exact exec_gflog_of_none (hzero ▸ gfLog?_zero)
  · obtain ⟨l, hlog, hlt, hexp⟩ := exists_gfExp (a := (s.getReg ra).setWidth 8) fun hzero => h (by rw [hzero]; rfl)
    exact ⟨l, hlt, by rw [← hexp, gfExp_eq_powX], exec_gflog_of_some hlog⟩

/-- Settles O27: EXP is the table of the powers of x, which repeat after 255. -/
theorem gfexpWritesThePower : Obligations.GfexpWritesThePower := by
  intro rd ra s
  rw [← gfExp_eq_powX, gfExp_mod, ← wordOfByte_eq]
  rfl

/-- Settles O28: the table product is the shift-and-xor product. -/
theorem gfmulWritesTheFieldProduct : Obligations.GfmulWritesTheFieldProduct := by
  intro rd ra rb s
  refine ⟨exec_gfmul_of_gt, fun ha hb => ?_⟩
  rw [exec_gfmul_of_le ha hb, wordOfByte_eq, toNat_gfMul, toNat_setWidth_eight, toNat_setWidth_eight,
    Nat.mod_eq_of_lt (Nat.lt_succ_of_le ha), Nat.mod_eq_of_lt (Nat.lt_succ_of_le hb)]
  rfl

/-- Settles O25: zero extension keeps the number. -/
theorem liLoadsTheImmediate : Obligations.LiLoadsTheImmediate :=
  fun _ imm _ => ⟨imm.zeroExtend 32, BitVec.toNat_setWidth_of_le (by decide), rfl⟩

end Sys2Proof.Machine

/-! PROOFS. The statements of 41_poly.md: the commands on the polynomial registers, and the laws of R130. A product is
read row by row and coefficient by coefficient; a remainder through its recursion on the source, `paddedRem_cons`. -/

namespace Sys2Proof.Machine

/-! ### Lists aligned at the leading end -/

theorem xorHead_comm (a b : Poly) : xorHead a b = xorHead b a := by
  induction a generalizing b with
  | nil => simp
  | cons x xs ih =>
    cases b with
    | nil => simp
    | cons y ys => simp only [xorHead_cons, BitVec.xor_comm x y, ih ys]

theorem xorHead_assoc (a b c : Poly) : xorHead (xorHead a b) c = xorHead a (xorHead b c) := by
  induction a generalizing b c with
  | nil => simp
  | cons x xs ih =>
    cases b with
    | nil => simp
    | cons y ys =>
      cases c with
      | nil => simp
      | cons z zs => simp only [xorHead_cons, BitVec.xor_assoc x y z, ih ys zs]

theorem xorHead_left_comm (a b c : Poly) : xorHead a (xorHead b c) = xorHead b (xorHead a c) := by
  rw [← xorHead_assoc, xorHead_comm a b, xorHead_assoc]

theorem xorHead_self (a : Poly) : xorHead a a = List.replicate a.length 0 := by
  induction a with
  | nil => rfl
  | cons x xs ih => rw [xorHead_cons, BitVec.xor_self, ih]; rfl

/-- Zeros no longer than the list change nothing. -/
theorem zeros_xorHead {n : Nat} {a : Poly} (h : n ≤ a.length) : xorHead (List.replicate n 0) a = a := by
  induction n generalizing a with
  | zero => simp
  | succ n ih =>
    cases a with
    | nil => simp at h
    | cons x xs =>
      have hrest : xorHead (List.replicate n 0) xs = xs := ih (Nat.le_of_succ_le_succ h)
      rw [List.replicate_succ, xorHead_cons, hrest]
      simp

/-- A list xored in twice is gone. -/
theorem xorHead_cancel {a b : Poly} (h : b.length ≤ a.length) : xorHead (xorHead a b) b = a := by
  rw [xorHead_assoc, xorHead_self, xorHead_comm, zeros_xorHead h]

theorem addPoly_eq_xorHead {a b : Poly} (h : a.length = b.length) : Ref.addPoly a b = xorHead a b := by
  induction a generalizing b with
  | nil => rw [List.length_eq_zero_iff.mp h.symm]; rfl
  | cons x xs ih =>
    cases b with
    | nil => simp at h
    | cons y ys =>
      rw [xorHead_cons, ← ih (Nat.succ_injective h)]
      rfl

theorem xorHead_append {a b : Poly} (a' b' : Poly) (h : a.length = b.length) :
    xorHead (a ++ a') (b ++ b') = xorHead a b ++ xorHead a' b' := by
  induction a generalizing b with
  | nil => rw [List.length_eq_zero_iff.mp h.symm]; rfl
  | cons x xs ih =>
    cases b with
    | nil => simp at h
    | cons y ys =>
      simp only [List.cons_append, xorHead_cons, ih (Nat.succ_injective h)]

/-! ### A list scaled by a coefficient -/

theorem gfMul_xor_left (a b c : Byte) : gfMul (a ^^^ b) c = gfMul a c ^^^ gfMul b c := by
  rw [gfMul_comm, gfMul_xor, gfMul_comm c, gfMul_comm c]

theorem scale_xorHead (x : Byte) (a b : Poly) :
    (xorHead a b).map (gfMul x) = xorHead (a.map (gfMul x)) (b.map (gfMul x)) := by
  induction a generalizing b with
  | nil => simp
  | cons y ys ih =>
    cases b with
    | nil => simp
    | cons z zs => simp only [xorHead_cons, List.map_cons, gfMul_xor, ih zs]

theorem xor_scale (x y : Byte) (a : Poly) :
    a.map (gfMul (x ^^^ y)) = xorHead (a.map (gfMul x)) (a.map (gfMul y)) := by
  induction a with
  | nil => rfl
  | cons z zs ih => simp only [List.map_cons, xorHead_cons, gfMul_xor_left, ih]

theorem zero_scale (a : Poly) : a.map (gfMul 0) = List.replicate a.length 0 := by
  induction a with
  | nil => rfl
  | cons x xs ih => rw [List.map_cons, ih]; exact congrArg (· :: _) (gfMul_zero_left x)

theorem getD_scale (x : Byte) (a : Poly) (k : Nat) : (a.map (gfMul x)).getD k 0 = gfMul x (a.getD k 0) := by
  rw [← List.getD_map (f := gfMul x)]
  exact congrArg _ (gfMul_zero_right x).symm

/-! ### Products, row by row -/

theorem polyMul_cons (x : Byte) (xs b : Poly) :
    polyMul (x :: xs) b = xorHead (b.map (gfMul x)) (0 :: polyMul xs b) := rfl

theorem polyMul_ne_nil {a b : Poly} (ha : a ≠ []) (hb : b ≠ []) : polyMul a b ≠ [] := by
  have hlen := length_polyMul ha hb
  have hpos := List.length_pos_iff.mpr ha
  have hpos' := List.length_pos_iff.mpr hb
  exact List.length_pos_iff.mp (by omega)

theorem polyMul_singleton_left (x : Byte) {b : Poly} (hb : b ≠ []) : polyMul [x] b = b.map (gfMul x) := by
  obtain ⟨y, ys, rfl⟩ := List.exists_cons_of_ne_nil hb
  simp [polyMul]

theorem polyMul_one_right (a : Poly) : polyMul a [1] = a := by
  induction a with
  | nil => rfl
  | cons x xs ih => rw [polyMul_cons, ih, List.map_singleton, gfMul_one_right]; simp

theorem scale_polyMul (x : Byte) (a b : Poly) : polyMul (a.map (gfMul x)) b = (polyMul a b).map (gfMul x) := by
  induction a with
  | nil => rfl
  | cons y ys ih =>
    have hrow : b.map (gfMul (gfMul x y)) = (b.map (gfMul y)).map (gfMul x) := by
      rw [List.map_map]
      exact List.map_congr_left fun c _ => gfMul_assoc x y c
    have hzero : gfMul x 0 = 0 := gfMul_zero_right x
    rw [List.map_cons, polyMul_cons, polyMul_cons, scale_xorHead, List.map_cons, hzero, ih, hrow]

theorem xorHead_polyMul (a a' b : Poly) : polyMul (xorHead a a') b = xorHead (polyMul a b) (polyMul a' b) := by
  induction a generalizing a' with
  | nil => simp [polyMul]
  | cons x xs ih =>
    cases a' with
    | nil => simp [polyMul]
    | cons y ys =>
      have hrest : (0 :: xorHead (polyMul xs b) (polyMul ys b) : Poly) =
          xorHead (0 :: polyMul xs b) (0 :: polyMul ys b) := rfl
      rw [xorHead_cons, polyMul_cons, polyMul_cons, polyMul_cons, ih, hrest, xor_scale]
      simp only [xorHead_assoc, xorHead_left_comm]

/-- A leading zero of a factor is one of the product. -/
theorem zero_cons_polyMul {a b : Poly} (ha : a ≠ []) (hb : b ≠ []) : polyMul (0 :: a) b = 0 :: polyMul a b := by
  have hlen := length_polyMul ha hb
  have hpos := List.length_pos_iff.mpr ha
  rw [polyMul_cons, zero_scale, zeros_xorHead]
  rw [List.length_cons]
  omega

theorem polyMul_assoc {a b c : Poly} (ha : a ≠ []) (hb : b ≠ []) (hc : c ≠ []) :
    polyMul (polyMul a b) c = polyMul a (polyMul b c) := by
  induction a with
  | nil => exact absurd rfl ha
  | cons x xs ih =>
    obtain rfl | hxs := eq_or_ne xs []
    · rw [polyMul_singleton_left x hb, polyMul_singleton_left x (polyMul_ne_nil hb hc), scale_polyMul]
    · calc polyMul (polyMul (x :: xs) b) c
        _ = xorHead (polyMul (b.map (gfMul x)) c) (polyMul (0 :: polyMul xs b) c) := xorHead_polyMul ..
        _ = xorHead ((polyMul b c).map (gfMul x)) (0 :: polyMul xs (polyMul b c)) := by
          rw [scale_polyMul, zero_cons_polyMul (polyMul_ne_nil hxs hb) hc, ih hxs]

/-! ### Products, coefficient by coefficient -/

theorem getD_polyMul_cons (x : Byte) (xs b : Poly) (k : Nat) :
    (polyMul (x :: xs) b).getD k 0 = gfMul x (b.getD k 0) ^^^ (0 :: polyMul xs b).getD k 0 := by
  rw [polyMul_cons, getD_xorHead, getD_scale]

/-- The same by the columns of the second factor. -/
theorem getD_polyMul_cons_right (a : Poly) (y : Byte) (ys : Poly) (k : Nat) :
    (polyMul a (y :: ys)).getD k 0 = gfMul y (a.getD k 0) ^^^ (0 :: polyMul a ys).getD k 0 := by
  induction a generalizing k with
  | nil => cases k <;> simp [polyMul]
  | cons x xs ih =>
    rw [getD_polyMul_cons]
    cases k with
    | zero => simp [gfMul_comm]
    | succ k =>
      simp only [List.getD_cons_succ, getD_polyMul_cons, ih]
      ac_rfl

theorem getD_polyMul_nil_right (a : Poly) (k : Nat) : (polyMul a []).getD k 0 = 0 := by
  induction a generalizing k with
  | nil => rfl
  | cons x xs ih => cases k with
    | zero => rfl
    | succ k => exact ih k

theorem getD_polyMul_comm (a b : Poly) (k : Nat) : (polyMul a b).getD k 0 = (polyMul b a).getD k 0 := by
  induction a generalizing k with
  | nil => exact (getD_polyMul_nil_right b k).symm
  | cons x xs ih =>
    rw [getD_polyMul_cons, getD_polyMul_cons_right]
    cases k with
    | zero => rfl
    | succ k => simp only [List.getD_cons_succ, ih]

theorem eq_of_getD {a b : Poly} (hlen : a.length = b.length) (h : ∀ k, a.getD k 0 = b.getD k 0) : a = b :=
  List.ext_getElem hlen fun k ha hb => by simpa [ha, hb] using h k

theorem polyMul_comm {a b : Poly} (ha : a ≠ []) (hb : b ≠ []) : polyMul a b = polyMul b a :=
  eq_of_getD (by rw [length_polyMul ha hb, length_polyMul hb ha, Nat.add_comm]) (getD_polyMul_comm a b)

/-! ### The coefficients of R121 -/

/-- What index `i` of the first factor gives to index `k` of the product; a missing coefficient is 0. -/
def productTerm (a b : Poly) (k i : Nat) : Byte :=
  if i ≤ k then gfMul (a.getD i 0) (b.getD (k - i) 0) else 0

theorem productCoeff_eq (a b : Poly) (k : Nat) :
    Ref.productCoeff a b k = (List.range a.length).foldl (fun acc i => acc ^^^ productTerm a b k i) 0 := by
  have hterm : ∀ acc i, (if i ≤ k ∧ k - i < b.length then acc ^^^ gfMul (a.getD i 0) (b.getD (k - i) 0)
      else acc) = acc ^^^ productTerm a b k i := by
    intro acc i
    unfold productTerm
    by_cases hi : i ≤ k
    · by_cases hb : k - i < b.length
      · rw [if_pos ⟨hi, hb⟩, if_pos hi]
      · simp [hb]
    · simp [hi]
  simp only [Ref.productCoeff, hterm]

theorem foldl_xor_eq (t : Nat → Byte) (l : List Nat) (c : Byte) :
    l.foldl (fun acc i => acc ^^^ t i) c = c ^^^ l.foldl (fun acc i => acc ^^^ t i) 0 := by
  induction l generalizing c with
  | nil => simp
  | cons i l ih => rw [List.foldl_cons, List.foldl_cons, ih, ih (0 ^^^ t i)]; simp [BitVec.xor_assoc]

theorem productCoeff_cons (x : Byte) (xs b : Poly) (k : Nat) :
    Ref.productCoeff (x :: xs) b k = gfMul x (b.getD k 0) ^^^
      (List.range xs.length).foldl (fun acc i => acc ^^^ productTerm (x :: xs) b k (i + 1)) 0 := by
  rw [productCoeff_eq, List.length_cons, List.range_succ_eq_map, List.foldl_cons, foldl_xor_eq, List.foldl_map]
  simp [productTerm]

theorem getD_polyMul (a b : Poly) (k : Nat) : (polyMul a b).getD k 0 = Ref.productCoeff a b k := by
  induction a generalizing k with
  | nil => rfl
  | cons x xs ih =>
    rw [getD_polyMul_cons, productCoeff_cons]
    congr 1
    cases k with
    | zero => simp [productTerm]
    | succ k =>
      rw [List.getD_cons_succ, ih, productCoeff_eq]
      simp [productTerm]

/-! ### Zeros in front -/

theorem padFront_length (a : Poly) : Ref.padFront a.length a = a := by
  rw [Ref.padFront, Nat.sub_self]; rfl

theorem length_padFront {n : Nat} {a : Poly} (h : a.length ≤ n) : (Ref.padFront n a).length = n := by
  simp [Ref.padFront, h]

theorem padFront_succ {n : Nat} {a : Poly} (h : a.length ≤ n) : Ref.padFront (n + 1) a = 0 :: Ref.padFront n a := by
  rw [Ref.padFront, Nat.succ_sub h]; rfl

theorem padFront_add (m : Nat) {n : Nat} {a : Poly} (h : a.length ≤ n) :
    Ref.padFront (m + n) a = List.replicate m 0 ++ Ref.padFront n a := by
  rw [Ref.padFront, Nat.add_sub_assoc h, List.replicate_add, List.append_assoc]; rfl

theorem stripZeros_zero_cons (a : Poly) : stripZeros (0 :: a) = stripZeros a := rfl

theorem stripZeros_of_head?_ne {a : Poly} (h : a.head? ≠ some 0) : stripZeros a = a := by
  cases a with
  | nil => rfl
  | cons x xs =>
    have hx : x ≠ 0 := fun e => h (congrArg some e)
    exact List.dropWhile_cons_of_neg fun e => hx (beq_iff_eq.mp e)

theorem stripZeros_zeros_append (n : Nat) (a : Poly) : stripZeros (List.replicate n 0 ++ a) = stripZeros a := by
  induction n with
  | zero => rfl
  | succ n ih => rw [List.replicate_succ, List.cons_append, stripZeros_zero_cons, ih]

/-- The zeros that were stripped, put back. -/
theorem padFront_stripZeros (a : Poly) : Ref.padFront a.length (stripZeros a) = a := by
  induction a with
  | nil => rfl
  | cons x xs ih =>
    by_cases hx : x = 0
    · rw [hx, stripZeros_zero_cons, List.length_cons, padFront_succ (length_stripZeros_le xs), ih]
    · have hhead : (x :: xs).head? ≠ some 0 := fun e => hx (Option.some.inj e)
      rw [stripZeros_of_head?_ne hhead, padFront_length]

/-! ### The remainder: one pass at a time -/

section Remainder

variable {ds : Poly}

theorem polyMod_of_lt {s d : Poly} (h : s.length < d.length) : polyMod s d = s := by
  unfold polyMod
  cases hs : s.length with
  | zero => rfl
  | succ n => rw [polyModLoop_succ, if_neg (Nat.not_le_of_lt h)]

/-- Passes beyond the length of the source change nothing (41_poly.md R122, note a). -/
theorem polyModLoop_congr {m n : Nat} {r : Poly} (hm : r.length ≤ m) (hn : r.length ≤ n) :
    polyModLoop m (1 :: ds) r = polyModLoop n (1 :: ds) r := by
  induction m generalizing n r with
  | zero =>
    obtain rfl : r = [] := List.length_eq_zero_iff.mp (Nat.le_zero.mp hm)
    cases n <;> rfl
  | succ m ih =>
    cases n with
    | zero =>
      obtain rfl : r = [] := List.length_eq_zero_iff.mp (Nat.le_zero.mp hn)
      rfl
    | succ n =>
      rw [polyModLoop_succ, polyModLoop_succ]
      split
      · next h =>
        have hlt := length_polyModStep_lt (d := 1 :: ds) rfl h
        exact ih (by omega) (by omega)
      · rfl

theorem polyMod_of_le {s : Poly} (h : (1 :: ds : Poly).length ≤ s.length) :
    polyMod s (1 :: ds) = polyMod (polyModStep (1 :: ds) s) (1 :: ds) := by
  have hlt := length_polyModStep_lt (d := 1 :: ds) rfl h
  obtain ⟨n, hn⟩ := Nat.exists_eq_succ_of_ne_zero (Nat.ne_zero_of_lt hlt)
  rw [polyMod, hn, polyModLoop_succ, if_pos h]
  exact polyModLoop_congr (by omega) (Nat.le_refl _)

theorem polyModStep_cons (x : Byte) (xs : Poly) :
    polyModStep (1 :: ds) (x :: xs) = stripZeros (xorHead xs (ds.map (gfMul x))) := by
  have hx : x ^^^ gfMul 1 x = 0 := by rw [gfMul_comm, gfMul_one_right]; exact BitVec.xor_self
  have hscale : (fun c => gfMul c x) = gfMul x := funext fun c => gfMul_comm c x
  rw [polyModStep, List.headD_cons, hscale, List.map_cons, xorHead_cons, gfMul_comm x 1, hx, stripZeros_zero_cons]

theorem head?_polyModLoop {n : Nat} {d r : Poly} (h : r.head? ≠ some 0) : (polyModLoop n d r).head? ≠ some 0 := by
  induction n generalizing r with
  | zero => exact h
  | succ n ih =>
    rw [polyModLoop_succ]
    split
    · exact ih (head?_stripZeros _)
    · exact h

/-- A source that is reduced at all leaves no leading zero. -/
theorem head?_polyMod {s : Poly} (h : (1 :: ds : Poly).length ≤ s.length) :
    (polyMod s (1 :: ds)).head? ≠ some 0 := by
  rw [polyMod_of_le h]
  exact head?_polyModLoop (head?_stripZeros _)

theorem polyMod_stripZeros {s : Poly} (h : (1 :: ds : Poly).length ≤ s.length) :
    polyMod (stripZeros s) (1 :: ds) = polyMod s (1 :: ds) := by
  by_cases hs : s.head? = some 0
  · obtain ⟨xs, rfl⟩ := List.head?_eq_some_iff.mp hs
    have hlen : ds.length ≤ xs.length := Nat.le_of_succ_le_succ h
    rw [polyMod_of_le h, polyModStep_cons, zero_scale, xorHead_comm, zeros_xorHead hlen, stripZeros_zero_cons]
  · rw [stripZeros_of_head?_ne hs]

/-! ### The remainder: a recursion on the source

Written to the length of the source, the remainder of `x :: xs` is that of `xs` with the divisor's tail, scaled by `x`,
xored in; the zeros stripped on the way do not show. -/

/-- The remainder with zeros in front, to the length of the source. -/
def paddedRem (s d : Poly) : Poly := Ref.padFront s.length (polyMod s d)

theorem paddedRem_of_lt {s d : Poly} (h : s.length < d.length) : paddedRem s d = s := by
  rw [paddedRem, polyMod_of_lt h, padFront_length]

theorem length_paddedRem (s : Poly) : (paddedRem s (1 :: ds)).length = s.length :=
  length_padFront (length_polyMod_le rfl s)

theorem paddedRem_cons {xs : Poly} (x : Byte) (h : ds.length ≤ xs.length) :
    paddedRem (x :: xs) (1 :: ds) = 0 :: paddedRem (xorHead xs (ds.map (gfMul x))) (1 :: ds) := by
  have hfirst : polyMod (x :: xs) (1 :: ds) = polyMod (stripZeros (xorHead xs (ds.map (gfMul x)))) (1 :: ds) := by
    rw [polyMod_of_le (Nat.succ_le_succ h), polyModStep_cons]
  have hlen : (xorHead xs (ds.map (gfMul x))).length = xs.length := by
    rw [length_xorHead, List.length_map, Nat.max_eq_left h]
  generalize xorHead xs (ds.map (gfMul x)) = t at hfirst hlen ⊢
  obtain hlt | hle := Nat.lt_or_ge t.length (1 :: ds : Poly).length
  · have hstrip := length_stripZeros_le t
    rw [paddedRem_of_lt hlt, paddedRem, hfirst, polyMod_of_lt (Nat.lt_of_le_of_lt hstrip hlt), List.length_cons,
      ← hlen, padFront_succ hstrip, padFront_stripZeros]
  · rw [paddedRem, hfirst, polyMod_stripZeros hle, List.length_cons, ← hlen, padFront_succ (length_polyMod_le rfl t)]
    rfl

/-- The remainder is what `paddedRem` shows without its leading zeros. -/
theorem stripZeros_paddedRem {s : Poly} (h : (1 :: ds : Poly).length ≤ s.length) :
    stripZeros (paddedRem s (1 :: ds)) = polyMod s (1 :: ds) := by
  rw [paddedRem, Ref.padFront, stripZeros_zeros_append, stripZeros_of_head?_ne (head?_polyMod h)]

/-- A source is a multiple of the divisor, xored with its remainder. -/
theorem exists_quotient (s : Poly) :
    ∃ q : Poly, q.length = s.length - ds.length ∧
      xorHead (polyMul q (1 :: ds)) (paddedRem s (1 :: ds)) = s := by
  induction hn : s.length generalizing s with
  | zero =>
    obtain rfl := List.length_eq_zero_iff.mp hn
    exact ⟨[], by simp, rfl⟩
  | succ n ih =>
    obtain hlt | hle := Nat.lt_or_ge s.length (1 :: ds : Poly).length
    · refine ⟨[], ?_, ?_⟩
      · rw [List.length_cons] at hlt
        rw [List.length_nil]; omega
      · rw [paddedRem_of_lt hlt]; exact xorHead_nil_left s
    · obtain ⟨x, xs, rfl⟩ := List.exists_cons_of_length_eq_add_one hn
      have hds : ds.length ≤ xs.length := Nat.le_of_succ_le_succ hle
      have hxs : xs.length = n := Nat.succ_injective hn
      obtain ⟨q, hq, hs⟩ := ih (xorHead xs (ds.map (gfMul x)))
        (by rw [length_xorHead, List.length_map, Nat.max_eq_left hds, hxs])
      refine ⟨x :: q, by rw [List.length_cons]; omega, ?_⟩
      calc xorHead (polyMul (x :: q) (1 :: ds)) (paddedRem (x :: xs) (1 :: ds))
        _ = xorHead ((1 :: ds).map (gfMul x)) (0 :: xorHead xs (ds.map (gfMul x))) := by
          rw [paddedRem_cons x hds, polyMul_cons, xorHead_assoc, xorHead_cons 0 0, hs]; rfl
        _ = x :: xs := by
          rw [List.map_cons, gfMul_one_right, xorHead_cons, xorHead_comm, xorHead_cancel (by simpa using hds)]
          simp

theorem polyMul_cons_monic (x : Byte) (q : Poly) :
    polyMul (x :: q) (1 :: ds) = x :: xorHead (polyMul q (1 :: ds)) (ds.map (gfMul x)) := by
  rw [polyMul_cons, List.map_cons, gfMul_one_right, xorHead_cons, xorHead_comm (polyMul q _)]
  simp

theorem length_polyMul_monic {q : Poly} (hq : q ≠ []) : (polyMul q (1 :: ds)).length = q.length + ds.length := by
  rw [length_polyMul hq (List.cons_ne_nil _ _), List.length_cons]; rfl

/-- A multiple of the divisor leaves only zeros. -/
theorem paddedRem_polyMul (q : Poly) :
    paddedRem (polyMul q (1 :: ds)) (1 :: ds) = List.replicate (polyMul q (1 :: ds)).length 0 := by
  induction q with
  | nil => rfl
  | cons x q ih =>
    have hds : ds.length ≤ (xorHead (polyMul q (1 :: ds)) (ds.map (gfMul x))).length := by simp
    rw [polyMul_cons_monic, paddedRem_cons x hds, List.length_cons, List.replicate_succ]
    congr 1
    obtain rfl | hq := eq_or_ne q []
    · simp only [polyMul, xorHead_nil_left, xorHead_self, List.length_map]
      exact paddedRem_of_lt (by simp)
    · have hle : ds.length ≤ (polyMul q (1 :: ds)).length := by rw [length_polyMul_monic hq]; omega
      rw [xorHead_cancel (by simpa using hle), ih, length_xorHead, List.length_map, Nat.max_eq_left hle]

theorem polyMod_polyMul {q : Poly} (hq : q ≠ []) : polyMod (polyMul q (1 :: ds)) (1 :: ds) = [] := by
  have hpos := List.length_pos_iff.mpr hq
  have hle : (1 :: ds : Poly).length ≤ (polyMul q (1 :: ds)).length := by
    rw [length_polyMul_monic hq, List.length_cons]; omega
  rw [← stripZeros_paddedRem hle, paddedRem_polyMul, ← List.append_nil (List.replicate _ _),
    stripZeros_zeros_append]
  rfl

/-- Behind the data, in place of the zeros, the remainder makes a multiple of the divisor (41_poly.md R130 e). -/
theorem exists_append_padFront_eq_polyMul {s : Poly} (hs : s ≠ []) :
    ∃ q : Poly, q ≠ [] ∧
      s ++ Ref.padFront ds.length (polyMod (s ++ List.replicate ds.length 0) (1 :: ds)) = polyMul q (1 :: ds) := by
  have hlen : (s ++ List.replicate ds.length (0 : Byte)).length = s.length + ds.length := by simp
  have hshort : (polyMod (s ++ List.replicate ds.length 0) (1 :: ds)).length ≤ ds.length :=
    Nat.le_of_lt_succ (length_polyMod_lt (d := 1 :: ds) rfl _)
  obtain ⟨q, hq, heq⟩ := exists_quotient (ds := ds) (s ++ List.replicate ds.length 0)
  rw [hlen, Nat.add_sub_cancel] at hq
  have hne : q ≠ [] := fun h => hs (List.length_eq_zero_iff.mp (by rw [← hq, h]; rfl))
  rw [paddedRem, hlen, padFront_add s.length hshort] at heq
  generalize polyMod (s ++ List.replicate ds.length 0) (1 :: ds) = r at heq hshort ⊢
  refine ⟨q, hne, ?_⟩
  have hpad : (Ref.padFront ds.length r).length = ds.length := length_padFront hshort
  calc s ++ Ref.padFront ds.length r
    _ = xorHead (s ++ List.replicate ds.length 0) (List.replicate s.length 0 ++ Ref.padFront ds.length r) := by
      rw [xorHead_append _ _ (by simp), xorHead_comm s, zeros_xorHead (Nat.le_refl _), zeros_xorHead (by rw [hpad])]
    _ = polyMul q (1 :: ds) := by
      rw [← heq, xorHead_cancel]
      rw [length_polyMul_monic hne, hq]
      simp [hpad]

end Remainder

/-- A monic list is 1 and a tail. -/
theorem exists_eq_one_cons {d : Poly} (h : d[0]? = some 1) : ∃ ds, d = 1 :: ds :=
  List.head?_eq_some_iff.mp (List.head?_eq_getElem?.trans h)

/-! ### What the commands answer -/

section Commands

variable {s : State} {rd : SReg} {pd pa pb : PReg} {v : Byte}

theorem pushCoeff_full (h : (s.getPoly pd).length = 256) : pushCoeff pd v s = trap .len s := if_pos h

theorem pushCoeff_of_room (h : (s.getPoly pd).length ≠ 256) :
    pushCoeff pd v s = done (s.setPoly pd (s.getPoly pd ++ [v])) := if_neg h

theorem exec_ppush_of_gt {ra : SReg} (h : 255 < (s.getReg ra).toNat) : exec (.ppush pd ra) s = trap .range s := by
  rw [exec, execPpush, elementOf?_of_gt h]

theorem exec_ppush_of_le {ra : SReg} (h : (s.getReg ra).toNat ≤ 255) :
    exec (.ppush pd ra) s = pushCoeff pd ((s.getReg ra).setWidth 8) s := by
  rw [exec, execPpush, elementOf?_of_le h]

theorem exec_pget_of_le {rb : SReg} (h : (s.getPoly pa).length ≤ (s.getReg rb).toNat) :
    exec (.pget rd pa rb) s = trap .len s := by
  rw [exec, execPget, List.getElem?_eq_none h]

theorem exec_pget_of_lt {rb : SReg} (h : (s.getReg rb).toNat < (s.getPoly pa).length) :
    exec (.pget rd pa rb) s = done (s.setReg rd (wordOfByte ((s.getPoly pa).getD (s.getReg rb).toNat 0))) := by
  rw [exec, execPget, List.getElem?_eq_getElem h, List.getD_eq_getElem _ _ h]

theorem exec_pmul_of_nil (h : s.getPoly pa = [] ∨ s.getPoly pb = []) : exec (.pmul pd pa pb) s = trap .len s :=
  if_pos (h.imp List.length_eq_zero_iff.mpr List.length_eq_zero_iff.mpr)

theorem exec_pmul_of_ne_nil (ha : s.getPoly pa ≠ []) (hb : s.getPoly pb ≠ []) :
    exec (.pmul pd pa pb) s =
      if 256 < (s.getPoly pa).length + (s.getPoly pb).length - 1 then trap .len s
      else done (s.setPoly pd (polyMul (s.getPoly pa) (s.getPoly pb))) :=
  if_neg (not_or.mpr ⟨mt List.length_eq_zero_iff.mp ha, mt List.length_eq_zero_iff.mp hb⟩)

theorem exec_pmod_of_monic (h : (s.getPoly pb)[0]? = some 1) :
    exec (.pmod pd pa pb) s = done (s.setPoly pd (polyMod (s.getPoly pa) (s.getPoly pb))) :=
  if_pos (List.head?_eq_getElem?.trans h)

theorem exec_pmod_of_not_monic (h : (s.getPoly pb)[0]? ≠ some 1) : exec (.pmod pd pa pb) s = trap .divisor s :=
  if_neg fun hd => h (List.head?_eq_getElem?.symm.trans hd)

end Commands

/-! ### The obligations -/

/-- Settles O35: `getD_polyMul`, coefficient by coefficient. -/
theorem pmulWritesTheConvolution : Obligations.PmulWritesTheConvolution := by
  intro pd pa pb s
  refine ⟨exec_pmul_of_nil, fun hlong => ?_, fun ha hb hfits => ?_⟩
  · by_cases hnil : s.getPoly pa = [] ∨ s.getPoly pb = []
    · exact exec_pmul_of_nil hnil
    · obtain ⟨ha, hb⟩ := not_or.mp hnil
      exact (exec_pmul_of_ne_nil ha hb).trans (if_pos hlong)
  · exact ⟨_, length_polyMul ha hb, fun k _ => getD_polyMul _ _ k,
      (exec_pmul_of_ne_nil ha hb).trans (if_neg (Nat.not_lt_of_le hfits))⟩

/-- Settles O36: the quotient is that of `exists_quotient`. -/
theorem pmodWritesTheRemainder : Obligations.PmodWritesTheRemainder := by
  intro pd pa pb s
  refine ⟨exec_pmod_of_not_monic, fun hd => ?_⟩
  obtain ⟨ds, hds⟩ := exists_eq_one_cons hd
  have hexec := exec_pmod_of_monic (pd := pd) (pa := pa) hd
  rw [hds] at hexec ⊢
  obtain ⟨q, hq, hsum⟩ := exists_quotient (ds := ds) (s.getPoly pa)
  refine ⟨_, q, hexec, polyMod_of_lt, fun hle => ⟨length_polyMod_lt rfl _, ?_, ?_, ?_⟩⟩
  · rw [← List.head?_eq_getElem?]; exact head?_polyMod hle
  · rw [List.length_cons] at hle ⊢; omega
  · rw [List.length_cons] at hle
    have hne : q ≠ [] := List.length_pos_iff.mp (by omega)
    refine (addPoly_eq_xorHead ?_).trans hsum
    rw [length_polyMul_monic hne]
    exact .trans (by omega) (length_paddedRem _).symm

/-- Settles O37. -/
theorem polynomialProductLaws : Obligations.PolynomialProductLaws := fun a _ _ ha hb hc =>
  ⟨polyMul_comm ha hb, polyMul_assoc ha hb hc, length_polyMul ha hb, polyMul_one_right a⟩

/-- Settles O38: a multiple of the divisor leaves nothing, and the third clause is such a multiple. -/
theorem polynomialRemainderLaws : Obligations.PolynomialRemainderLaws := by
  intro d hd
  obtain ⟨ds, rfl⟩ := exists_eq_one_cons hd
  refine ⟨fun s hs => ⟨length_polyMod_lt rfl s, ?_⟩, fun q hq => polyMod_polyMul hq, fun s n hs hn => ?_⟩
  · rw [← List.head?_eq_getElem?]; exact head?_polyMod hs
  · obtain rfl : ds.length = n := Nat.succ_injective hn
    obtain ⟨q, hq, heq⟩ := exists_append_padFront_eq_polyMul (ds := ds) hs
    rw [heq, polyMod_polyMul hq]

/-- Settles O30. -/
theorem pclrEmptiesTheRegister : Obligations.PclrEmptiesTheRegister := fun _ _ => rfl

/-- Settles O31: the value is checked first, then the room. -/
theorem ppushAppendsTheCoefficient : Obligations.PpushAppendsTheCoefficient := fun _ ra s =>
  ⟨exec_ppush_of_gt, fun hv hfull => (exec_ppush_of_le hv).trans (pushCoeff_full hfull), fun hv hroom =>
    ⟨(s.getReg ra).setWidth 8, (toNat_setWidth_eight _).trans (Nat.mod_eq_of_lt (Nat.lt_succ_of_le hv)),
      (exec_ppush_of_le hv).trans (pushCoeff_of_room hroom)⟩⟩

/-- Settles O32. -/
theorem ppushiAppendsTheImmediate : Obligations.PpushiAppendsTheImmediate := fun _ _ _ =>
  ⟨pushCoeff_full, pushCoeff_of_room⟩

/-- Settles O33: a length of at most 256 is a word. -/
theorem plenReadsTheLength : Obligations.PlenReadsTheLength := fun _ pa s hs =>
  ⟨wordOfNat (s.getPoly pa).length, (BitVec.toNat_ofNat _ 32).trans (Nat.mod_eq_of_lt
    (Nat.lt_of_le_of_lt (hs pa) (by decide))), rfl⟩

/-- Settles O34. -/
theorem pgetReadsTheCoefficient : Obligations.PgetReadsTheCoefficient := fun _ _ _ _ =>
  ⟨exec_pget_of_le, fun h => ⟨_, BitVec.toNat_setWidth_of_le (by decide), exec_pget_of_lt h⟩⟩

end Sys2Proof.Machine

/-! PROOFS. The statements of 42_rs.md: the commands RSGEN, RSENC and RSGETG, and the laws of R156. Data and codewords are
read off the remainder at full length, `paddedRem_data`: it is linear and blind to leading zeros. A multiple of the
generator has each of its factors, and a multiple of a factor `[1, c]` vanishes at `c`. -/

namespace Sys2Proof.Machine

/-! ### The generator -/

theorem generatorProduct_eq_rsGen (n : Nat) : Ref.generatorProduct n = rsGen n := by
  induction n with
  | zero => rfl
  | succ n ih =>
    rw [rsGen, ← ih, Ref.generatorProduct, List.range_succ, List.foldl_append]
    rfl

theorem exists_rsGen_eq_one_cons (n : Nat) : ∃ ds : Poly, rsGen n = 1 :: ds ∧ ds.length = n := by
  obtain ⟨hlen, hhead⟩ := rsGen_shape n
  obtain ⟨ds, hds⟩ := List.head?_eq_some_iff.mp hhead
  exact ⟨ds, hds, Nat.succ_injective ((congrArg List.length hds).symm.trans hlen)⟩

theorem rsGen_ne_nil (n : Nat) : rsGen n ≠ [] := by
  obtain ⟨ds, hds, -⟩ := exists_rsGen_eq_one_cons n
  rw [hds]
  exact List.cons_ne_nil _ _

/-- Each factor of the generator can be moved behind the others. -/
theorem exists_rsGen_eq_polyMul {n i : Nat} (h : i < n) : ∃ p : Poly, p ≠ [] ∧ rsGen n = polyMul p [1, gfExp i] := by
  induction n with
  | zero => exact absurd h (Nat.not_lt_zero i)
  | succ n ih =>
    obtain rfl | hlt := Nat.eq_or_lt_of_le (Nat.le_of_lt_succ h)
    · exact ⟨rsGen i, rsGen_ne_nil i, rfl⟩
    · obtain ⟨p, hp, hgen⟩ := ih hlt
      have hpair : ∀ c : Byte, ([1, c] : Poly) ≠ [] := fun _ => List.cons_ne_nil _ _
      refine ⟨polyMul p [1, gfExp n], polyMul_ne_nil hp (hpair _), ?_⟩
      calc rsGen (n + 1)
        _ = polyMul (polyMul p [1, gfExp i]) [1, gfExp n] := by rw [rsGen, hgen]
        _ = polyMul p (polyMul [1, gfExp n] [1, gfExp i]) := by
          rw [polyMul_assoc hp (hpair _) (hpair _), polyMul_comm (hpair _) (hpair _)]
        _ = polyMul (polyMul p [1, gfExp n]) [1, gfExp i] := (polyMul_assoc hp (hpair _) (hpair _)).symm

/-! ### Values -/

theorem valueAt_cons (x : Byte) (p : Poly) (c : Byte) :
    Ref.valueAt (x :: p) c = p.foldl (fun acc b => gfMul acc c ^^^ b) x := by
  have hstart : gfMul 0 c ^^^ x = x := by rw [show gfMul 0 c = 0 from gfMul_zero_left c]; exact BitVec.zero_xor
  rw [Ref.valueAt, List.foldl_cons, hstart]

theorem valueAt_zero_cons (p : Poly) (c : Byte) : Ref.valueAt (0 :: p) c = Ref.valueAt p c := valueAt_cons 0 p c

theorem valueAt_cons_cons (x y : Byte) (p : Poly) (c : Byte) :
    Ref.valueAt (x :: y :: p) c = Ref.valueAt ((gfMul x c ^^^ y) :: p) c := by
  rw [valueAt_cons, valueAt_cons, List.foldl_cons]

/-- A multiple of the factor `[1, c]` vanishes at `c`: Horner's rule takes off again what the product put on. -/
theorem valueAt_polyMul_root (p : Poly) (c : Byte) : Ref.valueAt (polyMul p [1, c]) c = 0 := by
  induction p with
  | nil => rfl
  | cons x p ih =>
    cases p with
    | nil =>
      rw [polyMul_cons_monic, polyMul, xorHead_nil_left, List.map_singleton, valueAt_cons_cons, BitVec.xor_self]
      exact valueAt_zero_cons [] c
    | cons y p =>
      have hback : gfMul x c ^^^ (y ^^^ gfMul x c) = y := by
        rw [BitVec.xor_comm y, ← BitVec.xor_assoc, BitVec.xor_self, BitVec.zero_xor]
      rw [polyMul_cons_monic x, List.map_singleton, polyMul_cons_monic y, xorHead_cons, xorHead_nil_right,
        valueAt_cons_cons, hback, ← polyMul_cons_monic]
      exact ih

/-- Every multiple of the generator vanishes at its roots. -/
theorem valueAt_polyMul_rsGen {q : Poly} (hq : q ≠ []) {n i : Nat} (h : i < n) :
    Ref.valueAt (polyMul q (rsGen n)) (gfExp i) = 0 := by
  obtain ⟨p, hp, hgen⟩ := exists_rsGen_eq_polyMul h
  rw [hgen, ← polyMul_assoc hq hp (List.cons_ne_nil _ _)]
  exact valueAt_polyMul_root _ _

/-! ### The remainder at full length -/

section PaddedRemainder

variable {ds : Poly}

theorem paddedRem_zero_cons {s : Poly} (h : ds.length ≤ s.length) :
    paddedRem (0 :: s) (1 :: ds) = 0 :: paddedRem s (1 :: ds) := by
  rw [paddedRem_cons 0 h, zero_scale, xorHead_comm, zeros_xorHead h]

theorem paddedRem_xorHead {s t : Poly} (h : s.length = t.length) :
    paddedRem (xorHead s t) (1 :: ds) = xorHead (paddedRem s (1 :: ds)) (paddedRem t (1 :: ds)) := by
  induction hn : s.length generalizing s t with
  | zero =>
    obtain rfl := List.length_eq_zero_iff.mp hn
    obtain rfl := List.length_eq_zero_iff.mp h.symm
    rfl
  | succ n ih =>
    have hsum : (xorHead s t).length = s.length := by rw [length_xorHead, ← h, Nat.max_self]
    obtain hlt | hle := Nat.lt_or_ge s.length (1 :: ds : Poly).length
    · rw [paddedRem_of_lt (hsum.trans_lt hlt), paddedRem_of_lt hlt, paddedRem_of_lt (h.symm.trans_lt hlt)]
    · obtain ⟨x, xs, rfl⟩ := List.exists_cons_of_length_eq_add_one hn
      obtain ⟨y, ys, rfl⟩ := List.exists_cons_of_length_eq_add_one (h.symm.trans hn)
      obtain rfl : xs.length = n := Nat.succ_injective hn
      have hy : ys.length = xs.length := Nat.succ_injective h.symm
      have hds : ds.length ≤ xs.length := Nat.le_of_succ_le_succ hle
      have hxrest : (xorHead xs (ds.map (gfMul x))).length = xs.length := by simp [hds]
      have hyrest : (xorHead ys (ds.map (gfMul y))).length = xs.length := by simp [hds, hy]
      have hsplit : xorHead (xorHead xs ys) (ds.map (gfMul (x ^^^ y))) =
          xorHead (xorHead xs (ds.map (gfMul x))) (xorHead ys (ds.map (gfMul y))) := by
        rw [xor_scale]; simp only [xorHead_assoc, xorHead_left_comm]
      rw [xorHead_cons, paddedRem_cons _ (by simp [hds]), paddedRem_cons x hds, paddedRem_cons y (hy ▸ hds), hsplit,
        ih (hxrest.trans hyrest.symm) hxrest]
      rfl

end PaddedRemainder

/-! ### Encoding -/

theorem length_rsEncode (data : Poly) (n : Nat) : (rsEncode data n).length = n :=
  have ⟨hlen, hhead⟩ := rsGen_shape n
  length_rsEncodeBy hlen hhead data

theorem rsEncode_eq_padFront (data : Poly) (n : Nat) :
    rsEncode data n = Ref.padFront n (polyMod (data ++ List.replicate n 0) (rsGen n)) := rfl

/-- At full length the remainder of the padded data is the codewords behind zeros in place of the data. -/
theorem paddedRem_data (data : Poly) (n : Nat) :
    paddedRem (data ++ List.replicate n 0) (rsGen n) = List.replicate data.length 0 ++ rsEncode data n := by
  obtain ⟨hlen, hhead⟩ := rsGen_shape n
  have hshort := length_polyMod_lt hhead (data ++ List.replicate n 0)
  rw [paddedRem, List.length_append, List.length_replicate, padFront_add, rsEncode_eq_padFront]
  omega

theorem rsEncode_zero_cons (data : Poly) (n : Nat) : rsEncode (0 :: data) n = rsEncode data n := by
  obtain ⟨ds, hgen, hds⟩ := exists_rsGen_eq_one_cons n
  have hroom : ds.length ≤ (data ++ List.replicate n 0).length := by simp [hds]
  have hpadded := paddedRem_zero_cons hroom
  rw [← hgen, paddedRem_data, ← List.cons_append, paddedRem_data, List.length_cons, List.replicate_succ,
    List.cons_append, List.cons.injEq] at hpadded
  exact List.append_cancel_left hpadded.2

theorem rsEncode_addPoly {a b : Poly} (n : Nat) (h : a.length = b.length) :
    rsEncode (Ref.addPoly a b) n = Ref.addPoly (rsEncode a n) (rsEncode b n) := by
  obtain ⟨ds, hgen, -⟩ := exists_rsGen_eq_one_cons n
  have hzeros (k : Nat) : xorHead (List.replicate k 0) (List.replicate k 0) = List.replicate k 0 :=
    zeros_xorHead (by simp)
  have hpadded : paddedRem (xorHead (a ++ List.replicate n 0) (b ++ List.replicate n 0)) (rsGen n) =
      xorHead (paddedRem (a ++ List.replicate n 0) (rsGen n)) (paddedRem (b ++ List.replicate n 0) (rsGen n)) := by
    rw [hgen]; exact paddedRem_xorHead (by simp [h])
  rw [xorHead_append _ _ h, hzeros, paddedRem_data, paddedRem_data, paddedRem_data, ← h,
    xorHead_append _ _ rfl, hzeros, length_xorHead, ← h, Nat.max_self] at hpadded
  rw [addPoly_eq_xorHead h, addPoly_eq_xorHead (by rw [length_rsEncode, length_rsEncode])]
  exact List.append_cancel_left hpadded

theorem addPoly_self (a : Poly) : Ref.addPoly a a = List.replicate a.length 0 :=
  (addPoly_eq_xorHead rfl).trans (xorHead_self a)

/-- Zeros are the sum of any data with itself. -/
theorem rsEncode_zeros (k n : Nat) : rsEncode (List.replicate k 0) n = List.replicate n 0 := by
  have hself := rsEncode_addPoly n (rfl : (List.replicate k (0 : Byte)).length = _)
  rwa [addPoly_self, addPoly_self, List.length_replicate, length_rsEncode] at hself

theorem exists_append_rsEncode_eq_polyMul {data : Poly} (n : Nat) (h : data ≠ []) :
    ∃ q : Poly, q ≠ [] ∧ data ++ rsEncode data n = polyMul q (rsGen n) := by
  obtain ⟨ds, hgen, rfl⟩ := exists_rsGen_eq_one_cons n
  rw [rsEncode_eq_padFront, hgen]
  exact exists_append_padFront_eq_polyMul h

/-! ### What the commands answer -/

section Commands

variable {s : State} {pd pa : PReg}

theorem needGen_of_valid {k : Result} (h : s.gvalid = true) : needGen s k = k := if_pos h

theorem needGen_of_invalid {k : Result} (h : s.gvalid = false) : needGen s k = trap .noGen s :=
  if_neg (ne_true_of_eq_false h)

theorem exec_rsenc_of_gt (hv : s.gvalid = true) (h : 256 < (s.getPoly pa).length + s.gn.toNat) :
    exec (.rsenc pd pa) s = trap .len s :=
  (needGen_of_valid hv).trans (if_pos h)

theorem exec_rsenc_of_le (hg : s.GenOk) (hv : s.gvalid = true) (h : (s.getPoly pa).length + s.gn.toNat ≤ 256) :
    exec (.rsenc pd pa) s = done (s.setPoly pd (rsEncode (s.getPoly pa) s.gn.toNat)) := by
  have hgen : s.gen = rsGen s.gn.toNat := (if_pos hv).mp hg
  rw [rsEncode, ← hgen]
  exact (needGen_of_valid hv).trans (if_neg (Nat.not_lt_of_le h))

end Commands

/-! ### The obligations -/

/-- Settles O40: data behind one more leading zero have the same codewords and are not empty, so data and codewords are a
multiple of the generator. -/
theorem generatorAndCodewordVanishAtTheRoots : Obligations.GeneratorAndCodewordVanishAtTheRoots := by
  intro n i data _ hi
  constructor
  · obtain ⟨p, -, hgen⟩ := exists_rsGen_eq_polyMul hi
    rw [hgen]
    exact valueAt_polyMul_root _ _
  · obtain ⟨q, hq, hmul⟩ := exists_append_rsEncode_eq_polyMul n (List.cons_ne_nil 0 data)
    rw [← rsEncode_zero_cons, ← valueAt_zero_cons, ← List.cons_append, hmul]
    exact valueAt_polyMul_rsGen hq hi

/-- Settles O42: a multiple of the generator leaves no remainder. -/
theorem reedSolomonRoundTrip : Obligations.ReedSolomonRoundTrip := by
  intro data n hdata _
  obtain ⟨q, hq, hmul⟩ := exists_append_rsEncode_eq_polyMul n hdata
  obtain ⟨ds, hgen, -⟩ := exists_rsGen_eq_one_cons n
  rw [hmul, hgen]
  exact polyMod_polyMul hq

/-- Settles O43: one lemma per law. -/
theorem reedSolomonEncodingLaws : Obligations.ReedSolomonEncodingLaws := fun a _ n _ =>
  ⟨length_rsEncode a n, rsEncode_addPoly n, rsEncode_zeros a.length n, rsEncode_zero_cons a n⟩

/-- Settles O39: the recursion of `rsGen` and the fold of R151 build the same product. -/
theorem rsgenBuildsTheGenerator : Obligations.RsgenBuildsTheGenerator := by
  intro n s
  obtain ⟨hlen, hhead⟩ := rsGen_shape n.toNat
  exact ⟨rsGen n.toNat, (generatorProduct_eq_rsGen _).symm, hlen, List.head?_eq_getElem?.symm.trans hhead, rfl⟩

/-- Settles O41: the generator is checked first, then the room. -/
theorem rsencWritesTheCodewords : Obligations.RsencWritesTheCodewords := fun _ pa s =>
  ⟨needGen_of_invalid, exec_rsenc_of_gt, fun hg hv hroom =>
    ⟨_, rfl, length_rsEncode (s.getPoly pa) _, exec_rsenc_of_le hg hv hroom⟩⟩

/-- Settles O44: the copy follows the check of `GVALID`. -/
theorem rsgetgCopiesTheGenerator : Obligations.RsgetgCopiesTheGenerator := fun _ _ =>
  ⟨needGen_of_invalid, needGen_of_valid⟩

end Sys2Proof.Machine

/-! PROOFS. The statements of 43_matrix.md: the commands MNEW to MTOT, the count of dark cells by places, and R182. What a
command can do to one cell is said once, `CellChange`; R182 reads it off. -/

namespace Sys2Proof.Machine

/-! ### What the commands answer -/

section Commands

variable {s : State} {ra rb : SReg}

theorem needMat_of_valid {k : Result} (h : s.mvalid = true) : needMat s k = k := if_pos h

theorem needMat_of_invalid {k : Result} (h : s.mvalid = false) : needMat s k = trap .noMat s :=
  if_neg (ne_true_of_eq_false h)

theorem inBounds_iff (r c : Word) : s.inBounds r c = true ↔ r.toNat < s.msize.toNat ∧ c.toNat < s.msize.toNat := by
  simp [State.inBounds]

theorem needCell_of_invalid {k : Nat → Nat → Result} (h : s.mvalid = false) : needCell s ra rb k = trap .noMat s :=
  needMat_of_invalid h

theorem needCell_of_oob {k : Nat → Nat → Result} (hm : s.mvalid = true)
    (h : s.msize.toNat ≤ (s.getReg ra).toNat ∨ s.msize.toNat ≤ (s.getReg rb).toNat) :
    needCell s ra rb k = trap .oob s :=
  (needMat_of_valid hm).trans (if_neg fun hb => by have := (inBounds_iff _ _).mp hb; omega)

theorem needCell_of_lt {k : Nat → Nat → Result} (hm : s.mvalid = true) (hr : (s.getReg ra).toNat < s.msize.toNat)
    (hc : (s.getReg rb).toNat < s.msize.toNat) :
    needCell s ra rb k = k (s.getReg ra).toNat (s.getReg rb).toNat :=
  (needMat_of_valid hm).trans (if_pos ((inBounds_iff _ _).mpr ⟨hr, hc⟩))

theorem exec_mget (rd : SReg) :
    exec (.mget rd ra rb) s = needCell s ra rb fun r c => done (s.setReg rd (wordOfBool (cellGet s.grid r c))) := rfl

theorem exec_misr (rd : SReg) :
    exec (.misr rd ra rb) s = needCell s ra rb fun r c => done (s.setReg rd (wordOfBool (cellIsRsv s.grid r c))) := rfl

theorem exec_mset (v f : Bool) :
    exec (.mset ra rb v f) s = needCell s ra rb fun r c => done (s.setGrid (cellSet s.grid r c v f)) := rfl

theorem exec_mxor (v : Bool) :
    exec (.mxor ra rb v) s = needCell s ra rb fun r c => done (s.setGrid (cellXor s.grid r c v)) := rfl

theorem exec_mrsv (v : Bool) :
    exec (.mrsv ra rb v) s = needCell s ra rb fun r c => done (s.setGrid (cellMark s.grid r c v)) := rfl

theorem exec_mnew_of_version_outside {v : Byte} (h : v.toNat < 1 ∨ 40 < v.toNat) : exec (.mnew v) s = trap .range s :=
  if_pos h

theorem exec_mnew_of_version_inside {v : Byte} (h1 : 1 ≤ v.toNat) (h2 : v.toNat ≤ 40) :
    exec (.mnew v) s = done (s.setMatrix (sizeOfVersion v.toNat)) :=
  if_neg fun h => h.elim (Nat.not_lt_of_le h1) (Nat.not_lt_of_le h2)

theorem wf_of_gridOk (hg : s.GridOk) (hm : s.mvalid = true) : Memory.wf true s.msize s.grid = true := by
  rw [State.GridOk, hm] at hg
  exact hg

/-- The cell a command names, where it passes its checks, is changed by the command's function. -/
theorem cell_modifyCell_of_gridOk (hg : s.GridOk) (hm : s.mvalid = true) {r c : Nat} (hr : r < s.msize.toNat)
    (hc : c < s.msize.toNat) (f : GridCell → GridCell) : (s.grid.modifyCell r c f).cell r c = f (s.grid.cell r c) :=
  cell_modifyCell_same ((wf_true_iff _ _).mp (wf_of_gridOk hg hm)) hr hc f

end Commands

/-! ### The dark cells counted by places -/

theorem rowDark_eq_sum (row : List GridCell) :
    rowDark row = ∑ c ∈ Finset.range row.length, (row[c]?.getD { value := false, reserved := false }).value.toNat := by
  induction row with
  | nil => rfl
  | cons x xs ih => simp [rowDark, ih, Finset.sum_range_succ', Nat.add_comm]

theorem darkCount_eq_sum_rowDark (g : Grid) :
    darkCount g = ∑ r ∈ Finset.range g.length, rowDark (g[r]?.getD []) := by
  induction g with
  | nil => rfl
  | cons row rows ih => simp [darkCount, ih, Finset.sum_range_succ', Nat.add_comm]

/-- In a square grid the machine's recursive count is the sum over the places. -/
theorem darkCount_eq_sum {n : Nat} {g : Grid} (hg : g.Square n) :
    darkCount g = ∑ r ∈ Finset.range n, ∑ c ∈ Finset.range n, (cellGet g r c).toNat := by
  obtain ⟨hlen, hrows⟩ := hg
  rw [darkCount_eq_sum_rowDark, hlen]
  refine Finset.sum_congr rfl fun r hr => ?_
  have hr' : r < g.length := by rw [hlen]; exact Finset.mem_range.mp hr
  have hrow : (g[r]?.getD []).length = n := by
    rw [List.getElem?_eq_getElem hr']; exact hrows _ (List.getElem_mem hr')
  rw [rowDark_eq_sum, hrow]
  rfl

theorem card_darkCells (n : Nat) (g : Grid) :
    (Ref.darkCells n g).card = ∑ r ∈ Finset.range n, ∑ c ∈ Finset.range n, (cellGet g r c).toNat := by
  rw [Ref.darkCells, Finset.card_filter, Finset.sum_product]
  refine Finset.sum_congr rfl fun r _ => Finset.sum_congr rfl fun c _ => ?_
  cases cellGet g r c <;> rfl

theorem darkCount_eq_card {n : Nat} {g : Grid} (hg : g.Square n) : darkCount g = (Ref.darkCells n g).card :=
  (darkCount_eq_sum hg).trans (card_darkCells n g).symm

theorem card_darkCells_le (n : Nat) (g : Grid) : (Ref.darkCells n g).card ≤ n * n :=
  (Finset.card_filter_le _ _).trans_eq (by simp)

/-- No number up to the number of cells wraps around in a register (43_matrix.md R181). -/
theorem toNat_wordOfNat_of_le_cells {m : Byte} {k : Nat} (h : k ≤ m.toNat * m.toNat) : (wordOfNat k).toNat = k := by
  have : m.toNat * m.toNat ≤ 255 * 255 := Nat.mul_le_mul (by omega) (by omega)
  exact (BitVec.toNat_ofNat k 32).trans (Nat.mod_eq_of_lt (by omega))

/-! ### What a command does to one cell (43_matrix.md R182) -/

/-- A cell is left alone or changed by the function, also where it does not exist. -/
theorem cell_modifyCell_cases (g : Grid) (r c r' c' : Nat) (f : GridCell → GridCell) :
    (g.modifyCell r c f).cell r' c' = g.cell r' c' ∨ (g.modifyCell r c f).cell r' c' = f (g.cell r' c') := by
  by_cases h : r' = r ∧ c' = c
  · obtain ⟨rfl, rfl⟩ := h
    unfold Grid.cell Grid.modifyCell
    rw [List.getElem?_modify]
    cases g[r']? with
    | none => exact .inl (by simp)
    | some row => cases hx : row[c']? <;> simp [hx]
  · exact .inl (cell_modifyCell_ne g r c r' c' f h)

theorem cell_applyMask_cases (p : Nat) (g : Grid) (r c : Nat) :
    (applyMask p g).cell r c = g.cell r c ∨ (applyMask p g).cell r c = (g.cell r c).xor true := by
  unfold Grid.cell applyMask
  rw [getElem?_maskRows]
  cases g[r]? with
  | none => exact .inl rfl
  | some row =>
    simp only [Option.map_some, Option.getD_some, getElem?_maskRow]
    cases row[c]? with
    | none => exact .inl rfl
    | some x =>
      simp only [Option.map_some, Option.getD_some, maskCell]
      split
      · exact .inr rfl
      · exact .inl rfl

/-- The ways the command `i` can leave a cell that was `x`. -/
inductive CellChange (x : GridCell) : Instr → GridCell → Prop where
  | kept (i : Instr) : CellChange x i x
  | fresh (v : Byte) : CellChange x (.mnew v) { value := false, reserved := false }
  | set (ra rb : SReg) (v f : Bool) : CellChange x (.mset ra rb v f) (x.set v f)
  | xor (ra rb : SReg) (v : Bool) : CellChange x (.mxor ra rb v) (x.xor v)
  | mark (ra rb : SReg) (v : Bool) : CellChange x (.mrsv ra rb v) (x.mark v)
  | mask (p : Byte) : CellChange x (.mask p) (x.xor true)

namespace CellChange

variable {s t : State} {i : Instr}

theorem of_eq {x y : GridCell} (h : y = x) : CellChange x i y := h ▸ .kept i

theorem of_trap {k : Cause} (h : trap k s = .next t) (r c : Nat) :
    CellChange (s.grid.cell r c) i (t.grid.cell r c) := by
  cases h
  exact .kept i

/-- A command whose written-by list holds neither plane leaves every cell as it was. -/
theorem of_writesOnly (h : WritesOnly (writesOf i) s t) (hv : (writesOf i).values = false)
    (hr : (writesOf i).reserved = false) (r c : Nat) : CellChange (s.grid.cell r c) i (t.grid.cell r c) :=
  of_eq ((GridCell.mk.injEq ..).mpr ⟨h.values hv r c, h.reserved hr r c⟩)

/-- A command that changes the cell it names by `f` leaves every cell as it was or changes it by `f`. -/
theorem of_needCell {ra rb : SReg} {f : GridCell → GridCell} (hf : ∀ x, CellChange x i (f x))
    (h : needCell s ra rb (fun r c => done (s.setGrid (s.grid.modifyCell r c f))) = .next t) (r c : Nat) :
    CellChange (s.grid.cell r c) i (t.grid.cell r c) := by
  rcases needCell_cases h with ⟨_, _, _, h⟩ | ⟨_, h⟩
  · cases h
    rcases cell_modifyCell_cases s.grid (s.getReg ra).toNat (s.getReg rb).toNat r c f with e | e
    · exact of_eq e
    · exact e ▸ hf _
  · exact of_trap h r c

end CellChange

theorem exec_cellChange {i : Instr} {s t : State} (h : exec i s = .next t) (r c : Nat) :
    CellChange (s.grid.cell r c) i (t.grid.cell r c) := by
  cases i with
  | mnew v =>
    simp only [exec, execMnew] at h
    split at h
    · exact .of_trap h r c
    · cases h
      exact cell_freshGrid _ r c ▸ .fresh v
  | mset ra rb v f => exact .of_needCell (fun _ => .set ra rb v f) h r c
  | mxor ra rb v => exact .of_needCell (fun _ => .xor ra rb v) h r c
  | mrsv ra rb v => exact .of_needCell (fun _ => .mark ra rb v) h r c
  | mask p =>
    rcases needMat_cases h with ⟨_, h⟩ | ⟨_, h⟩
    · cases h
      rcases cell_applyMask_cases p.toNat s.grid r c with e | e
      · exact .of_eq e
      · exact e ▸ .mask p
    · exact .of_trap h r c
  | _ => exact .of_writesOnly (exec_writesOnly h) rfl rfl r c

namespace CellChange

variable {x y : GridCell} {i : Instr}

/-- The value of a reserved cell outlives every command but MNEW. -/
theorem value_eq (h : CellChange x i y) (hx : x.reserved = true) (hi : ∀ v, i ≠ .mnew v) : y.value = x.value := by
  cases h with
  | kept => rfl
  | fresh v => exact absurd rfl (hi v)
  | set | xor | mask => exact if_pos hx
  | mark => rfl

/-- Only MSET with f = 1 and MRSV with v = 1 reserve a cell. -/
theorem reserves (h : CellChange x i y) (hx : x.reserved = false) (hy : y.reserved = true) :
    (∃ ra rb v, i = .mset ra rb v true) ∨ (∃ ra rb, i = .mrsv ra rb true) := by
  cases h with
  | kept | xor | mask => exact absurd (hx.symm.trans hy) Bool.noConfusion
  | fresh => exact absurd hy Bool.noConfusion
  | set ra rb v f =>
    obtain rfl : f = true := by simpa [GridCell.set, hx] using hy
    exact .inl ⟨ra, rb, v, rfl⟩
  | mark ra rb v =>
    obtain rfl : v = true := hy
    exact .inr ⟨ra, rb, rfl⟩

/-- Only MRSV with v = 0 and MNEW release a cell. -/
theorem releases (h : CellChange x i y) (hx : x.reserved = true) (hy : y.reserved = false) :
    (∃ ra rb, i = .mrsv ra rb false) ∨ (∃ v, i = .mnew v) := by
  cases h with
  | kept | xor | mask => exact absurd (hx.symm.trans hy) Bool.noConfusion
  | fresh v => exact .inr ⟨v, rfl⟩
  | set ra rb v f => exact absurd hy (by simp [GridCell.set, hx])
  | mark ra rb v =>
    obtain rfl : v = false := hy
    exact .inl ⟨ra, rb, rfl⟩

end CellChange

/-! ### The obligations -/

/-- Settles O23: R182 (b) and (c) of each way a command can leave a cell. -/
theorem reservationFreezesCells : Obligations.ReservationFreezesCells := fun _ _ _ r c h =>
  ⟨(exec_cellChange h r c).value_eq, (exec_cellChange h r c).reserves, (exec_cellChange h r c).releases⟩

/-- Settles O45: the side of a version up to 40 fits a byte, and the fresh grid has that side. -/
theorem mnewCreatesALightMatrix : Obligations.MnewCreatesALightMatrix := by
  intro v s
  refine ⟨exec_mnew_of_version_outside, fun h1 h2 => ?_⟩
  obtain ⟨hlen, hrows⟩ := (wf_true_iff _ _).mp (wf_freshGrid h2)
  refine ⟨_, _, ?_, hlen, hrows, fun r c => ?_, exec_mnew_of_version_inside h1 h2⟩
  · exact (BitVec.toNat_ofNat _ 8).trans (Nat.mod_eq_of_lt (sizeOfVersion_lt h2))
  · have hlight := cell_freshGrid (sizeOfVersion v.toNat) r c
    exact ⟨congrArg (·.value) hlight, congrArg (·.reserved) hlight⟩

/-- Settles O47: `GridCell.set` on the named cell, every other cell left alone. -/
theorem msetWritesTheCell : Obligations.MsetWritesTheCell := by
  intro ra rb v f s hg
  rw [exec_mset]
  refine ⟨needCell_of_invalid, needCell_of_oob, fun hm hr hc =>
    ⟨_, needCell_of_lt hm hr hc, wf_cellSet _ _ _ _ _ v f (wf_of_gridOk hg hm), fun r c hne => ?_, ?_⟩⟩
  · have hother := cell_modifyCell_ne s.grid _ _ r c (·.set v f) hne
    exact ⟨congrArg (·.value) hother, congrArg (·.reserved) hother⟩
  · rintro _ _ rfl rfl
    have hnamed := cell_modifyCell_of_gridOk hg hm hr hc (·.set v f)
    exact ⟨congrArg (·.value) hnamed, congrArg (·.reserved) hnamed⟩

/-- Settles O48: `GridCell.xor` on the named cell, the values of the others and the reserved plane left alone. -/
theorem mxorFlipsTheCell : Obligations.MxorFlipsTheCell := by
  intro ra rb v s hg
  rw [exec_mxor]
  refine ⟨needCell_of_invalid, needCell_of_oob, fun hm hr hc =>
    ⟨_, needCell_of_lt hm hr hc, wf_cellXor _ _ _ _ _ v (wf_of_gridOk hg hm),
      fun _ _ => cellIsRsv_cellXor .., fun r c hne => ?_, ?_⟩⟩
  · exact congrArg (·.value) (cell_modifyCell_ne s.grid _ _ r c (·.xor v) hne)
  · rintro _ _ rfl rfl
    exact congrArg (·.value) (cell_modifyCell_of_gridOk hg hm hr hc (·.xor v))

/-- Settles O49: `GridCell.mark` on the named cell, the reserved bits of the others and the value plane left alone. -/
theorem mrsvAssignsTheReservedBit : Obligations.MrsvAssignsTheReservedBit := by
  intro ra rb v s hg
  rw [exec_mrsv]
  refine ⟨needCell_of_invalid, needCell_of_oob, fun hm hr hc =>
    ⟨_, needCell_of_lt hm hr hc, wf_cellMark _ _ _ _ _ v (wf_of_gridOk hg hm),
      fun _ _ => cellGet_cellMark .., fun r c hne => ?_, ?_⟩⟩
  · exact congrArg (·.reserved) (cell_modifyCell_ne s.grid _ _ r c (·.mark v) hne)
  · rintro _ _ rfl rfl
    exact congrArg (·.reserved) (cell_modifyCell_of_gridOk hg hm hr hc (·.mark v))

/-- Settles O50: the machine's count is the count by places, and neither number exceeds the number of cells. -/
theorem mdarkAndMtotCountCells : Obligations.MdarkAndMtotCountCells := by
  intro rd s hg
  refine ⟨fun hm => ⟨needMat_of_invalid hm, needMat_of_invalid hm⟩, fun hm =>
    ⟨_, _, ?_, toNat_wordOfNat_of_le_cells le_rfl, needMat_of_valid hm, needMat_of_valid hm⟩⟩
  rw [darkCount_eq_card ((wf_true_iff _ _).mp (wf_of_gridOk hg hm))]
  exact toNat_wordOfNat_of_le_cells (card_darkCells_le _ _)

/-- Settles O46: the checks of R171 in their order, then the read. -/
theorem mgetAndMisrReadTheCell : Obligations.MgetAndMisrReadTheCell := by
  intro rd ra rb s
  rw [exec_mget, exec_misr]
  exact ⟨fun hm => ⟨needCell_of_invalid hm, needCell_of_invalid hm⟩,
    fun hm hout => ⟨needCell_of_oob hm hout, needCell_of_oob hm hout⟩,
    fun hm hr hc => ⟨needCell_of_lt hm hr hc, needCell_of_lt hm hr hc⟩⟩

end Sys2Proof.Machine

/-! PROOFS. The statements of 44_mask.md: MASK, the four penalty rules with their sum, and the best-mask search. A line
is the list of the cells at its places, `lineList`; each rule's recursion over the list is then a sum over places, by
induction on the length. -/

namespace Sys2Proof.Machine

/-! ### The masks (44_mask.md R201 to R203) -/

theorem maskFn_iff {p : Nat} (hp : p < 8) (i j : Nat) : maskFn p i j = true ↔ Ref.MaskBit p i j := by
  interval_cases p <;> simp [maskFn, Ref.MaskBit]

theorem value_maskCell (p r c : Nat) (x : GridCell) :
    (maskCell p r c x).value = if x.reserved = false ∧ maskFn p r c = true then !x.value else x.value := by
  obtain ⟨v, b⟩ := x
  cases b <;> simp [maskCell, GridCell.xor, apply_ite GridCell.value]

theorem cellGet_applyMask {n p : Nat} {g : Grid} (hg : g.Square n) (hp : p < 8) {r c : Nat} (hr : r < n) (hc : c < n) :
    cellGet (applyMask p g) r c =
      if cellIsRsv g r c = false ∧ Ref.MaskBit p r c then !cellGet g r c else cellGet g r c := by
  rw [cellGet, cell_applyMask hg p hr hc, value_maskCell]
  simp only [maskFn_iff hp]
  rfl

theorem maskCell_comm (p q r c : Nat) (x : GridCell) :
    maskCell p r c (maskCell q r c x) = maskCell q r c (maskCell p r c x) := by
  unfold maskCell
  split <;> split <;> rfl

theorem maskRow_comm (p q r c : Nat) (xs : List GridCell) :
    maskRow p r c (maskRow q r c xs) = maskRow q r c (maskRow p r c xs) := by
  induction xs generalizing c with
  | nil => rfl
  | cons x xs ih => simp only [maskRow, ih, maskCell_comm p q]

theorem maskRows_comm (p q r : Nat) (g : Grid) : maskRows p r (maskRows q r g) = maskRows q r (maskRows p r g) := by
  induction g generalizing r with
  | nil => rfl
  | cons row rows ih => simp only [maskRows, ih, maskRow_comm p q]

theorem applyMask_comm (p q : Nat) (g : Grid) : applyMask p (applyMask q g) = applyMask q (applyMask p g) :=
  maskRows_comm p q 0 g

/-- What MASK does to the matrix, whether or not there is one. -/
theorem exec_mask_grid {p : Byte} {s t : State} (h : exec (.mask p) s = .next t) :
    t.mvalid = s.mvalid ∧ t.grid = if s.mvalid = true then applyMask p.toNat s.grid else s.grid := by
  rcases needMat_cases h with ⟨hm, h⟩ | ⟨hm, h⟩
  · cases h
    exact ⟨rfl, (if_pos hm).symm⟩
  · cases h
    exact ⟨rfl, (if_neg (ne_true_of_eq_false hm)).symm⟩

/-- What two MASK commands in a row do to the matrix. -/
theorem exec_mask_mask_grid {p q : Byte} {s t u : State} (ht : exec (.mask p) s = .next t)
    (hu : exec (.mask q) t = .next u) :
    u.grid = if s.mvalid = true then applyMask q.toNat (applyMask p.toNat s.grid) else s.grid := by
  obtain ⟨htm, htg⟩ := exec_mask_grid ht
  obtain ⟨_, hug⟩ := exec_mask_grid hu
  rw [hug, htm, htg]
  split <;> rfl

/-! ### Lines, by their places (44_mask.md R204) -/

/-- The first `n` cells of a line given by its places, as the list the machine scans. -/
def lineList (n : Nat) (l : Nat → Bool) : List Bool := (List.range n).map l

@[simp] theorem length_lineList (n : Nat) (l : Nat → Bool) : (lineList n l).length = n := by simp [lineList]

@[simp] theorem lineList_zero (l : Nat → Bool) : lineList 0 l = [] := rfl

theorem lineList_succ (n : Nat) (l : Nat → Bool) : lineList (n + 1) l = l 0 :: lineList n (fun k => l (k + 1)) := by
  simp [lineList, List.range_succ_eq_map, Function.comp_def]

theorem valueRows_eq {n : Nat} {g : Grid} (hg : g.Square n) :
    valueRows g = (List.range n).map fun r => lineList n (Ref.lineCell g true r) := by
  obtain ⟨hlen, hrows⟩ := hg
  refine List.ext_getElem (by simp [valueRows, hlen]) fun r hr _ => ?_
  have hr' : r < g.length := by simpa [valueRows] using hr
  have hrow : g[r].length = n := hrows _ (List.getElem_mem hr')
  refine List.ext_getElem (by simp [valueRows, hrow]) fun c hc _ => ?_
  have hc' : c < g[r].length := by simpa [valueRows] using hc
  simp [valueRows, lineList, Ref.lineCell, cellGet, Grid.cell, hr', hc']

theorem columnsOf_eq (n : Nat) (rows : List (List Bool)) :
    columnsOf n rows = (List.range n).map fun c => rows.map fun row => row[c]?.getD false := by
  induction n generalizing rows with
  | zero => rfl
  | succ n ih =>
    simp [columnsOf, ih, List.range_succ_eq_map, Function.comp_def, List.headD_eq_head?_getD, List.head?_eq_getElem?]

theorem linesOf_eq {n : Nat} {g : Grid} (hg : g.Square n) :
    linesOf n g = (List.range n).map (fun r => lineList n (Ref.lineCell g true r)) ++
      (List.range n).map (fun c => lineList n (Ref.lineCell g false c)) := by
  rw [linesOf, columnsOf_eq, valueRows_eq hg]
  congr 1
  refine List.map_congr_left fun c hc => ?_
  have hc' : c < n := List.mem_range.mp hc
  simp [lineList, Function.comp_def, Ref.lineCell, hc']

theorem sum_linesOf {n : Nat} {g : Grid} (hg : g.Square n) (score : List Bool → Nat) :
    ((linesOf n g).map score).sum = Ref.overLines n g fun l => score (lineList n l) := by
  rw [linesOf_eq hg, List.map_append, List.sum_append, List.map_map, List.map_map]
  rfl

theorem overLines_le {n c : Nat} {g : Grid} {score : (Nat → Bool) → Nat} (h : ∀ l, score l ≤ c * n) :
    Ref.overLines n g score ≤ 2 * c * (n * n) := by
  have hsum (isRow : Bool) : ∑ k ∈ Finset.range n, score (Ref.lineCell g isRow k) ≤ n * (c * n) :=
    (Finset.sum_le_card_nsmul _ _ _ fun _ _ => h _).trans_eq (by simp)
  calc Ref.overLines n g score ≤ n * (c * n) + n * (c * n) := Nat.add_le_add (hsum true) (hsum false)
    _ = 2 * c * (n * n) := by ring

/-! ### N1: the runs (44_mask.md R205) -/

/-- What the maximal run at the start of a line adds, counted with `m` cells in front of the line's own. -/
def firstRunScore (m : Nat) (l : Nat → Bool) (n : Nat) : Nat :=
  ∑ e ∈ Finset.range n, if Ref.MaximalRun l n 0 e then runScore (e + 1 + m) else 0

/-- What the maximal runs that start after cell 0 add. -/
def laterRunsScore (l : Nat → Bool) (n : Nat) : Nat :=
  ∑ k ∈ Finset.range n, ∑ e ∈ Finset.range n,
    if Ref.MaximalRun l (n + 1) (k + 1) (e + 1) then runScore (e - k + 1) else 0

theorem runScore_eq (len : Nat) : runScore len = if 5 ≤ len then len - 2 else 0 := by
  unfold runScore
  split <;> omega

section Runs

variable (l : Nat → Bool) (n k e : Nat)

theorem maximalRun_zero_zero : Ref.MaximalRun l (n + 1) 0 0 ↔ n = 0 ∨ l 1 ≠ l 0 := by
  simp +contextual [Ref.MaximalRun]

theorem not_maximalRun_succ_zero : ¬ Ref.MaximalRun l n (k + 1) 0 := by
  simp [Ref.MaximalRun]

theorem maximalRun_zero_succ :
    Ref.MaximalRun l (n + 1) 0 (e + 1) ↔ l 0 = l 1 ∧ Ref.MaximalRun (fun j => l (j + 1)) n 0 e := by
  constructor
  · rintro ⟨-, he, hrun, -, hend⟩
    have h01 : l 1 = l 0 := hrun 1 (by omega) (by omega) (by omega)
    refine ⟨h01.symm, by omega, by omega, fun j hj _ hje => ?_, .inl rfl,
      hend.imp (by omega) fun h => h.trans_eq h01.symm⟩
    exact (hrun (j + 1) (by omega) (by omega) (by omega)).trans h01.symm
  · rintro ⟨h01, -, he, hrun, -, hend⟩
    refine ⟨by omega, by omega, fun j hj _ hje => ?_, .inl rfl,
      hend.imp (by omega) fun h => h.trans_eq h01.symm⟩
    cases j with
    | zero => rfl
    | succ j => exact (hrun j (by omega) (by omega) (by omega)).trans h01.symm

theorem maximalRun_succ_succ :
    Ref.MaximalRun l (n + 1) (k + 1) (e + 1) ↔
      (k = 0 → l 0 ≠ l 1) ∧ Ref.MaximalRun (fun j => l (j + 1)) n k e := by
  have hstart : (k + 1 = 0 ∨ l k ≠ l (k + 1)) ↔ (k = 0 → l 0 ≠ l 1) ∧ (k = 0 ∨ l (k - 1 + 1) ≠ l (k + 1)) := by
    cases k <;> simp
  have hrun : (∀ j < n + 1, k + 1 ≤ j → j ≤ e + 1 → l j = l (k + 1)) ↔
      ∀ j < n, k ≤ j → j ≤ e → l (j + 1) = l (k + 1) := by
    constructor
    · exact fun h j hj hk he => h (j + 1) (by omega) (by omega) (by omega)
    · intro h j hj hk he
      obtain ⟨j, rfl⟩ : ∃ i, j = i + 1 := ⟨j - 1, by omega⟩
      exact h j (by omega) (by omega) (by omega)
  simp only [Ref.MaximalRun, Nat.add_sub_cancel, hstart, hrun, Nat.add_le_add_iff_right, Nat.add_lt_add_iff_right,
    Nat.add_right_cancel_iff]
  tauto

end Runs

theorem lineRuns_eq (l : Nat → Bool) (n : Nat) :
    Ref.lineRuns l n = ∑ k ∈ Finset.range n, ∑ e ∈ Finset.range n,
      if Ref.MaximalRun l n k e then runScore (e - k + 1) else 0 := by
  refine Finset.sum_congr rfl fun k _ => Finset.sum_congr rfl fun e _ => ?_
  rw [runScore_eq, ite_and]

theorem lineRuns_succ (l : Nat → Bool) (n : Nat) :
    Ref.lineRuns l (n + 1) = firstRunScore 0 l (n + 1) + laterRunsScore l n := by
  rw [lineRuns_eq, Finset.sum_range_succ', Nat.add_comm]
  simp only [firstRunScore, laterRunsScore, Finset.sum_range_succ' _ n, if_neg (not_maximalRun_succ_zero _ _ _),
    Nat.add_sub_add_right, Nat.sub_zero, Nat.add_zero]

/-- A line whose first two cells differ starts with a run of one cell. -/
theorem firstRunScore_of_ne {l : Nat → Bool} (m n : Nat) (h : l 1 ≠ l 0) :
    firstRunScore m l (n + 2) = runScore (1 + m) := by
  rw [firstRunScore, Finset.sum_range_succ']
  simp [maximalRun_zero_zero, maximalRun_zero_succ, h, h.symm]

/-- A line whose first two cells are equal starts with the first run of its tail and one cell more. -/
theorem firstRunScore_of_eq {l : Nat → Bool} (m n : Nat) (h : l 1 = l 0) :
    firstRunScore m l (n + 2) = firstRunScore (m + 1) (fun j => l (j + 1)) (n + 1) := by
  rw [firstRunScore, Finset.sum_range_succ']
  simp [maximalRun_zero_zero, maximalRun_zero_succ, h, firstRunScore, Nat.add_assoc, Nat.add_comm]

theorem laterRunsScore_of_ne {l : Nat → Bool} (n : Nat) (h : l 1 ≠ l 0) :
    laterRunsScore l (n + 1) = Ref.lineRuns (fun j => l (j + 1)) (n + 1) := by
  rw [lineRuns_eq, laterRunsScore]
  simp [maximalRun_succ_succ l (n + 1), h.symm]

theorem laterRunsScore_of_eq {l : Nat → Bool} (n : Nat) (h : l 1 = l 0) :
    laterRunsScore l (n + 1) = laterRunsScore (fun j => l (j + 1)) n := by
  rw [laterRunsScore, Finset.sum_range_succ', laterRunsScore]
  simp only [maximalRun_succ_succ l (n + 1), h]
  simp [Finset.sum_range_succ' _ n, not_maximalRun_succ_zero]

/-- The machine's scan, of which `m + 1` cells of the first run have been read. -/
theorem sum_runsFrom (m n : Nat) (l : Nat → Bool) :
    ((runsFrom (l 0) (m + 1) (lineList n fun j => l (j + 1))).map runScore).sum =
      firstRunScore m l (n + 1) + laterRunsScore l n := by
  induction n generalizing m l with
  | zero => simp [runsFrom, firstRunScore, laterRunsScore, maximalRun_zero_zero, Nat.add_comm]
  | succ n ih =>
    rw [lineList_succ, runsFrom]
    by_cases h : l 1 = l 0
    · rw [if_pos (beq_iff_eq.mpr h), firstRunScore_of_eq m n h, laterRunsScore_of_eq n h, ← ih, Nat.zero_add, h]
    · rw [if_neg (by simpa using h), firstRunScore_of_ne m n h, laterRunsScore_of_ne n h, lineRuns_succ, ← ih,
        List.map_cons, List.sum_cons, Nat.add_comm m]

theorem lineN1_lineList (n : Nat) (l : Nat → Bool) : lineN1 (lineList n l) = Ref.lineRuns l n := by
  cases n with
  | zero => rfl
  | succ n => rw [lineList_succ, lineRuns_succ, ← sum_runsFrom]; rfl

theorem sum_runsFrom_le (b : Bool) (m : Nat) (xs : List Bool) :
    ((runsFrom b m xs).map runScore).sum ≤ m + xs.length := by
  have hscore (k : Nat) : runScore k ≤ k := by rw [runScore_eq]; split <;> omega
  induction xs generalizing b m with
  | nil => simpa [runsFrom] using hscore m
  | cons x xs ih =>
    rw [runsFrom, List.length_cons]
    split
    · exact (ih b (m + 1)).trans_eq (by omega)
    · rw [List.map_cons, List.sum_cons]
      have := hscore m
      have := ih x 1
      omega

theorem lineN1_le (xs : List Bool) : lineN1 xs ≤ xs.length := by
  cases xs with
  | nil => exact Nat.zero_le _
  | cons x xs => exact (sum_runsFrom_le x 1 xs).trans_eq (Nat.add_comm _ _)

theorem n1_eq_runPenalty {n : Nat} {g : Grid} (hg : g.Square n) : n1 n g = Ref.runPenalty n g := by
  simp only [n1, sum_linesOf hg, lineN1_lineList, Ref.runPenalty]

theorem n1_le {n : Nat} {g : Grid} (hg : g.Square n) : n1 n g ≤ 2 * (n * n) := by
  rw [n1, sum_linesOf hg]
  exact overLines_le (c := 1) fun l => (lineN1_le _).trans_eq (by simp)

/-! ### N2: the blocks (44_mask.md R206) -/

/-- The blocks of two adjacent rows, by places. -/
theorem rowPairN2_lineList (n : Nat) (a b : Nat → Bool) :
    rowPairN2 (lineList n a) (lineList n b) = ∑ c ∈ Finset.range (n - 1),
      if a c = a (c + 1) ∧ a c = b c ∧ a c = b (c + 1) then 3 else 0 := by
  induction n generalizing a b with
  | zero => rfl
  | succ n ih =>
    cases n with
    | zero => rfl
    | succ n =>
      have htail := ih (fun c => a (c + 1)) (fun c => b (c + 1))
      rw [lineList_succ n, lineList_succ n] at htail
      rw [lineList_succ, lineList_succ, lineList_succ, lineList_succ, rowPairN2, htail, Nat.add_sub_cancel,
        Nat.add_sub_cancel, Finset.sum_range_succ', Nat.add_comm]
      simp [and_assoc]

theorem rowsN2_map_range (n m : Nat) (v : Nat → Nat → Bool) :
    rowsN2 ((List.range m).map fun r => lineList n (v r)) =
      ∑ r ∈ Finset.range (m - 1), rowPairN2 (lineList n (v r)) (lineList n (v (r + 1))) := by
  induction m generalizing v with
  | zero => rfl
  | succ m ih =>
    cases m with
    | zero => rfl
    | succ m =>
      have htail := ih fun r => v (r + 1)
      rw [Nat.add_sub_cancel] at htail
      rw [Nat.add_sub_cancel, Finset.sum_range_succ', ← htail]
      simp [List.range_succ_eq_map, Function.comp_def, rowsN2, Nat.add_comm (rowPairN2 _ _)]

theorem n2_eq_blockPenalty {n : Nat} {g : Grid} (hg : g.Square n) : n2 g = Ref.blockPenalty n g := by
  simp only [n2, valueRows_eq hg, rowsN2_map_range, rowPairN2_lineList]
  rfl

theorem blockPenalty_le (n : Nat) (g : Grid) : Ref.blockPenalty n g ≤ 3 * (n * n) := by
  have hcell (r c : Nat) : (if cellGet g r c = cellGet g r (c + 1) ∧ cellGet g r c = cellGet g (r + 1) c ∧
        cellGet g r c = cellGet g (r + 1) (c + 1) then 3 else 0) ≤ 3 := by split <;> omega
  calc Ref.blockPenalty n g ≤ ∑ _r ∈ Finset.range (n - 1), ∑ _c ∈ Finset.range (n - 1), 3 :=
        Finset.sum_le_sum fun r _ => Finset.sum_le_sum fun c _ => hcell r c
    _ = (n - 1) * ((n - 1) * 3) := by simp
    _ ≤ n * (n * 3) := by gcongr <;> omega
    _ = 3 * (n * n) := by ring

/-! ### N3: the windows (44_mask.md R207) -/

theorem isPrefixOf_lineList {w : List Bool} (hw : w.length = 11) (n : Nat) (l : Nat → Bool) :
    w.isPrefixOf (lineList n l) = true ↔ 11 ≤ n ∧ Ref.windowAt l 0 = w := by
  have htake (h : 11 ≤ n) : (lineList n l).take 11 = Ref.windowAt l 0 := by
    simp [lineList, ← List.map_take, List.take_range, Nat.min_eq_left h, Ref.windowAt]
  rw [List.isPrefixOf_iff_prefix]
  constructor
  · intro h
    have hn : 11 ≤ n := by simpa [hw] using h.length_le
    exact ⟨hn, by rw [← htake hn, ← hw]; exact (List.prefix_iff_eq_take.mp h).symm⟩
  · rintro ⟨hn, rfl⟩
    exact htake hn ▸ List.take_prefix _ _

theorem finder_isPrefixOf_lineList (n : Nat) (l : Nat → Bool) :
    (finderA.isPrefixOf (lineList n l) || finderB.isPrefixOf (lineList n l)) = true ↔
      11 ≤ n ∧ (Ref.windowAt l 0 = Ref.digits11 0b10111010000 ∨ Ref.windowAt l 0 = Ref.digits11 0b00001011101) := by
  have hA : finderA = Ref.digits11 0b10111010000 := by decide
  have hB : finderB = Ref.digits11 0b00001011101 := by decide
  rw [Bool.or_eq_true, isPrefixOf_lineList rfl, isPrefixOf_lineList rfl, ← and_or_left, hA, hB]

theorem windowAt_succ (l : Nat → Bool) (k : Nat) : Ref.windowAt (fun j => l (j + 1)) k = Ref.windowAt l (k + 1) := by
  simp [Ref.windowAt, Nat.add_right_comm]

theorem lineN3_lineList (n : Nat) (l : Nat → Bool) : lineN3 (lineList n l) = Ref.lineWindows l n := by
  induction n generalizing l with
  | zero => rfl
  | succ n ih =>
    rw [lineList_succ, lineN3, ih, ← lineList_succ]
    simp only [finder_isPrefixOf_lineList, Ref.lineWindows, windowAt_succ]
    by_cases hn : 11 ≤ n + 1
    · have hsize : n + 1 - 10 = n - 10 + 1 := by omega
      rw [hsize, Finset.sum_range_succ', Nat.add_comm]
      simp only [hn, true_and]
    · have hsize : n + 1 - 10 = 0 ∧ n - 10 = 0 := by omega
      simp [hn, hsize]

theorem lineN3_le (xs : List Bool) : lineN3 xs ≤ 40 * xs.length := by
  induction xs with
  | nil => exact Nat.zero_le _
  | cons x xs ih =>
    rw [lineN3, List.length_cons]
    split <;> omega

theorem n3_eq_windowPenalty {n : Nat} {g : Grid} (hg : g.Square n) : n3 n g = Ref.windowPenalty n g := by
  simp only [n3, sum_linesOf hg, lineN3_lineList, Ref.windowPenalty]

theorem n3_le {n : Nat} {g : Grid} (hg : g.Square n) : n3 n g ≤ 80 * (n * n) := by
  rw [n3, sum_linesOf hg]
  exact overLines_le (c := 40) fun l => (lineN3_le _).trans_eq (by simp)

/-! ### N4: the dark ratio (44_mask.md R208) -/

/-- Rounding up by adding `t - 1` before the division is the ceiling. -/
theorem ceil_natCast_div (n : Nat) {t : Nat} (ht : 0 < t) : ⌈(n : ℚ) / t⌉ = ((n + t - 1) / t : Nat) := by
  have ht' : (0 : ℚ) < t := Nat.cast_pos.mpr ht
  set k := (n + t - 1) / t with hk
  have hle : n ≤ k * t := by
    rw [← Nat.ceilDiv_eq_add_pred_div] at hk
    rw [hk, Nat.mul_comm]
    exact le_smul_ceilDiv ht
  have hlt : k * t < n + t := (Nat.div_mul_le_self _ t).trans_lt (by omega)
  rw [Int.ceil_eq_iff, lt_div_iff₀ ht', div_le_iff₀ ht', Int.cast_natCast]
  constructor
  · have : (k * t : ℚ) < n + t := by exact_mod_cast hlt
    linarith
  · exact_mod_cast hle

theorem ratioScore_eq_ratioPenalty (d : Nat) {t : Nat} (ht : 0 < t) : (ratioScore d t : ℚ) = Ref.ratioPenalty d t := by
  have hratio : 100 * (d : ℚ) / t / 5 = ((20 * d : Nat) : ℚ) / t := by push_cast; ring
  rw [Ref.ratioPenalty, hratio, ceil_natCast_div _ ht, ratioScore]
  have hscale (k : ℚ) : |k * 5 - 50| = |k - 10| * 5 := by
    rw [show k * 5 - 50 = (k - 10) * 5 by ring, abs_mul, abs_of_pos (by norm_num : (0 : ℚ) < 5)]
  rw [hscale]
  push_cast [Nat.cast_natAbs]
  ring

theorem ratioScore_le {d t : Nat} (h : d ≤ t) : ratioScore d t ≤ 100 := by
  have hk : (20 * d + t - 1) / t ≤ 20 := by
    rcases Nat.eq_zero_or_pos t with rfl | ht
    · simp
    · exact Nat.lt_succ_iff.mp ((Nat.div_lt_iff_lt_mul ht).mpr (by omega))
  simp only [ratioScore]
  generalize (20 * d + t - 1) / t = k at *
  omega

theorem n4_eq_ratioPenalty {n : Nat} {g : Grid} (hg : g.Square n) (hn : 0 < n) :
    (n4 n g : ℚ) = Ref.ratioPenalty (Ref.darkCells n g).card (n * n) := by
  rw [n4, darkCount_eq_card hg]
  exact_mod_cast ratioScore_eq_ratioPenalty _ (Nat.mul_pos hn hn)

theorem n4_le {n : Nat} {g : Grid} (hg : g.Square n) : n4 n g ≤ 100 := by
  rw [n4, darkCount_eq_card hg]
  exact ratioScore_le (card_darkCells_le n g)

/-! ### The whole penalty (44_mask.md R209) -/

theorem penalty_lt {n : Nat} {g : Grid} (hg : g.Square n) (hn : n ≤ 177) : penalty n g < 2 ^ 22 := by
  have hcells : n * n ≤ 177 * 177 := Nat.mul_le_mul hn hn
  have h1 := n1_le hg
  have h2 := (n2_eq_blockPenalty hg).trans_le (blockPenalty_le n g)
  have h3 := n3_le hg
  have h4 := n4_le hg
  unfold penalty
  omega

theorem scores_le_penalty (n : Nat) (g : Grid) :
    n1 n g ≤ penalty n g ∧ n2 g ≤ penalty n g ∧ n3 n g ≤ penalty n g ∧ n4 n g ≤ penalty n g := by
  unfold penalty
  omega

section Shape

variable {s : State} (hs : s.MatrixOk) (hm : s.mvalid = true)
include hs hm

theorem square_of_matrixOk : s.grid.Square s.msize.toNat := (wf_true_iff _ _).mp (wf_of_gridOk hs.2 hm)

theorem msize_of_matrixOk : 0 < s.msize.toNat ∧ s.msize.toNat ≤ 177 := by
  obtain ⟨hsize, -⟩ := hs
  rw [State.SizeOk, if_pos hm] at hsize
  obtain ⟨v, h1, h2, hv⟩ := hsize
  simp only [sizeOfVersion, Config.verMin, Config.verMax] at *
  omega

theorem penalty_lt_of_matrixOk (p : Nat) : penalty s.msize.toNat (applyMask p s.grid) < 2 ^ 22 :=
  penalty_lt ((square_of_matrixOk hs hm).applyMask p) (msize_of_matrixOk hs hm).2

theorem toNat_wordOfNat_of_le_penalty {k : Nat} (hk : k ≤ penalty s.msize.toNat s.grid) : (wordOfNat k).toNat = k := by
  have := penalty_lt (square_of_matrixOk hs hm) (msize_of_matrixOk hs hm).2
  exact (BitVec.toNat_ofNat k 32).trans (Nat.mod_eq_of_lt (by omega))

end Shape

/-! ### The search (44_mask.md R215) -/

/-- `p` is the least of the patterns 0 to `n - 1` that have the least score. -/
def IsLeastPattern (score : Nat → Nat) (n p : Nat) : Prop :=
  p < n ∧ ∀ q < n, score p ≤ score q ∧ (q < p → score p < score q)

theorem isLeastPattern_one (score : Nat → Nat) : IsLeastPattern score 1 0 :=
  ⟨Nat.one_pos, fun q hq => by simp [Nat.lt_one_iff.mp hq]⟩

namespace IsLeastPattern

variable {score : Nat → Nat} {n p : Nat}

theorem succ_of_lt (h : IsLeastPattern score n p) (hlt : score n < score p) : IsLeastPattern score (n + 1) n := by
  obtain ⟨-, hmin⟩ := h
  refine ⟨n.lt_succ_self, fun q hq => ?_⟩
  rcases Nat.lt_succ_iff_lt_or_eq.mp hq with hq | rfl
  · have := (hmin q hq).1
    omega
  · omega

theorem succ_of_le (h : IsLeastPattern score n p) (hle : score p ≤ score n) : IsLeastPattern score (n + 1) p := by
  obtain ⟨hp, hmin⟩ := h
  refine ⟨Nat.lt_succ_of_lt hp, fun q hq => ?_⟩
  rcases Nat.lt_succ_iff_lt_or_eq.mp hq with hq | rfl
  · exact hmin q hq
  · omega

end IsLeastPattern

/-- After the passes 0 to `n` the search holds the matrix as it was and the first strict minimum so far. -/
theorem exists_foldl_pass_eq (size : Nat) (g : Grid) (n : Nat) :
    ∃ p, IsLeastPattern (fun q => penalty size (applyMask q g)) (n + 1) p ∧
      (List.range (n + 1)).foldl (Search.pass size) { grid := g, bestP := 0, bestS := 0 } =
        { grid := g, bestP := p, bestS := penalty size (applyMask p g) } := by
  induction n with
  | zero => exact ⟨0, isLeastPattern_one _, by simp [Search.pass, applyMask_applyMask]⟩
  | succ n ih =>
    obtain ⟨p, hp, hfold⟩ := ih
    rw [List.range_succ, List.foldl_append, hfold, List.foldl_cons, List.foldl_nil, Search.pass]
    simp only [applyMask_applyMask]
    split
    · rename_i h
      exact ⟨n + 1, hp.succ_of_lt (h.resolve_left n.succ_ne_zero), rfl⟩
    · rename_i h
      exact ⟨p, hp.succ_of_le (not_lt.mp fun hlt => h (.inr hlt)), rfl⟩

/-! ### What the commands answer -/

section Commands

variable {s : State} (rd : SReg) (k : Nat)

theorem scoreInto_of_invalid (hm : s.mvalid = false) : scoreInto rd k s = .next (s.faulted 3) :=
  needMat_of_invalid hm

theorem scoreInto_of_valid (hm : s.mvalid = true) :
    scoreInto rd k s = .next { s with regs := s.regs.set rd (wordOfNat k), busy := false } := needMat_of_valid hm

theorem exec_pen1 : exec (.pen1 rd) s = scoreInto rd (n1 s.msize.toNat s.grid) s := rfl

theorem exec_pen2 : exec (.pen2 rd) s = scoreInto rd (n2 s.grid) s := rfl

theorem exec_pen3 : exec (.pen3 rd) s = scoreInto rd (n3 s.msize.toNat s.grid) s := rfl

theorem exec_pen4 : exec (.pen4 rd) s = scoreInto rd (n4 s.msize.toNat s.grid) s := rfl

theorem exec_pen : exec (.pen rd) s = scoreInto rd (penalty s.msize.toNat s.grid) s := rfl

theorem exec_best_of_valid (hm : s.mvalid = true) :
    ∃ p, IsLeastPattern (fun q => penalty s.msize.toNat (applyMask q s.grid)) 8 p ∧
      exec (.best rd) s = .next { s with
        regs := s.regs.set rd (wordOfNat p), minpen := wordOfNat (penalty s.msize.toNat (applyMask p s.grid)),
        busy := false } := by
  obtain ⟨p, hp, hsearch⟩ := exists_foldl_pass_eq s.msize.toNat s.grid 7
  refine ⟨p, hp, (needMat_of_valid hm).trans ?_⟩
  rw [bestMask, Config.npat, hsearch]
  rfl

end Commands

/-! ### The obligations -/

/-- Settles O51: one cell under `apply_mask`, read from the table of R201. -/
theorem maskFlipsUnreservedCells : Obligations.MaskFlipsUnreservedCells := by
  intro p s hp hg
  refine ⟨needMat_of_invalid, fun hm => ⟨_, needMat_of_valid hm, ?_, fun r hr c hc => ⟨?_, ?_⟩⟩⟩
  · exact wf_applyMask _ _ _ _ (wf_of_gridOk hg hm)
  · exact cell_applyMask_reserved ..
  · exact cellGet_applyMask ((wf_true_iff _ _).mp (wf_of_gridOk hg hm)) hp hr hc

/-- Settles O52: masks are involutions and commute, in any grid. -/
theorem maskTwiceRestoresAndMasksCommute : Obligations.MaskTwiceRestoresAndMasksCommute := by
  intro p q s t u
  refine ⟨fun ht hu => ?_, fun ht hu => ?_⟩
  · rw [exec_mask_mask_grid ht hu, applyMask_applyMask, ite_self]
  · obtain ⟨t', ht'⟩ := exec_answers_next (.mask q) s
    obtain ⟨u', hu'⟩ := exec_answers_next (.mask p) t'
    refine ⟨t', u', ht', hu', ?_⟩
    rw [exec_mask_mask_grid ht hu, exec_mask_mask_grid ht' hu', applyMask_comm]

/-- Settles O53: the machine's scan of a line finds its maximal runs, and nothing wraps around. -/
theorem pen1ScoresMaximalRuns : Obligations.Pen1ScoresMaximalRuns := by
  intro rd s hs
  rw [exec_pen1]
  refine ⟨scoreInto_of_invalid rd _, fun hm => ⟨_, ?_, scoreInto_of_valid rd _ hm⟩⟩
  obtain ⟨h1, -, -, -⟩ := scores_le_penalty s.msize.toNat s.grid
  exact (toNat_wordOfNat_of_le_penalty hs hm h1).trans (n1_eq_runPenalty (square_of_matrixOk hs hm))

/-- Settles O54: the machine's walk over pairs of rows visits every place of the double loop of R206. -/
theorem pen2ScoresBlocks : Obligations.Pen2ScoresBlocks := by
  intro rd s hs
  rw [exec_pen2]
  refine ⟨scoreInto_of_invalid rd _, fun hm => ⟨_, ?_, scoreInto_of_valid rd _ hm⟩⟩
  obtain ⟨-, h2, -, -⟩ := scores_le_penalty s.msize.toNat s.grid
  exact (toNat_wordOfNat_of_le_penalty hs hm h2).trans (n2_eq_blockPenalty (square_of_matrixOk hs hm))

/-- Settles O55: what is left of a line begins with a literal exactly where the literal is a window of the line. -/
theorem pen3ScoresFinderWindows : Obligations.Pen3ScoresFinderWindows := by
  intro rd s hs
  rw [exec_pen3]
  refine ⟨scoreInto_of_invalid rd _, fun hm => ⟨_, ?_, scoreInto_of_valid rd _ hm⟩⟩
  obtain ⟨-, -, h3, -⟩ := scores_le_penalty s.msize.toNat s.grid
  exact (toNat_wordOfNat_of_le_penalty hs hm h3).trans (n3_eq_windowPenalty (square_of_matrixOk hs hm))

/-- Settles O56: the division that rounds up is the one `ceil` of R208. -/
theorem pen4ScoresTheDarkRatio : Obligations.Pen4ScoresTheDarkRatio := by
  intro rd s hs
  rw [exec_pen4]
  refine ⟨scoreInto_of_invalid rd _, fun hm => ⟨_, ?_, scoreInto_of_valid rd _ hm⟩⟩
  obtain ⟨-, -, -, h4⟩ := scores_le_penalty s.msize.toNat s.grid
  rw [toNat_wordOfNat_of_le_penalty hs hm h4]
  exact n4_eq_ratioPenalty (square_of_matrixOk hs hm) (msize_of_matrixOk hs hm).1

/-- Settles O57: the four scores and their sum fit a register, so the sum of the values is the value of the sum. -/
theorem penSumsTheFourScores : Obligations.PenSumsTheFourScores := by
  intro rd s hs
  rw [exec_pen, exec_pen1, exec_pen2, exec_pen3, exec_pen4]
  refine ⟨scoreInto_of_invalid rd _, fun hm => ⟨_, _, _, _, _, scoreInto_of_valid rd _ hm, scoreInto_of_valid rd _ hm,
    scoreInto_of_valid rd _ hm, scoreInto_of_valid rd _ hm, scoreInto_of_valid rd _ hm, ?_⟩⟩
  obtain ⟨h1, h2, h3, h4⟩ := scores_le_penalty s.msize.toNat s.grid
  have hexact {k : Nat} (hk : k ≤ penalty s.msize.toNat s.grid) := toNat_wordOfNat_of_le_penalty hs hm hk
  rw [hexact h1, hexact h2, hexact h3, hexact h4, hexact le_rfl]
  exact ⟨rfl, penalty_lt (square_of_matrixOk hs hm) (msize_of_matrixOk hs hm).2⟩

/-- Settles O58: `exec_best_of_valid`, from the invariant of the search over its passes. -/
theorem bestFindsTheLeastPattern : Obligations.BestFindsTheLeastPattern := by
  intro rd s
  refine ⟨needMat_of_invalid, fun hm => ?_⟩
  obtain ⟨p, ⟨hp, hmin⟩, hexec⟩ := exec_best_of_valid rd hm
  exact ⟨p, _, hp, rfl, hmin, fun hs => penalty_lt_of_matrixOk hs hm p, hexec⟩

end Sys2Proof.Machine

/-! PROOFS. The statements of 45_system.md: steps and the command protocol, host reads, and the read-out of R247. The
one idea behind R242 and R246: a state is a block beside a host's side, no command looks at the host's side
(`exec_withHost`), and so what a list of events does to the block can be said once for every host's side (`Plays`) and
put together from single events. -/

namespace Sys2Proof.Machine

/-! ### The host's side -/

/-- What the host alone moves while a command runs: `OVR` and the model's own three fields. -/
structure HostSide where
  ovr : Bool
  schedule : List Event
  answers : List Word
  draws : Nat

/-- The same block beside another host's side. -/
def State.withHost (s : State) (h : HostSide) : State :=
  { s with ovr := h.ovr, schedule := h.schedule, answers := h.answers, draws := h.draws }

/-- The host's side of a state. -/
def State.hostSide (s : State) : HostSide := ⟨s.ovr, s.schedule, s.answers, s.draws⟩

/-- An outcome beside another host's side. -/
def besideHost (h : HostSide) (r : Result) : Result := andThen r fun t => .next (t.withHost h)

section HostSide

variable {s t u v : State} {h : HostSide}

@[simp] theorem withHost_hostSide : s.withHost s.hostSide = s := rfl
@[simp] theorem withHost_msize : (s.withHost h).msize = s.msize := rfl
@[simp] theorem withHost_grid : (s.withHost h).grid = s.grid := rfl
@[simp] theorem getReg_withHost (i : SReg) : (s.withHost h).getReg i = s.getReg i := rfl
@[simp] theorem getPoly_withHost (k : PReg) : (s.withHost h).getPoly k = s.getPoly k := rfl

/-! No command looks at the host's side (R242): each commutes with `withHost`, branch by branch. -/

theorem ite_besideHost {c : Prop} [Decidable c] {a a' b b' : Result} (ha : a' = besideHost h a)
    (hb : b' = besideHost h b) : (if c then a' else b') = besideHost h (if c then a else b) := by
  rw [ha, hb, apply_ite (besideHost h)]

theorem needGen_withHost {k k' : Result} (hk : k' = besideHost h k) :
    needGen (s.withHost h) k' = besideHost h (needGen s k) := by
  unfold needGen
  exact ite_besideHost hk rfl

theorem needMat_withHost {k k' : Result} (hk : k' = besideHost h k) :
    needMat (s.withHost h) k' = besideHost h (needMat s k) := by
  unfold needMat
  exact ite_besideHost hk rfl

theorem needCell_withHost {ra rb : SReg} {k k' : Nat → Nat → Result} (hk : ∀ r c, k' r c = besideHost h (k r c)) :
    needCell (s.withHost h) ra rb k' = besideHost h (needCell s ra rb k) := by
  unfold needCell
  exact needMat_withHost (ite_besideHost (hk _ _) rfl)

theorem pushCoeff_withHost (pd : PReg) (c : Byte) :
    pushCoeff pd c (s.withHost h) = besideHost h (pushCoeff pd c s) := by
  unfold pushCoeff
  exact ite_besideHost rfl rfl

theorem scoreInto_withHost (rd : SReg) (n : Nat) :
    scoreInto rd n (s.withHost h) = besideHost h (scoreInto rd n s) := needMat_withHost rfl

theorem exec_withHost (i : Instr) (s : State) (h : HostSide) : exec i (s.withHost h) = besideHost h (exec i s) := by
  cases i with
  | nop | li | gfexp | pclr | plen | rsgen => rfl
  | gflog rd ra =>
    simp only [exec, execGflog, getReg_withHost]
    cases gfLog? ((s.getReg ra).setWidth 8) <;> rfl
  | gfmul rd ra rb =>
    simp only [exec, execGfmul, getReg_withHost]
    cases elementOf? (s.getReg ra) <;> cases elementOf? (s.getReg rb) <;> rfl
  | ppush pd ra =>
    simp only [exec, execPpush, getReg_withHost]
    cases elementOf? (s.getReg ra) with
    | some c => exact pushCoeff_withHost pd c
    | none => rfl
  | ppushi pd c => exact pushCoeff_withHost pd c
  | pget rd pa rb =>
    simp only [exec, execPget, getReg_withHost, getPoly_withHost]
    cases (s.getPoly pa)[(s.getReg rb).toNat]? <;> rfl
  | pmul pd pa pb =>
    simp only [exec, execPmul]
    exact ite_besideHost rfl (ite_besideHost rfl rfl)
  | pmod | mnew =>
    simp only [exec, execPmod, execMnew]
    exact ite_besideHost rfl rfl
  | rsenc pd pa => exact needGen_withHost (ite_besideHost rfl rfl)
  | rsgetg pd => exact needGen_withHost rfl
  | mget | mset | mxor | mrsv | misr =>
    simp only [exec, execMget, execMset, execMxor, execMrsv, execMisr]
    exact needCell_withHost fun _ _ => rfl
  | mdark rd | mtot rd | mask p => exact needMat_withHost rfl
  | pen1 rd | pen2 rd | pen3 rd | pen4 rd | pen rd => exact scoreInto_withHost rd _
  | best rd =>
    simp only [exec, execBest, withHost_msize, withHost_grid]
    generalize bestMask s.msize.toNat s.grid = b
    exact needMat_withHost rfl

theorem finish_withHost (s : State) (h : HostSide) : finish (s.withHost h) = besideHost h (finish s) := by
  cases hd : decode s.held with
  | ok i => rw [finish_ok hd, ← exec_withHost]; exact finish_ok hd
  | error e => rw [finish_error hd]; exact finish_error hd

/-- The `Finish` event, enabled or not, does not look at the host's side. -/
theorem onEvent_finish_withHost (s : State) (h : HostSide) :
    (s.withHost h).onEvent .finish = besideHost h (s.onEvent .finish) := by
  cases hb : s.busy with
  | true => rw [onEvent_finish_busy hb, ← finish_withHost]; exact onEvent_finish_busy hb
  | false => rw [onEvent_finish_idle hb]; exact onEvent_finish_idle hb

/-- An idle block takes a `CMD` write without a look at the host's side; under `BUSY` it would set `OVR`. -/
theorem submit_withHost (hb : s.busy = false) (w : Word) (h : HostSide) :
    (s.withHost h).submit w = (s.submit w).withHost h := by
  cases hf : s.fault <;> simp [State.submit, State.withHost, hf, hb]

theorem sameBlock_withHost (u : State) (h h' : HostSide) : (u.withHost h).SameBlock (u.withHost h') := rfl

/-! ### A run over events to come -/

/-- The events `es`, met by the block `u` beside any host's side, leave the block `v`; given `q`, they leave `OVR` as it
was. -/
def Plays (q : Prop) (u v : State) (es : List Event) : Prop :=
  ∀ (h : HostSide) (rest : List Event), h.schedule = es ++ rest →
    ∃ h', core.run es.length (u.withHost h) = .next (v.withHost h') ∧ h'.schedule = rest ∧ (q → h'.ovr = h.ovr)

namespace Plays

variable {q : Prop} {e : Event} {es fs : List Event}

theorem nil (u : State) : Plays q u u [] := fun h _ hs => ⟨h, rfl, hs, fun _ => rfl⟩

theorem append (h₁ : Plays q u v es) (h₂ : Plays q v t fs) : Plays q u t (es ++ fs) := by
  intro h rest hs
  obtain ⟨h', hrun, hs', ho⟩ := h₁ h (fs ++ rest) (by rw [hs, List.append_assoc])
  obtain ⟨h'', hrun', hs'', ho'⟩ := h₂ h' rest hs'
  refine ⟨h'', ?_, hs'', fun hq => (ho' hq).trans (ho hq)⟩
  rw [List.length_append, core_run_add _ _ hrun, hrun']

/-- One event is one step. -/
theorem single (he : ∀ h : HostSide, ∃ h', (u.withHost h).onEvent e = .next (v.withHost h') ∧
    h'.schedule = h.schedule ∧ (q → h'.ovr = h.ovr)) : Plays q u v [e] := by
  intro h rest hs
  obtain ⟨h', hstep, hs', ho⟩ := he { h with schedule := rest }
  exact ⟨h', core_run_succ 0 ((step_cons hs).trans hstep), hs', ho⟩

theorem of_forall (hes : ∀ e ∈ es, Plays q u u [e]) : Plays q u u es := by
  induction es with
  | nil => exact nil u
  | cons e es ih =>
    exact (hes e List.mem_cons_self).append (ih fun e' he' => hes e' (List.mem_cons_of_mem e he'))

theorem read (u : State) (i : BitVec 5) : Plays q u u [.read i] := by
  refine single fun h => ?_
  obtain ⟨a, d, hread⟩ := hostRead_eq (u.withHost h) i
  exact ⟨{ h with answers := a, draws := d }, congrArg Host.Outcome.next hread, rfl, fun _ => rfl⟩

theorem reads (u : State) (is : List (BitVec 5)) : Plays q u u (is.map .read) := by
  refine of_forall fun e he => ?_
  obtain ⟨i, _, rfl⟩ := List.mem_map.mp he
  exact read u i

/-- A `CMD` write to an idle block is a submission, which leaves `OVR` alone. -/
theorem submit (hb : u.busy = false) (w : Word) : Plays q u (u.submit w) [.write 0 w] :=
  single fun h => ⟨h, congrArg Host.Outcome.next (submit_withHost hb w h), rfl, fun _ => rfl⟩

theorem finish (hv : u.onEvent .finish = .next v) : Plays q u v [.finish] :=
  single fun h => ⟨h, (onEvent_finish_withHost u h).trans (congrArg (besideHost h) hv), rfl, fun _ => rfl⟩

/-- A host write that is no reset is dropped or ignored by a busy block. -/
theorem busyWrite (hb : u.busy = true) {i : BitVec 5} {w : Word} (hw : i = 4 → w.getLsbD 0 = false) :
    Plays False u u [.write i w] := by
  refine single fun h => ?_
  rw [onEvent_write]
  rcases hostWrite_cases (u.withHost h) i w with ⟨_, hwrite⟩ | ⟨h4, hreset, _⟩ | ⟨_, _, hwrite⟩
  · rcases submit_cases (u.withHost h) w with ⟨_, hsub⟩ | ⟨_, _, hsub⟩ | ⟨_, hidle, _⟩
    · exact ⟨h, by rw [hwrite, hsub], rfl, False.elim⟩
    · exact ⟨{ h with ovr := true }, by rw [hwrite, hsub]; rfl, rfl, False.elim⟩
    · exact absurd (hb.symm.trans hidle) Bool.noConfusion
  · exact absurd (hreset.symm.trans (hw h4)) Bool.noConfusion
  · exact ⟨h, by rw [hwrite], rfl, False.elim⟩

/-- One command of a polling host: issued, whatever is read. -/
theorem round (hb : u.busy = false) (r : Round) (hv : issue r.word u = .next v) : Plays True u v r.events := by
  have hfinish : (u.submit r.word).onEvent .finish = .next v := hv
  exact (reads u r.before).append ((submit hb r.word).append ((reads _ r.during).append (finish hfinish)))

end Plays

/-! ### Issued commands -/

theorem Ended.busy (he : Ended s t) : t.busy = false := by
  rcases he with ⟨_, rfl⟩ | ⟨_, _, rfl⟩ <;> rfl

theorem Ended.hostSide (he : Ended s t) : t.hostSide = s.hostSide := by
  rcases he with ⟨_, rfl⟩ | ⟨u, hw, rfl⟩
  · rfl
  · cases hw <;> rfl

/-- Issued to an idle block, a word leaves it idle and `OVR` as it was. -/
theorem exists_issue_eq (hb : s.busy = false) (w : Word) :
    ∃ t, issue w s = .next t ∧ t.busy = false ∧ t.ovr = s.ovr := by
  cases hf : s.fault with
  | true => exact ⟨s, issue_fault hf hb, hb, rfl⟩
  | false =>
    obtain ⟨t, ht⟩ := finish_answers_next { s with busy := true, held := w }
    have hend := finish_ended ht
    exact ⟨t, (issue_ready hf hb).trans ht, hend.busy, congrArg HostSide.ovr hend.hostSide⟩

/-- The commands of a polling host: issued one after the other. -/
theorem exists_issueAll_plays (hb : u.busy = false) (rounds : List Round) :
    ∃ v, issueAll (rounds.map Round.word) u = .next v ∧ v.busy = false ∧ v.ovr = u.ovr ∧
      Plays True u v (pollingSchedule rounds) := by
  induction rounds generalizing u with
  | nil => exact ⟨u, rfl, hb, rfl, .nil u⟩
  | cons r rounds ih =>
    obtain ⟨t, ht, hbt, hot⟩ := exists_issue_eq hb r.word
    obtain ⟨v, hv, hbv, hov, hplays⟩ := ih hbt
    exact ⟨v, (congrArg (andThen · _) ht).trans hv, hbv, hov.trans hot, (Plays.round hb r ht).append hplays⟩

/-! ### Steps of a busy block -/

theorem step_finish {es : List Event} (hs : s.schedule = .finish :: es) (hb : s.busy = true) :
    step s = finish { s with schedule := es } :=
  (step_cons hs).trans (onEvent_finish_busy hb)

theorem submit_schedule (s : State) (w : Word) : (s.submit w).schedule = s.schedule := by
  rcases submit_cases s w with ⟨_, e⟩ | ⟨_, _, e⟩ | ⟨_, _, e⟩ <;> rw [e]

/-- No event touches the events behind it. -/
theorem onEvent_schedule {e : Event} (ht : s.onEvent e = .next t) : t.schedule = s.schedule := by
  cases e with
  | write i w =>
    cases ht
    rcases hostWrite_cases s i w with ⟨_, e⟩ | ⟨_, _, e⟩ | ⟨_, _, e⟩ <;> rw [e]
    · exact submit_schedule s w
    · rfl
  | read i =>
    cases ht
    obtain ⟨a, d, e⟩ := hostRead_eq s i
    rw [e]
  | reset => cases ht; rfl
  | finish =>
    rcases onEvent_finish_cases ht with ⟨_, hend⟩ | ⟨_, rfl⟩
    · exact congrArg HostSide.schedule hend.hostSide
    · rfl

theorem core_run_one (ht : step s = .next t) : core.run 1 s = .next t := core_run_succ 0 ht

/-- A busy block ends at the latest when its events have run out. -/
theorem exists_run_idle (es : List Event) (hs : s.schedule = es) (hb : s.busy = true) :
    ∃ k t, k ≤ es.length + 1 ∧ core.run k s = .next t ∧ t.busy = false := by
  induction es generalizing s with
  | nil =>
    obtain ⟨t, ht⟩ := finish_answers_next s
    exact ⟨1, t, Nat.le_refl 1, core_run_one ((step_nil_busy hs hb).trans ht), (finish_ended ht).busy⟩
  | cons e es ih =>
    obtain ⟨t, ht⟩ := step_answers_next s
    cases hbt : t.busy with
    | false => exact ⟨1, t, Nat.le_add_left .., core_run_one ht, hbt⟩
    | true =>
      obtain ⟨k, v, hk, hrun, hv⟩ := ih (onEvent_schedule ((step_cons hs).symm.trans ht)) hbt
      exact ⟨k + 1, v, Nat.succ_le_succ hk, (core_run_succ k ht).trans hrun, hv⟩

end HostSide

/-! ### The window, word by word (10_state.md R30 to R40) -/

section Window

variable {s : State} {i : BitVec 5} {rest : List Event}

theorem step_read_shown (hs : s.schedule = .read i :: rest) (hi : s.busy = true → isResultWord i = false) :
    step s = .next { s with schedule := rest, answers := s.windowWord i :: s.answers } := by
  rw [step_cons hs, onEvent_read]
  rcases hostRead_cases { s with schedule := rest } i with ⟨hb, hres, _⟩ | ⟨_, hread⟩
  · exact absurd (hres.symm.trans (hi hb)) Bool.noConfusion
  · rw [hread]; rfl

theorem step_read_free (hs : s.schedule = .read i :: rest) (hb : s.busy = true) (hi : isResultWord i = true) :
    step s = .next
      { s with schedule := rest, answers := Config.busyRead s.draws :: s.answers, draws := s.draws + 1 } := by
  rw [step_cons hs, onEvent_read]
  rcases hostRead_cases { s with schedule := rest } i with ⟨_, _, hread⟩ | ⟨hshown, _⟩
  · rw [hread]
  · exact absurd (hi.symm.trans (hshown hb)) Bool.noConfusion

theorem wordOfBool_getLsbD (b : Bool) (k : Nat) : (wordOfBool b).getLsbD k = (decide (k = 0) && b) := by
  cases b <;> simp [wordOfBool, BitVec.getLsbD_one]

/-- `STATUS` is 0 above its five flags (10_state.md R32). -/
theorem statusWord_high_bits (s : State) {k : Nat} (hk : 5 ≤ k) : s.statusWord.getLsbD k = false := by
  simp [State.statusWord, wordOfBool_getLsbD]
  omega

/-- `STATUS`, all of it. -/
theorem statusWord_flags (s : State) :
    s.statusWord.getLsbD 0 = s.busy ∧ s.statusWord.getLsbD 1 = s.fault ∧ s.statusWord.getLsbD 2 = s.ovr ∧
      s.statusWord.getLsbD 3 = s.gvalid ∧ s.statusWord.getLsbD 4 = s.mvalid ∧
      ∀ k, 5 ≤ k → s.statusWord.getLsbD k = false := by
  obtain ⟨hbusy, hfault, hovr, hgvalid, hmvalid⟩ := statusWord_bits s
  exact ⟨hbusy, hfault, hovr, hgvalid, hmvalid, fun k hk => statusWord_high_bits s hk⟩

theorem windowWord_reg (r : SReg) (h : i.toNat = 8 + r.val) : s.windowWord i = s.getReg r := by
  unfold State.windowWord
  rw [h]
  fin_cases r <;> rfl

theorem windowWord_unmapped (h : i = 0 ∨ i = 4 ∨ 17 ≤ i.toNat) : s.windowWord i = 0 := by
  rcases h with rfl | rfl | h
  · rfl
  · rfl
  · unfold State.windowWord
    split
    any_goals omega
    rfl

theorem toNat_wordOfByte (b : Byte) : (wordOfByte b).toNat = b.toNat := BitVec.toNat_setWidth_of_le (by decide)

theorem not_isResultWord_of_unmapped (h : i = 0 ∨ i = 4 ∨ 17 ≤ i.toNat) : isResultWord i = false := by
  revert i; decide

end Window

/-! ### The read-out of a polynomial register (45_system.md R247) -/

/-- `s` but for `r0`, `r1` and the held word, with the answers `a`. -/
def State.Told (s : State) (a : List Word) (t : State) : Prop :=
  ∃ (rs : Vector Word 8) (w : Word), (∀ j : SReg, j ≠ 0 → j ≠ 1 → rs[j] = s.regs[j]) ∧
    t = { s with regs := rs, held := w, answers := a }

theorem hostRead_idle {s : State} (hb : s.busy = false) (i : BitVec 5) :
    s.hostRead i = { s with answers := s.windowWord i :: s.answers } :=
  if_neg (by simp [hb])

namespace State.Told

variable {s t : State} {a : List Word} {pa : PReg}

theorem refl (s : State) : s.Told s.answers s := ⟨s.regs, s.held, fun _ _ _ => rfl, rfl⟩

theorem ready (ht : s.Told a t) (hr : s.Ready) : t.Ready := by
  obtain ⟨_, _, _, rfl⟩ := ht
  exact hr

theorem getPoly (ht : s.Told a t) (k : PReg) : t.getPoly k = s.getPoly k := by
  obtain ⟨_, _, _, rfl⟩ := ht
  rfl

theorem setReg (ht : s.Told a t) {rd : SReg} (hrd : rd = 0 ∨ rd = 1) (v w : Word) :
    s.Told a { t.setReg rd v with held := w } := by
  obtain ⟨rs, _, hrs, rfl⟩ := ht
  refine ⟨rs.set rd v, w, fun j h0 h1 => ?_, rfl⟩
  have hj : rd ≠ j := by rcases hrd with rfl | rfl <;> exact Ne.symm ‹_›
  rw [← hrs j h0 h1]
  exact Vector.getElem_set_ne _ _ (Fin.val_ne_of_ne hj)

/-- A host's read of `R0`. -/
theorem read (ht : s.Told a t) (hr : s.Ready) : s.Told (t.getReg 0 :: a) (t.hostRead 8) := by
  rw [hostRead_idle (ht.ready hr).2]
  obtain ⟨rs, w, hrs, rfl⟩ := ht
  exact ⟨rs, w, hrs, rfl⟩

/-- An issued command that completes with `v` in `r0` or `r1`. -/
theorem issue {i : Instr} {rd : SReg} {v : Word} (ht : s.Told a t) (hr : s.Ready) (hi : i.wf = true)
    (hrd : rd = 0 ∨ rd = 1)
    (he : exec i { t with busy := true, held := encode i } =
      done (({ t with busy := true, held := encode i } : State).setReg rd v)) :
    ∃ t', Machine.issue (encode i) t = .next t' ∧ s.Told a t' ∧ t'.getReg rd = v := by
  obtain ⟨hf, hb⟩ := ht.ready hr
  refine ⟨_, ?_, ht.setReg hrd v (encode i), getReg_setReg_same t rd v⟩
  rw [issue_encode (decode_encode hi) hf hb, he]
  simp only [done_eq, State.complete, State.setReg, hb]

theorem askR0_plen (ht : s.Told a t) (hr : s.Ready) (pa : PReg) :
    ∃ t', askR0 [.plen 0 pa] t = .next t' ∧ s.Told (wordOfNat (s.getPoly pa).length :: a) t' := by
  obtain ⟨u, hu, htu, hreg⟩ := ht.issue (i := .plen 0 pa) hr rfl (.inl rfl) rfl
  refine ⟨u.hostRead 8, ?_, ?_⟩
  · rw [askR0, execAll_cons_of_next hu]; rfl
  · rw [← ht.getPoly]
    exact hreg ▸ htu.read hr

theorem askCoeff (ht : s.Told a t) (hr : s.Ready) {j : Nat} (hj : j < (s.getPoly pa).length)
    (hlen : (s.getPoly pa).length ≤ Config.pcap) :
    ∃ t', Machine.askCoeff pa j t = .next t' ∧ s.Told (wordOfByte (s.getPoly pa)[j] :: a) t' := by
  obtain ⟨u, hu, htu, hindex⟩ := ht.issue (i := .li 1 (BitVec.ofNat 16 j)) hr rfl (.inr rfl) rfl
  have hj256 : j < 256 := Nat.lt_of_lt_of_le hj hlen
  have hr1 : (u.getReg 1).toNat = j := by
    rw [hindex, BitVec.toNat_setWidth_of_le (by decide), BitVec.toNat_ofNat, Nat.mod_eq_of_lt (by omega)]
  have hpoly := htu.getPoly pa
  have hget := exec_pget_of_lt (s := { u with busy := true, held := encode (.pget 0 pa 1) }) (rd := 0) (rb := 1)
    (show (u.getReg 1).toNat < (u.getPoly pa).length by rw [hr1, hpoly]; exact hj)
  obtain ⟨v, hv, htv, hreg⟩ := htu.issue (i := .pget 0 pa 1) hr rfl (.inl rfl) hget
  refine ⟨v.hostRead 8, ?_, ?_⟩
  · rw [Machine.askCoeff, askR0, execAll_cons_of_next hu, execAll_cons_of_next hv]; rfl
  · have hcoeff : v.getReg 0 = wordOfByte (s.getPoly pa)[j] := by
      rw [hreg]
      show wordOfByte ((u.getPoly pa).getD (u.getReg 1).toNat 0) = _
      rw [hr1, hpoly, List.getD_eq_getElem _ _ hj]
    exact hcoeff ▸ htv.read hr

/-- The coefficients asked for one after the other. -/
theorem askCoeffs (ht : s.Told a t) (hr : s.Ready) (hlen : (s.getPoly pa).length ≤ Config.pcap) {n : Nat}
    (hn : n ≤ (s.getPoly pa).length) :
    ∃ t', inTurn (Machine.askCoeff pa) (List.range n) t = .next t' ∧
      s.Told ((((s.getPoly pa).take n).map wordOfByte).reverse ++ a) t' := by
  induction n with
  | zero => exact ⟨t, rfl, ht⟩
  | succ n ih =>
    obtain ⟨u, hu, htu⟩ := ih (Nat.le_of_succ_le hn)
    obtain ⟨v, hv, htv⟩ := htu.askCoeff hr hn hlen
    refine ⟨v, ?_, ?_⟩
    · rw [List.range_succ, inTurn_append, hu]
      simp [hv]
    · rw [List.take_succ_eq_append_getElem hn, List.map_append, List.reverse_append]
      exact htv

end State.Told

/-! ### The obligations -/

/-- Settles O6: the held word decides what `Finish` runs. -/
theorem finishRunsHeldCommand : Obligations.FinishRunsHeldCommand := fun _ _ hb hd =>
  ⟨fun _ hs => (step_finish hs hb).trans (finish_ok hd), fun hs => (step_nil_busy hs hb).trans (finish_ok hd)⟩

/-- Settles O8: the tests of R241 in their order. -/
theorem submissionHasThreeOutcomes : Obligations.SubmissionHasThreeOutcomes := by
  intro s w rest hs
  have hstep : step s = .next (({ s with schedule := rest } : State).submit w) := step_cons hs
  rw [hstep, State.submit]
  refine ⟨fun hf => ?_, fun hf hb => ?_, fun hf hb => ?_⟩
  · simp [hf]
  · simp [hf, hb]
  · simp [hf, hb]

/-- Settles O24: `encode` is the inverse of `decode`, and the word of NOP is 0. -/
theorem nopChangesNothing : Obligations.NopChangesNothing :=
  ⟨fun _ => ⟨fun h => (decode_eq_ok h).1.symm, fun h => h ▸ rfl⟩, fun _ => rfl⟩

/-- Settles O12: an idle block shows the word as it stands. -/
theorem idleReadReturnsWindowWord : Obligations.IdleReadReturnsWindowWord := by
  intro s i rest hs hb
  have hread := step_read_shown hs fun h => absurd (hb.symm.trans h) Bool.noConfusion
  refine ⟨s.windowWord i, hread, ?_, ?_, ?_, ?_, ?_, ?_, fun r => windowWord_reg r, ?_, windowWord_unmapped⟩
  · rintro rfl; exact statusWord_flags s
  · rintro rfl; exact toNat_wordOfByte s.fcause
  · rintro rfl; rfl
  · rintro rfl; exact toNat_wordOfByte s.gn
  · rintro rfl; exact toNat_wordOfByte s.msize
  · rintro rfl; rfl
  · rintro rfl; rfl

/-- Settles O13: a result word reads as a free value, every other word as it stands. -/
theorem busyReadChangesOnlyTheAnswer : Obligations.BusyReadChangesOnlyTheAnswer := by
  intro s i rest hs hb
  refine ⟨?_, ?_, fun h => ?_, fun h => ⟨_, step_read_free hs hb ((isResultWord_iff i).mpr h)⟩⟩
  · rintro rfl
    obtain ⟨hbusy, hrest⟩ := statusWord_flags s
    exact ⟨s.statusWord, step_read_shown hs fun _ => isResultWord_status, hbusy.trans hb, hrest⟩
  · rintro rfl; exact step_read_shown hs fun _ => by decide
  · rw [step_read_shown hs fun _ => not_isResultWord_of_unmapped h, windowWord_unmapped h]

/-- Settles O20: `exists_run_idle` over the events to come. -/
theorem busyBlockBecomesIdle : Obligations.BusyBlockBecomesIdle := fun s hb => exists_run_idle s.schedule rfl hb

/-- Settles O21: both runs are the command in the same block, each beside a host's side of its own. -/
theorem hostCannotDisturbARunningCommand : Obligations.HostCannotDisturbARunningCommand := by
  intro s es rest hb hs hes
  obtain ⟨u, hu⟩ := finish_answers_next s
  have haccesses : Plays False s s es := .of_forall fun e he => by
    obtain ⟨hfin, hrst, hctrl⟩ := hes e he
    cases e with
    | write i w => exact .busyWrite hb fun hi => hctrl w (hi ▸ rfl)
    | read i => exact .read s i
    | reset => exact absurd rfl hrst
    | finish => exact absurd rfl hfin
  have hfinish : Plays False s u [.finish] := .finish ((onEvent_finish_busy hb).trans hu)
  obtain ⟨h, hrun, hsched, _⟩ := (haccesses.append hfinish) s.hostSide rest (hs.trans (by simp))
  refine ⟨u.withHost h, u.withHost { s.hostSide with schedule := rest }, by simpa using hrun, ?_,
    sameBlock_withHost u _ _, hsched⟩
  have hstep : step { s with schedule := .finish :: rest } = finish (s.withHost { s.hostSide with schedule := rest }) :=
    step_finish rfl hb
  rw [hstep, finish_withHost, hu]
  rfl

/-- Settles O19: the schedule plays the issued words. -/
theorem pollingHostRunsItsCommandList : Obligations.PollingHostRunsItsCommandList := by
  intro rounds after s hb hs
  obtain ⟨v, hv, hbv, hov, hplays⟩ := exists_issueAll_plays (u := { s with schedule := [] }) hb rounds
  obtain ⟨h, hrun, hsched, ho⟩ := hplays.append (.reads v after) s.hostSide [] (hs.trans (List.append_nil _).symm)
  rw [← hs] at hrun
  exact ⟨v.withHost h, v, hrun, hv, sameBlock_withHost v h v.hostSide, hbv, ho trivial, hov, hsched⟩

/-- Settles O60: the length, then one `askCoeff` per index, each a command or two that write `r0` and `r1`. -/
theorem readOutTellsTheCoefficients : Obligations.ReadOutTellsTheCoefficients := by
  intro pa s hr hp
  obtain ⟨t, ht, htold⟩ := (State.Told.refl s).askR0_plen hr pa
  have hlen : (wordOfNat (s.getPoly pa).length).toNat = (s.getPoly pa).length :=
    Nat.mod_eq_of_lt (Nat.lt_of_le_of_lt (hp pa) (by decide))
  obtain ⟨u, hu, rs, w, hrs, rfl⟩ := htold.askCoeffs hr (hp pa) (Nat.le_refl _)
  refine ⟨rs, wordOfNat (s.getPoly pa).length, w, hlen, hrs, ?_⟩
  have hcount : (t.answers.headD 0).toNat = (s.getPoly pa).length := by
    obtain ⟨_, _, _, rfl⟩ := htold
    exact hlen
  show andThen (askR0 [.plen 0 pa] s) _ = _
  rw [ht, andThen_next, hcount, hu, List.take_length, funext wordOfByte_eq]

end Sys2Proof.Machine

/-! PROOFS. The statements of 60_exceptions.md: the table of R252, the fault of an illegal word, and the states that no
event but a reset leaves. A command's body and its row of the table are the same checks in the same order; `Checked`
says so check by check, and every command is put together from its checks. -/

namespace Sys2Proof.Machine

/-! ### Checks in order (60_exceptions.md R252) -/

/-- Completion, as far as a fault would show: `BUSY` is 0 and the fault state is as it was. -/
def State.CompletesTo (s t : State) : Prop :=
  t.busy = false ∧ t.fault = s.fault ∧ t.fcause = s.fcause ∧ t.finfo = s.finfo

/-- `r` is what a command answers in `s` whose row of the table, with its conditions evaluated, is the list: the first
that holds is raised, and where none holds the command completes. -/
inductive Checked (s : State) (r : Result) : List (Bool × Cause) → Prop where
  | completes {t : State} (hr : r = .next t) (ht : s.CompletesTo t) : Checked s r []
  | raises {k : Cause} {cs : List (Bool × Cause)} (hr : r = trap k s) : Checked s r ((true, k) :: cs)
  | passes {k : Cause} {cs : List (Bool × Cause)} (h : Checked s r cs) : Checked s r ((false, k) :: cs)

namespace Checked

variable {s : State} {r : Result} {k : Cause} {cs : List (Bool × Cause)}

/-! What a checked answer is. -/

theorem eq_trap (h : Checked s r cs) (hk : firstCause cs = some k) : r = trap k s := by
  induction h with
  | completes => cases hk
  | raises hr => cases hk; exact hr
  | passes _ ih => exact ih hk

theorem exists_completesTo (h : Checked s r cs) (hk : firstCause cs = none) : ∃ t, r = .next t ∧ s.CompletesTo t := by
  induction h with
  | completes hr ht => exact ⟨_, hr, ht⟩
  | raises => cases hk
  | passes _ ih => exact ih hk

/-! One lemma per form a check has in the commands. -/

theorem test {p : Prop} [Decidable p] (ht : p → r = trap k s) (hf : ¬ p → Checked s r cs) :
    Checked s r ((decide p, k) :: cs) := by
  by_cases hp : p
  · rw [decide_eq_true hp]; exact .raises (ht hp)
  · rw [decide_eq_false hp]; exact .passes (hf hp)

theorem ite {p : Prop} [Decidable p] (h : Checked s r cs) :
    Checked s (if p then trap k s else r) ((decide p, k) :: cs) :=
  .test (fun hp => if_pos hp) fun hp => by rw [if_neg hp]; exact h

theorem needGen (h : Checked s r cs) : Checked s (needGen s r) (s.lacksGen :: cs) := by
  unfold State.lacksGen
  cases hv : s.gvalid with
  | true => rw [needGen_of_valid hv]; exact .passes h
  | false => exact .raises (needGen_of_invalid hv)

theorem needMat (h : Checked s r cs) : Checked s (needMat s r) (s.lacksMat :: cs) := by
  unfold State.lacksMat
  cases hv : s.mvalid with
  | true => rw [needMat_of_valid hv]; exact .passes h
  | false => exact .raises (needMat_of_invalid hv)

theorem needCell {ra rb : SReg} {f : Nat → Nat → Result} (h : ∀ r c, Checked s (f r c) []) :
    Checked s (needCell s ra rb f) [s.lacksMat, s.outOfBounds ra rb] := by
  unfold State.lacksMat
  cases hv : s.mvalid with
  | true =>
    refine .passes (.test (needCell_of_oob hv) fun hin => ?_)
    rw [needCell_of_lt hv (by omega) (by omega)]
    exact h _ _
  | false => exact .raises (needCell_of_invalid hv)

theorem pushCoeff (pd : PReg) (v : Byte) :
    Checked s (pushCoeff pd v s) [(decide ((s.getPoly pd).length = 256), .len)] :=
  .ite (.completes rfl ⟨rfl, rfl, rfl, rfl⟩)

theorem scoreInto (rd : SReg) (n : Nat) : Checked s (scoreInto rd n s) [s.lacksMat] :=
  .needMat (.completes rfl ⟨rfl, rfl, rfl, rfl⟩)

end Checked

/-- Every command makes the checks of its row, in their order. -/
theorem exec_checked (i : Instr) (s : State) : Checked s (exec i s) (faultChecks s i) := by
  cases i with
  | nop | li | gfexp | pclr | plen | rsgen => exact .completes rfl ⟨rfl, rfl, rfl, rfl⟩
  | gflog rd ra =>
    obtain ⟨hzero, hlog⟩ := gflogWritesTheDiscreteLog rd ra s
    refine .test hzero fun h => ?_
    obtain ⟨l, _, _, hl⟩ := hlog h
    exact .completes hl ⟨rfl, rfl, rfl, rfl⟩
  | gfmul rd ra rb =>
    refine .test (fun ha => exec_gfmul_of_gt (.inl ha)) fun ha => ?_
    refine .test (fun hb => exec_gfmul_of_gt (.inr hb)) fun hb => ?_
    exact .completes (exec_gfmul_of_le (Nat.le_of_not_lt ha) (Nat.le_of_not_lt hb)) ⟨rfl, rfl, rfl, rfl⟩
  | ppush pd ra =>
    refine .test exec_ppush_of_gt fun h => ?_
    rw [exec_ppush_of_le (Nat.le_of_not_lt h)]
    exact .pushCoeff pd _
  | ppushi pd v => exact .pushCoeff pd v
  | pget rd pa rb =>
    exact .test exec_pget_of_le fun h => .completes (exec_pget_of_lt (Nat.lt_of_not_le h)) ⟨rfl, rfl, rfl, rfl⟩
  | pmul pd pa pb => exact .ite (.ite (.completes rfl ⟨rfl, rfl, rfl, rfl⟩))
  | pmod pd pa pb =>
    exact .test exec_pmod_of_not_monic fun h => .completes (exec_pmod_of_monic (not_not.mp h)) ⟨rfl, rfl, rfl, rfl⟩
  | rsenc pd pa => exact .needGen (.ite (.completes rfl ⟨rfl, rfl, rfl, rfl⟩))
  | rsgetg pd => exact .needGen (.completes rfl ⟨rfl, rfl, rfl, rfl⟩)
  | mnew v => exact .ite (.completes rfl ⟨rfl, rfl, rfl, rfl⟩)
  | mget | mset | mxor | mrsv | misr =>
    simp only [exec_mget, exec_mset, exec_mxor, exec_mrsv, exec_misr]
    exact .needCell fun _ _ => .completes rfl ⟨rfl, rfl, rfl, rfl⟩
  | mdark | mtot | mask => exact .needMat (.completes rfl ⟨rfl, rfl, rfl, rfl⟩)
  | pen1 rd | pen2 rd | pen3 rd | pen4 rd | pen rd =>
    simp only [exec_pen1, exec_pen2, exec_pen3, exec_pen4, exec_pen]
    exact .scoreInto rd _
  | best rd =>
    simp only [exec, execBest]
    generalize bestMask s.msize.toNat s.grid = b
    exact .needMat (.completes rfl ⟨rfl, rfl, rfl, rfl⟩)

/-! ### Writes that are ignored (10_state.md R35, R40) -/

theorem step_write_ignored {s : State} {i : BitVec 5} {w : Word} {rest : List Event}
    (hs : s.schedule = .write i w :: rest) (h0 : i ≠ 0) (h4 : i = 4 → w.getLsbD 0 = false) :
    step s = .next { s with schedule := rest } := by
  rw [step_cons hs, onEvent_write]
  rcases hostWrite_cases { s with schedule := rest } i w with ⟨hi, _⟩ | ⟨hi, hw, _⟩ | ⟨_, _, hwrite⟩
  · exact absurd hi h0
  · exact absurd (hw.symm.trans (h4 hi)) Bool.noConfusion
  · rw [hwrite]

/-! ### The obligations -/

/-- Settles O14: the checks of the command, with the frame `exec_writesOnly` where it completes. -/
theorem faultsAreThoseOfTheTable : Obligations.FaultsAreThoseOfTheTable := by
  intro i s
  refine ⟨fun k hk => (exec_checked i s).eq_trap hk, fun hnone => ?_⟩
  obtain ⟨t, ht, hbusy, hfault, hcause, hinfo⟩ := (exec_checked i s).exists_completesTo hnone
  have hframe := exec_writesOnly ht
  exact ⟨t, ht, hbusy, hfault, hcause, hinfo, hframe.ovr, hframe.held, hframe.schedule, hframe.answers, hframe.draws⟩

/-- Settles O15, event by event: a word is not accepted, a write elsewhere is ignored, a read only answers, and there is
nothing to finish. -/
theorem faultStateIsLeftOnlyByReset : Obligations.FaultStateIsLeftOnlyByReset := by
  intro s e rest hf hb hs hreset hctrl
  cases e with
  | write i w =>
    refine ⟨s.answers, ?_⟩
    by_cases h0 : i = 0
    · subst h0
      obtain ⟨hignored, _⟩ := submissionHasThreeOutcomes s w rest hs
      exact hignored hf
    · exact step_write_ignored hs h0 fun h4 => hctrl w (h4 ▸ rfl)
  | read i => exact ⟨_, step_read_shown hs fun h => absurd (hb.symm.trans h) Bool.noConfusion⟩
  | reset => exact absurd rfl hreset
  | finish => exact ⟨s.answers, (step_cons hs).trans (onEvent_finish_idle hb)⟩

/-- Settles O7: `Finish` has no command to run. -/
theorem illegalWordRaisesIllegal : Obligations.IllegalWordRaisesIllegal := fun _ _ _ hb hd hs =>
  (step_finish hs hb).trans (finish_error hd)

/-- Settles O11. -/
theorem idleBlockAndIgnoredWritesChangeNothing : Obligations.IdleBlockAndIgnoredWritesChangeNothing := fun _ =>
  ⟨step_nil_idle, fun _ _ _ hs h0 h4 => step_write_ignored hs h0 fun h => absurd h h4⟩

end Sys2Proof.Machine

/-! PROOFS. The statements of 70_reset_and_hazards.md section 1: what the two resets do, and the state they lead to. -/

namespace Sys2Proof.Machine

variable {s : State} {w : Word} {rest : List Event}

/-! ### The two resets (R280) -/

theorem step_rst (hs : s.schedule = .reset :: rest) : step s = .next ({ s with schedule := rest } : State).resetBlock :=
  step_cons hs

/-- `CTRL.SRST` is the reset of `rst`. -/
theorem hostWrite_srst (hw : w.getLsbD 0 = true) : s.hostWrite 4 w = s.resetBlock :=
  (if_neg (by decide)).trans (if_pos ⟨rfl, hw⟩)

theorem step_srst (hs : s.schedule = .write 4 w :: rest) (hw : w.getLsbD 0 = true) :
    step s = .next ({ s with schedule := rest } : State).resetBlock :=
  (step_cons hs).trans (congrArg Host.Outcome.next (hostWrite_srst hw))

/-! ### A block that is ready (R281) -/

/-- `STATUS` reads 0 where no flag is set. -/
theorem statusWord_of_flags_clear (hbusy : s.busy = false) (hfault : s.fault = false) (hovr : s.ovr = false)
    (hgvalid : s.gvalid = false) (hmvalid : s.mvalid = false) : s.statusWord = 0 := by
  rw [State.statusWord, hbusy, hfault, hovr, hgvalid, hmvalid]
  rfl

/-- An idle block without a fault accepts any word (45_system.md R241). -/
theorem submit_ready (hf : s.fault = false) (hb : s.busy = false) (w : Word) :
    s.submit w = { s with busy := true, held := w } := by
  simp [State.submit, hf, hb]

/-! ### The obligations -/

/-- Settles O9: `rst` and `CTRL.SRST` both come to `State.resetBlock`, which keeps the host's side only. -/
theorem bothResetsGiveTheResetState : Obligations.BothResetsGiveTheResetState := fun _ _ _ =>
  ⟨step_rst, step_srst, fun hs hw => step_write_ignored hs (by decide) fun _ => hw⟩

/-- Settles O10: no flag is set, so `STATUS` reads 0 and a word is accepted. -/
theorem resetStateIsAllZero : Obligations.ResetStateIsAllZero := by
  have hstatus : State.reset.windowWord 1 = 0 := statusWord_of_flags_clear rfl rfl rfl rfl rfl
  have hready : ∀ w, (State.reset.submit w).busy = true ∧ (State.reset.submit w).held = w := fun w => by
    rw [submit_ready rfl rfl w]
    exact ⟨rfl, rfl⟩
  exact ⟨getReg_reset, getPoly_reset, rfl, rfl, rfl, rfl, rfl, rfl, rfl, rfl, rfl, rfl, rfl, rfl, hstatus, hready⟩

end Sys2Proof.Machine

/-! PROOFS. The words of 30_encoding.md R81 and 95_test_vectors.md section 9: each of a command is the encoding of the
command, and in each malformed word the format named below finds no operands. -/

namespace Sys2Proof

/-- To read a word it is enough to encode the command. -/
theorem decode_of_encode_eq {w : Word} {i : Instr} (hwf : i.wf = true) (he : encode i = w) : decode w = .ok i :=
  he ▸ decode_encode hwf

/-- Settles O1: a legal word is what the encoder makes of its command. Of the illegal words three carry an opcode of the
table and a field that its format does not take: a stray bit beside NOP, `A[1]` beside MXOR, a pattern above 7 beside
MASK. -/
theorem decoderReadsSpecWords : Obligations.DecoderReadsSpecWords := by
  have hnop : (Fields.ofWord 0x00000001).readZ .nop = none := rfl
  have hmxor : (Fields.ofWord 0x43312000).readFRR0 .mxor = none := rfl
  have hmask : (Fields.ofWord 0x50000008).readI3 .mask = none := rfl
  have hunknown : decode 0x02000000 = .error .unknownOpcode := rfl
  iterate 31 refine ⟨decode_of_encode_eq rfl rfl, ?_⟩
  exact ⟨congrArg orMalformed hnop, congrArg orMalformed hmxor, congrArg orMalformed hmask, hunknown⟩

end Sys2Proof
